-- ==== Sys2Proof/Word.lean ====
section
/-! DEFINITION. The words, bytes and bit strings of HCC (00_scope.md rules R8, R12, R13; 10_state.md rule R20). -/

namespace Sys2Proof

/-- A register, a command word or a 32-bit bus datum (10_state.md rule R20). -/
abbrev Word := BitVec 32

/-- A byte of IN_MEM or OUT_MEM, and a symbol: "byte value (0–255)" (00_scope.md rule R8). -/
abbrev Byte := BitVec 8

/-- A bit string: a finite sequence of the symbols 0 and 1, the leftmost first (00_scope.md rule R13). -/
abbrev BitString := List Bool

/-- A count held in the FREQ table. `CNT_W ≤ 32` (00_scope.md rule R7), so 32 bits hold every count, and
`State.countsFit` in Safety.lean says that no stored count needs more than `CNT_W` of them. -/
abbrev Count := BitVec 32

/-- A node's frequency: `FW = CNT_W + 8 ≤ 40` bits (00_scope.md rule R8). -/
abbrev NodeFreq := BitVec 40

/-- A stored code: CB_CODE[s] is 255 bits wide (10_state.md rule R46). -/
abbrev CodeBits := BitVec 255

/-- An arena index as NODE's `left` and `right` and as ROOT and NSEL hold it (10_state.md rules R41, R44, R45). -/
abbrev NodeIndex := BitVec 9

end Sys2Proof
end

