-- ==== Sys2Proof/Config.lean ====
section
/-! DEFINITION. The parameters of an instance of HCC (00_scope.md rule R7, 20_memory.md rule R60) and the values
the spec leaves open, each an opaque constant that nothing can evaluate (93_implementation_defined.md U1 to U4, U8). -/

namespace Sys2Proof

/-- The parameters of one instance: IN_SIZE, OUT_SIZE and CNT_W (00_scope.md rule R7) and HCC_BASE, where the
platform places the HCC space (20_memory.md rule R60). They are configuration: no step changes them. -/
structure Params where
  inSize  : Nat
  outSize : Nat
  cntW    : Nat
  hccBase : Nat
  deriving DecidableEq, Repr

/-- The defaults of the table of 00_scope.md rule R7. HCC_BASE is OPEN in the spec: 0 here.
DESIGN CHOICE, log entry 2. -/
def Params.default : Params :=
  { inSize := 65536, outSize := 1048576, cntW := 32, hccBase := 0 }

/-- FW, the width of a node frequency (00_scope.md rule R8). -/
def Params.freqW (p : Params) : Nat := p.cntW + 8

/-- What a read of a byte that nothing has written since power-on gives (70_reset_and_hazards.md rule R211):
a free value for each draw number and each address, so two reads may differ. Log entry 5. -/
opaque Config.unwrittenByte : Nat → Nat → Byte

/-- OUT_MEM byte `a` after a command or a soft reset left OUT_MEM unspecified at draw number `k`: one free value
for each byte, stable until written (93_implementation_defined.md U1, U3). Log entry 6. -/
opaque Config.scrambledByte : Nat → Nat → Byte

/-- What a host read that 00_scope.md rule R10 calls unspecified returns while a command runs: a free value for
each draw number (93_implementation_defined.md U4). Log entry 7. -/
opaque Config.busyRead : Nat → Word

/-- The fields (leaf, sym, freq, left, right) of an arena entry that holds no node of the tree, which are
unspecified and which no access observes (10_state.md rule R44; 93_implementation_defined.md U8). Log entry 8. -/
opaque Config.unspecifiedEntry : Nat → Bool × Byte × NodeFreq × NodeIndex × NodeIndex

end Sys2Proof
end

