-- ==== Sys2Proof/Syntax.lean ====
section
/-! DEFINITION. The commands of HCC (30_encoding.md rule R82), the host's accesses (30_encoding.md rule R89) and
the moves of the two agents (00_scope.md rule R9). -/

namespace Sys2Proof

/-- The seven commands, HCC's instructions: one constructor for each row of spec/opcode_table.json. A command
word carries no operand (30_encoding.md rule R87), so no constructor has an argument. -/
inductive Instr where
  /-- FREQ, word 1 (40_frequency_tree.md rule R101). -/
  | freq
  /-- BUILD, word 2 (40_frequency_tree.md rule R104). -/
  | build
  /-- GENCODE, word 3 (41_codebook.md rule R121). -/
  | gencode
  /-- PACK, word 4 (42_pack.md rule R141). -/
  | pack
  /-- UNPACK, word 5 (43_unpack.md rule R161). -/
  | unpack
  /-- FCLR, word 6 (40_frequency_tree.md rule R103). -/
  | fclr
  /-- CBCLR, word 7 (41_codebook.md rule R124). -/
  | cbclr
  deriving DecidableEq, Repr

/-- One host access to the HCC space at a byte offset (20_memory.md rules R60 to R63; the names RD8, RD32, WR8
and WR32 are those of 30_encoding.md rule R89). -/
inductive HostAccess where
  /-- RD8: an 8-bit read. -/
  | rd8 (off : Word)
  /-- RD32: a 32-bit read. -/
  | rd32 (off : Word)
  /-- WR8: an 8-bit write of `v`. -/
  | wr8 (off : Word) (v : Byte)
  /-- WR32: a 32-bit write of `v`. -/
  | wr32 (off : Word) (v : Word)
  /-- A read or a write of any other total width in bits: 16, 64, a burst (20_memory.md rule R63). -/
  | otherWidth (off : Word) (bits : Nat)
  deriving DecidableEq, Repr

/-- A move that the outside makes or grants, in the order in which the moves take effect (20_memory.md rule R71;
60_exceptions.md rule R191: both orders of a host access and a completion are admitted, and the list says which). -/
inductive Input where
  /-- The Host agent performs one access (00_scope.md rule R9). -/
  | host (a : HostAccess)
  /-- The Core agent gets its turn: it takes its command step if it has one (00_scope.md rule R9). -/
  | coreTurn
  /-- The platform asserts the reset input (70_reset_and_hazards.md rule R210). -/
  | hardReset
  deriving DecidableEq, Repr

/-- The content of the source's out-of-band codebook record (30_encoding.md rule R90): entries of a key and a
code, each a text, and the padding integer. Its textual layout is outside HCC (00_scope.md rule R5). -/
structure CodebookRecord where
  entries : List (List Char × List Char)
  padding : Int
  deriving DecidableEq, Repr

end Sys2Proof
end

