-- ==== Sys2Proof/WellFormed.lean ====
section
/-! DEFINITION. What is well formed: the parameters (00_scope.md rule R7), a command word (30_encoding.md rules
R80, R82), a host access, a code (30_encoding.md rule R88) and a codebook record (30_encoding.md rule R90). A
constructor of Instr has no operand, so every Instr is well formed. -/

namespace Sys2Proof

/-- The legal ranges of 00_scope.md rule R7. `ceil(log2(IN_SIZE + 1)) ≤ CNT_W` is written
`IN_SIZE + 1 ≤ 2 ^ CNT_W`, which says the same of natural numbers. -/
def Params.wf (p : Params) : Bool :=
  decide (1 ≤ p.inSize) && decide (p.inSize ≤ 2 ^ 24) &&
  decide (1 ≤ p.outSize) && decide (p.outSize ≤ 2 ^ 24) &&
  decide (p.inSize + 1 ≤ 2 ^ p.cntW) && decide (p.cntW ≤ 32)

/-- A defined command word: RSV = 0 and OP one of 1 to 7 (30_encoding.md rule R82). -/
def commandWordWf (w : Word) : Bool :=
  decide (w.extractLsb' 4 28 = 0) && decide (1 ≤ (w.extractLsb' 0 4).toNat) &&
  decide ((w.extractLsb' 0 4).toNat ≤ 7)

/-- An access of another width has neither of the two allowed widths (20_memory.md rule R63). -/
def HostAccess.wf : HostAccess → Bool
  | .rd8 _ => true
  | .rd32 _ => true
  | .wr8 _ _ => true
  | .wr32 _ _ => true
  | .otherWidth _ bits => decide (bits ≠ 8) && decide (bits ≠ 32)

/-- A code is a bit string of 1 to 255 symbols (30_encoding.md rule R88). -/
def codeWf (c : BitString) : Bool :=
  decide (1 ≤ c.length) && decide (c.length ≤ 255)

/-- The byte value whose decimal form is the text `k`, if `k` is the decimal form of an integer 0 to 255 with no
leading zero (30_encoding.md rule R90). -/
def decimalByte (k : List Char) : Option Byte :=
  ((List.range 256).find? fun n => decide (Nat.toDigits 10 n = k)).map (BitVec.ofNat 8)

/-- The bit string that the text `c` writes with the symbols "0" and "1" (30_encoding.md rule R90). -/
def codeText : List Char → Option BitString
  | [] => some []
  | '0' :: cs => (codeText cs).map (false :: ·)
  | '1' :: cs => (codeText cs).map (true :: ·)
  | _ :: _ => none

/-- Whether a text is a code: its symbols are "0" and "1" and its length is 1 to 255. -/
def codeTextWf (c : List Char) : Bool :=
  match codeText c with
  | some bits => codeWf bits
  | none => false

/-- The records the host may import; it refuses every other before writing anything (30_encoding.md rule R90). -/
def CodebookRecord.wf (r : CodebookRecord) : Bool :=
  r.entries.all (fun e => (decimalByte e.1).isSome && codeTextWf e.2) &&
  decide ((r.entries.map Prod.fst).Nodup) &&
  decide (0 ≤ r.padding) && decide (r.padding < 2 ^ 32)

end Sys2Proof
end

