-- ==== Sys2Proof/Decode.lean ====
section
/-! DEFINITION. Decoding of a command word, total on all 2^32 words (30_encoding.md rules R80 to R85), and the
encoder written from the same opcode map (30_encoding.md rule R82). -/

namespace Sys2Proof

/-- Why a word is no command (30_encoding.md rule R85). -/
inductive Reject where
  /-- A bit of RSV, w[31:4], is set. -/
  | reservedBits
  /-- OP is 0x0 or 0x8 to 0xF. -/
  | reservedOpcode
  deriving DecidableEq, Repr

/-- What a word decodes to: a command, or a rejection by name. -/
inductive Decoded where
  | command (i : Instr)
  | illegal (r : Reject)
  deriving DecidableEq, Repr

/-- OP, bits [3:0] of a command word (30_encoding.md rule R80). -/
def opField (w : Word) : BitVec 4 := w.extractLsb' 0 4

/-- RSV, bits [31:4] of a command word (30_encoding.md rule R80). -/
def rsvField (w : Word) : BitVec 28 := w.extractLsb' 4 28

/-- The opcode map of 30_encoding.md rule R82: the command with opcode `op`, or none for a reserved one. -/
def opcodeInstr (op : Nat) : Option Instr :=
  match op with
  | 0x1 => some .freq
  | 0x2 => some .build
  | 0x3 => some .gencode
  | 0x4 => some .pack
  | 0x5 => some .unpack
  | 0x6 => some .fclr
  | 0x7 => some .cbclr
  | _ => none

/-- The decode of 30_encoding.md rule R85. -/
def decode (w : Word) : Decoded :=
  if rsvField w ≠ 0 then .illegal .reservedBits
  else
    match opcodeInstr (opField w).toNat with
    | some i => .command i
    | none => .illegal .reservedOpcode

/-- The command a word decodes to, none where the decoder rejects it. -/
def decodeInstr (w : Word) : Option Instr :=
  match decode w with
  | .command i => some i
  | .illegal _ => none

/-- The opcode of a command (30_encoding.md rule R82). -/
def Instr.opcode : Instr → BitVec 4
  | .freq => 0x1
  | .build => 0x2
  | .gencode => 0x3
  | .pack => 0x4
  | .unpack => 0x5
  | .fclr => 0x6
  | .cbclr => 0x7

/-- The word of a command: RSV = 0 above OP (30_encoding.md rules R80, R82). -/
def encode (i : Instr) : Word := (0 : BitVec 28) ++ i.opcode

/-- The word that the bits `w` of an `nbits`-bit table row make, the bits above `nbits` zero. -/
def tableWord (nbits w : Nat) : Word := BitVec.ofNat 32 (w % 2 ^ nbits)

/-- The host's question about a table row: the command that the decoder reads from the row's bits. -/
def decodeTableWord (nbits w : Nat) : Option Instr := decodeInstr (tableWord nbits w)

end Sys2Proof
end

