-- ==== Sys2Proof/Machine/State.lean ====
section
/-! DEFINITION. The state of HCC (10_state.md rules R19 to R52), its faults and refusals, and the state after a
hardware reset (10_state.md rule R52, 70_reset_and_hazards.md rule R210). -/

namespace Sys2Proof.Machine

/-- The error codes of 60_exceptions.md rule R180. Codes 9 to 15 are never written, so they have no name. -/
inductive ErrorCode where
  | noError
  | emptyInput
  | codebookIncomplete
  | corruptBitstream
  | ambiguousCodebook
  | illegalCommand
  | badParameter
  | outputOverflow
  | noTree
  deriving DecidableEq, Repr

/-- One entry of the node arena (10_state.md rule R44). -/
structure Node where
  leaf  : Bool
  sym   : Byte
  freq  : NodeFreq
  left  : NodeIndex
  right : NodeIndex
  deriving DecidableEq, Repr

/-- A table with one entry for each of the 256 symbols (10_state.md rules R43, R46). -/
abbrev Table (α : Type) := Vector α 256

/-- A byte memory (20_memory.md rule R61): the bytes written, by strictly rising address, and what the other
bytes are. `scrambled = none`: nothing has written them since power-on (70_reset_and_hazards.md rule R211).
`scrambled = some k`: they became unspecified at draw number `k` (93_implementation_defined.md U1, U3). -/
structure Memory where
  cells     : List Host.Cell
  scrambled : Option Nat
  deriving DecidableEq, Repr

/-- A memory nothing has written since power-on. -/
def Memory.unwritten : Memory := { cells := [], scrambled := none }

/-- The state of one HCC instance and of its surroundings as far as a step reads them. Registers whose content is
computed from other state (ID, CFG_*, FDATA, CBLEN, CBCODEk, NODE_INFO, NODE_FREQ_*, STATUS as a word) are views:
Machine/Registers.lean computes them. -/
structure State where
  /-- IN_SIZE, OUT_SIZE, CNT_W, HCC_BASE (R7, R48, R60): configuration, changed by no step. -/
  params    : Params
  /-- CTRL.IE (R25). -/
  ie        : Bool
  /-- STATUS.DONE (R28). -/
  done      : Bool
  /-- STATUS.OVR (R29). -/
  ovr       : Bool
  /-- STATUS.TREE_VALID (R30). -/
  treeValid : Bool
  /-- STATUS.ERR (R31). -/
  err       : ErrorCode
  /-- STATUS.LASTOP (R32). -/
  lastOp    : BitVec 4
  /-- The accepted command word that the Core will execute (R83). STATUS.BUSY is 1 exactly while there is one
  (R9, R27): `State.busy`. -/
  pending   : Option Word
  /-- IN_LEN (R34). -/
  inLen     : Word
  /-- OUT_LEN (R35). -/
  outLen    : Word
  /-- PAD (R36). -/
  pad       : Word
  /-- ERRPOS (R37). -/
  errPos    : Word
  /-- ERRAUX (R38). -/
  errAux    : Word
  /-- NLEAF, bits [8:0] used (R39). -/
  nLeaf     : BitVec 9
  /-- NNODE, bits [9:0] used (R40). -/
  nNode     : BitVec 10
  /-- ROOT, bits [8:0] used (R41). -/
  root      : NodeIndex
  /-- FSEL, bits [7:0] (R42). -/
  fSel      : Byte
  /-- CBSEL, bits [7:0] (R47). -/
  cbSel     : Byte
  /-- NSEL, bits [8:0] (R45). -/
  nSel      : NodeIndex
  /-- FREQ[0..255] (R43). -/
  freq      : Table Count
  /-- NODE[0..NNODE−1] in index order (R44). The entries at NNODE or above, and all of them while TREE_VALID = 0,
  are unspecified and unobservable and are left out, as 93_implementation_defined.md U8 allows. Log entry 8. -/
  nodes     : List Node
  /-- CB_LEN[0..255] (R46). -/
  cbLen     : Table Byte
  /-- CB_CODE[0..255] (R46). -/
  cbCode    : Table CodeBits
  /-- IN_MEM (R49, R61). -/
  inMem     : Memory
  /-- OUT_MEM (R49, R61). -/
  outMem    : Memory
  /-- The value that the last completed host read returned, none before the first: the bus's read data. The
  model's own field. Log entry 9. -/
  reply     : Option Word
  /-- The number of the next draw of free values. The model's own field. Log entry 4. -/
  draws     : Nat
  /-- The moves of the host and the platform that are still to come, the next first. The model's own field. Log
  entry 3. -/
  inputs    : List Input
  deriving DecidableEq, Repr

/-- Why the machine stops with a fault. -/
inductive Fault where
  /-- Raised by a host access to an unmapped offset, of a refused width, or misaligned (20_memory.md rules R62 to
  R66): the access has no effect and returns no value. SAFE: it is the fault that rule R62 names. -/
  | busError (off : Word) (bits : Nat)
  deriving DecidableEq, Repr

/-- Why the machine refuses to give a meaning. -/
inductive Refusal where
  /-- Raised by no arm of exec: every command of spec/opcode_table.json has its meaning. SAFE. -/
  | notModelled (mnemonic : String)
  /-- Raised by a host write, while a command runs, to anything but CMD, CTRL and STATUS: a breach of host duty
  for which 93_implementation_defined.md U5 gives the treatment refuse (70_reset_and_hazards.md rule R216). UNSAFE
  for a host that breaches its duty, which no claim about this model covers. Log entry 10. -/
  | hostDutyBreach (off : Word)
  deriving DecidableEq, Repr

/-- The state after a hardware reset of an instance with the default parameters (10_state.md rule R52). -/
def State.reset : State where
  params    := Params.default
  ie        := false
  done      := false
  ovr       := false
  treeValid := false
  err       := .noError
  lastOp    := 0
  pending   := none
  inLen     := 0
  outLen    := 0
  pad       := 0
  errPos    := 0
  errAux    := 0
  nLeaf     := 0
  nNode     := 0
  root      := 0
  fSel      := 0
  cbSel     := 0
  nSel      := 0
  freq      := Vector.replicate 256 0
  nodes     := []
  cbLen     := Vector.replicate 256 0
  cbCode    := Vector.replicate 256 0
  inMem     := Memory.unwritten
  outMem    := Memory.unwritten
  reply     := none
  draws     := 0
  inputs    := []

end Sys2Proof.Machine
end

