-- ==== Sys2Proof/Machine/Ops.lean ====
section
/-! DEFINITION. The named operations over tables, memories and registers; the acceptance of a command
(30_encoding.md rule R83); its completion, which is HCC's taking of an exception (60_exceptions.md rule R182); and
the two resets (70_reset_and_hazards.md rules R210, R212). -/

namespace Sys2Proof.Machine

/-! ### Tables of 256 entries -/

/-- `T[s]` (00_scope.md rule R15). -/
def Table.at {α : Type} (t : Table α) (s : Byte) : α := t[s.toNat]'s.isLt

/-- `T[s] <- v` (00_scope.md rule R15). -/
def Table.put {α : Type} (t : Table α) (s : Byte) (v : α) : Table α := t.set s.toNat v s.isLt

/-- The table whose entries are all `v`. -/
def Table.all {α : Type} (v : α) : Table α := Vector.replicate 256 v

/-- The symbols 0 to 255 in ascending order. -/
def allSymbols : List Byte := (List.range 256).map (BitVec.ofNat 8)

/-! ### Byte memories -/

/-- The byte written at address `a`, if one was. -/
def lookupCell : List Host.Cell → Nat → Option Byte
  | [], _ => none
  | (k, v) :: rest, a => if k = a then some v else lookupCell rest a

/-- The cells with the byte at `a` now `v`, still by strictly rising address. -/
def insertCell (a : Nat) (v : Byte) : List Host.Cell → List Host.Cell
  | [] => [(a, v)]
  | (k, w) :: rest =>
    if a < k then (a, v) :: (k, w) :: rest
    else if a = k then (a, v) :: rest
    else (k, w) :: insertCell a v rest

/-- `MemRead(M, a, 1)`, the draw number `n` naming the free value of an unwritten byte (20_memory.md rule R61,
70_reset_and_hazards.md rule R211). A byte that became unspecified at draw `k` keeps its one free value
(93_implementation_defined.md U1). -/
def Memory.byteAt (m : Memory) (n a : Nat) : Byte :=
  match lookupCell m.cells a with
  | some v => v
  | none =>
    match m.scrambled with
    | some k => Config.scrambledByte k a
    | none => Config.unwrittenByte n a

/-- `MemWrite(M, a, 1, [v])` (20_memory.md rule R61). -/
def Memory.write (m : Memory) (a : Nat) (v : Byte) : Memory :=
  { m with cells := insertCell a v m.cells }

/-- `MemWrite` of a list of bytes at `a`, `a + 1`, … (00_scope.md rule R15). -/
def Memory.writeBytes (m : Memory) (a : Nat) : List Byte → Memory
  | [] => m
  | v :: vs => (m.writeBytes (a + 1) vs).write a v

/-- Every byte becomes unspecified at draw `k` (93_implementation_defined.md U1, U3). -/
def Memory.scramble (k : Nat) : Memory := { cells := [], scrambled := some k }

/-- The 32-bit value in the bytes `a` to `a + 3`, byte `a + i` in bits 8i+7:8i (20_memory.md rule R64). -/
def Memory.wordAt (m : Memory) (n a : Nat) : Word :=
  m.byteAt n (a + 3) ++ m.byteAt n (a + 2) ++ m.byteAt n (a + 1) ++ m.byteAt n a

/-- The bytes of a 32-bit value in little-endian lane order (20_memory.md rule R64). -/
def lanes (v : Word) : List Byte :=
  [v.extractLsb' 0 8, v.extractLsb' 8 8, v.extractLsb' 16 8, v.extractLsb' 24 8]

/-- A 32-bit write at window byte `a` (20_memory.md rule R64). -/
def Memory.writeWord (m : Memory) (a : Nat) (v : Word) : Memory := m.writeBytes a (lanes v)

/-- Addresses strictly rising. -/
def risingCells : List Host.Cell → Bool
  | [] => true
  | [_] => true
  | (a, _) :: (b, v) :: rest => decide (a < b) && risingCells ((b, v) :: rest)

/-- The canonical form: addresses strictly rising and inside the memory. What an unlisted byte reads as is a free
value, which no entry can be said to equal, so no entry is ever redundant. -/
def Memory.wf (m : Memory) (size : Nat) : Bool :=
  risingCells m.cells && m.cells.all fun c => decide (c.1 < size)

/-! ### Acceptance and completion -/

/-- STATUS.BUSY (10_state.md rule R27): a command was accepted and has not completed. -/
def State.busy (s : State) : Bool := s.pending.isSome

/-- The effect of an accepted CMD write of `w` (30_encoding.md rule R83). -/
def accept (w : Word) (s : State) : State :=
  { s with
    done    := false
    err     := .noError
    lastOp  := opField w
    errPos  := 0
    errAux  := 0
    pending := some w }

/-- An error with its position and auxiliary information, `E(pos, aux)` (00_scope.md rule R16). -/
structure CmdError where
  code : ErrorCode
  pos  : Word
  aux  : Word
  deriving DecidableEq, Repr

/-- Completion (60_exceptions.md rule R182): the last part of every command step. -/
def complete (e : CmdError) (s : State) : State :=
  { s with
    err     := e.code
    errPos  := e.pos
    errAux  := e.aux
    pending := none
    done    := true }

/-- `finish()` (00_scope.md rule R16). -/
def finish (s : State) : State := complete { code := .noError, pos := 0, aux := 0 } s

/-- `raise E(pos, aux)` of a command other than PACK and UNPACK, and of decode (00_scope.md rule R16). -/
def raise (e : CmdError) (s : State) : State := complete e s

/-- `raise E(pos, aux)` of PACK and UNPACK: OUT_LEN is 0 and every byte of OUT_MEM is unspecified
(60_exceptions.md rules R182, R183). -/
def raiseNoOutput (e : CmdError) (s : State) : State :=
  complete e { s with outLen := 0, outMem := Memory.scramble s.draws }

/-! ### Resets -/

/-- The commands that write OUT_MEM (30_encoding.md rule R87). -/
def writesOutMem : Instr → Bool
  | .freq => false
  | .build => false
  | .gencode => false
  | .pack => true
  | .unpack => true
  | .fclr => false
  | .cbclr => false

/-- A PACK or an UNPACK is running. -/
def State.runsOutput (s : State) : Bool :=
  match s.pending with
  | some w =>
    match decodeInstr w with
    | some i => writesOutMem i
    | none => false
  | none => false

/-- A hardware reset (70_reset_and_hazards.md rule R210): registers, tables and flags as 10_state.md rule R52 says,
and both memories unspecified. The parameters, and the model's own fields, are no part of it. -/
def hardReset (s : State) : State :=
  { State.reset with
    params := s.params
    reply  := s.reply
    draws  := s.draws
    inputs := s.inputs }

/-- A soft reset (70_reset_and_hazards.md rule R212; 90_conflicts.md C10): as a hardware reset, but IN_MEM stays,
and OUT_MEM stays unless a running PACK or UNPACK is aborted. -/
def softReset (s : State) : State :=
  { hardReset s with
    inMem  := s.inMem
    outMem := if s.runsOutput then Memory.scramble s.draws else s.outMem }

end Sys2Proof.Machine
end

