-- ==== Sys2Proof/Machine/Flags.lean ====
section
/-! DEFINITION. STATUS and CTRL as words, the writes of their fields, and the interrupt output (10_state.md rules
R25 to R32; 60_exceptions.md rules R180, R188). -/

namespace Sys2Proof.Machine

/-- The number of an error code (60_exceptions.md rule R180). -/
def ErrorCode.number : ErrorCode → BitVec 4
  | .noError => 0
  | .emptyInput => 1
  | .codebookIncomplete => 2
  | .corruptBitstream => 3
  | .ambiguousCodebook => 4
  | .illegalCommand => 5
  | .badParameter => 6
  | .outputOverflow => 7
  | .noTree => 8

/-- One bit of a register. -/
def bit (b : Bool) : BitVec 1 := BitVec.ofBool b

/-- STATUS: LASTOP [15:12], ERR [11:8], TREE_VALID [3], OVR [2], DONE [1], BUSY [0], the rest 0 (10_state.md rule
R26). -/
def statusWord (s : State) : Word :=
  (0 : BitVec 16) ++ s.lastOp ++ s.err.number ++ (0 : BitVec 4) ++
    bit s.treeValid ++ bit s.ovr ++ bit s.done ++ bit s.busy

/-- CTRL: IE [0]; SRST [1] and the reserved bits read 0 (10_state.md rule R25). -/
def ctrlWord (s : State) : Word := (0 : BitVec 31) ++ bit s.ie

/-- A write of `v` to STATUS: writing 1 clears DONE (bit 1) and OVR (bit 2), and no other field changes
(10_state.md rules R21, R26). -/
def writeStatus (v : Word) (s : State) : State :=
  { s with
    done := s.done && !v.getLsbD 1
    ovr  := s.ovr && !v.getLsbD 2 }

/-- A write of `v` to CTRL: with SRST = 1 a soft reset, the IE bit of the same write ignored; else IE is bit 0
(10_state.md rule R25). -/
def writeCtrl (v : Word) (s : State) : State :=
  if v.getLsbD 1 then softReset s else { s with ie := v.getLsbD 0 }

/-- A write of `w` to CMD: accepted when idle (30_encoding.md rule R83), dropped with OVR set while a command runs
(30_encoding.md rule R84). -/
def writeCmd (w : Word) (s : State) : State :=
  if s.busy then { s with ovr := true } else accept w s

/-- The level of the interrupt output: `IRQ = STATUS.DONE and CTRL.IE` (60_exceptions.md rule R188). -/
def State.irq (s : State) : Bool := s.done && s.ie

end Sys2Proof.Machine
end

