-- ==== Sys2Proof/Machine/BitString.lean ====
section
/-! DEFINITION. Bit strings, their conversions and the stream order of a payload (00_scope.md rules R13, R14;
20_memory.md rule R65; 42_pack.md rules R144, R145). -/

namespace Sys2Proof.Machine

/-- `str_L(v)`: the L-symbol string of `v`, the most significant of the L bits first (00_scope.md rule R14). -/
def strOf (len : Nat) (v : Nat) : BitString :=
  (List.range len).map fun i => v.testBit (len - 1 - i)

/-- `val(s)`, the number that `s` writes with its first symbol most significant; `val([]) = 0` (00_scope.md rule
R14). -/
def valOf (s : BitString) : Nat :=
  s.foldl (fun acc b => 2 * acc + b.toNat) 0

/-- `bitsOf(byte)`: the byte's bits, most significant first (00_scope.md rule R14). -/
def bitsOf (b : Byte) : BitString := strOf 8 b.toNat

/-- `streamBits`: the bytes of a payload as one bit string, the most significant bit of the first byte first
(20_memory.md rule R65). -/
def streamBits (bytes : List Byte) : BitString := bytes.flatMap bitsOf

/-- `s` is a prefix of `t`, equal strings included (00_scope.md rule R13). -/
def prefixOf (s t : BitString) : Bool := s.isPrefixOf t

/-- The padding of an unpadded string of `t` bits: `(8 − t mod 8) mod 8` (42_pack.md rule R144). -/
def paddingOf (t : Nat) : Nat := (8 - t % 8) % 8

/-- `ceil(t / 8)`, the bytes that `t` bits need (42_pack.md rule R143). -/
def bytesFor (t : Nat) : Nat := (t + 7) / 8

/-- The byte that eight stream bits make, the first of them most significant (42_pack.md rule R145). -/
def byteOfBits (s : BitString) : Byte := BitVec.ofNat 8 (valOf s)

/-- The bytes of a bit string whose length is a multiple of 8: byte j holds the bits 8j to 8j+7 (42_pack.md rule
R145). -/
def bytesOfBits : BitString → List Byte
  | b0 :: b1 :: b2 :: b3 :: b4 :: b5 :: b6 :: b7 :: rest =>
    byteOfBits [b0, b1, b2, b3, b4, b5, b6, b7] :: bytesOfBits rest
  | _ => []

/-- The bit string of PACK after padding: `bits ++ 0^p` (42_pack.md rule R141). -/
def padded (bits : BitString) : BitString :=
  bits ++ List.replicate (paddingOf bits.length) false

end Sys2Proof.Machine
end

