-- ==== Sys2Proof/Machine/Operands.lean ====
section
/-! DEFINITION. The operands of the commands, all implicit (30_encoding.md rules R87, R88, R92): the input bytes and
the checks of their length, and the codes of the codebook. -/

namespace Sys2Proof.Machine

/-- EMPTY_INPUT(0, 0) (60_exceptions.md rule R180). -/
def emptyInputError : CmdError := { code := .emptyInput, pos := 0, aux := 0 }

/-- The checks of IN_LEN that FREQ, PACK and UNPACK make first: EMPTY_INPUT when it is 0, BAD_PARAMETER when it is
above IN_SIZE (10_state.md rule R34; 60_exceptions.md rule R181). -/
def inputError (s : State) : Option CmdError :=
  if s.inLen = 0 then some emptyInputError
  else if s.inLen.toNat > s.params.inSize then some { code := .badParameter, pos := 0x010, aux := s.inLen }
  else none

/-- The bytes IN_MEM[0..IN_LEN−1], in ascending order (30_encoding.md rule R92). A byte that nothing has written is
the free value of the step's draw number (70_reset_and_hazards.md rule R211). -/
def inputBytes (s : State) : List Byte :=
  (List.range s.inLen.toNat).map (s.inMem.byteAt s.draws)

/-- Whether symbol `b` is coded: CB_LEN[b] ≠ 0 (10_state.md rule R46). -/
def isCoded (s : State) (b : Byte) : Bool := decide (s.cbLen.at b ≠ 0)

/-- `code(b) = str_L(CB_CODE[b][L−1:0])` with L = CB_LEN[b]: the bits above L are ignored (10_state.md rule R46). -/
def codeOf (s : State) (b : Byte) : BitString :=
  strOf (s.cbLen.at b).toNat (s.cbCode.at b).toNat

/-- The coded symbols, ascending (43_unpack.md rule R161, the set V). -/
def codedSymbols (s : State) : List Byte := allSymbols.filter (isCoded s)

/-- The coded symbols with their codes, ascending. -/
def codebookOf (s : State) : List (Byte × BitString) :=
  (codedSymbols s).map fun b => (b, codeOf s b)

/-- Writes the code `c` for symbol `b`: CB_LEN[b] = |c|, CB_CODE[b] = zext_255(val(c)) (30_encoding.md rule R88,
41_codebook.md rule R121). -/
def setCode (b : Byte) (c : BitString) (s : State) : State :=
  { s with
    cbLen  := s.cbLen.put b (BitVec.ofNat 8 c.length)
    cbCode := s.cbCode.put b (BitVec.ofNat 255 (valOf c)) }

/-- Clears all 256 codebook entries (41_codebook.md rules R123, R124). -/
def clearCodebook (s : State) : State :=
  { s with cbLen := Table.all 0, cbCode := Table.all 0 }

/-- Clears all 256 counts (40_frequency_tree.md rule R103). -/
def clearCounts (s : State) : State :=
  { s with freq := Table.all 0 }

/-- The entry NODE[k]; one that holds no node of the tree is unspecified (10_state.md rule R44). -/
def nodeAt (nodes : List Node) (k : Nat) : Node :=
  match nodes[k]? with
  | some n => n
  | none =>
    { leaf  := (Config.unspecifiedEntry k).1
      sym   := (Config.unspecifiedEntry k).2.1
      freq  := (Config.unspecifiedEntry k).2.2.1
      left  := (Config.unspecifiedEntry k).2.2.2.1
      right := (Config.unspecifiedEntry k).2.2.2.2 }

end Sys2Proof.Machine
end

