-- ==== Sys2Proof/Machine/Registers.lean ====
section
/-! DEFINITION. The register page: its map, and what a host read returns and a host write does (10_state.md rules
R20 to R48; 00_scope.md rule R10). -/

namespace Sys2Proof.Machine

/-- The registers of 10_state.md rule R20. `reserved` is an offset that the rule does not list. -/
inductive Reg where
  | id | ctrl | status | cmd | inLen | outLen | pad | errPos | errAux
  | nLeaf | nNode | root | fSel | fData | cbSel | cbLen | cbCode (k : Fin 8)
  | nSel | nodeInfo | nodeFreqLo | nodeFreqHi | cfgInSize | cfgOutSize | cfgCntW
  | reserved
  deriving DecidableEq, Repr

/-- The register map of 10_state.md rule R20. -/
def registerMap : List (Nat × Reg) :=
  [(0x000, .id), (0x004, .ctrl), (0x008, .status), (0x00C, .cmd),
   (0x010, .inLen), (0x014, .outLen), (0x018, .pad), (0x01C, .errPos),
   (0x020, .errAux), (0x024, .nLeaf), (0x028, .nNode), (0x02C, .root),
   (0x030, .fSel), (0x034, .fData), (0x038, .cbSel), (0x03C, .cbLen),
   (0x040, .cbCode 0), (0x044, .cbCode 1), (0x048, .cbCode 2), (0x04C, .cbCode 3),
   (0x050, .cbCode 4), (0x054, .cbCode 5), (0x058, .cbCode 6), (0x05C, .cbCode 7),
   (0x060, .nSel), (0x064, .nodeInfo), (0x068, .nodeFreqLo), (0x06C, .nodeFreqHi),
   (0x070, .cfgInSize), (0x074, .cfgOutSize), (0x078, .cfgCntW)]

/-- The register at an offset of the page; an offset the map does not list is reserved (10_state.md rule R22). -/
def regAt (off : Nat) : Reg := (registerMap.lookup off).getD .reserved

/-- ID: "HCC", version 1 (10_state.md rule R24). -/
def idWord : Word := 0x48434301

/-- Whether NSEL selects a node of a valid tree: `v` of 10_state.md rule R45. -/
def nodeShown (s : State) : Bool := s.treeValid && decide (s.nSel.toNat < s.nNode.toNat)

/-- The entry that NSEL selects. -/
def selectedNode (s : State) : Node := nodeAt s.nodes s.nSel.toNat

/-- NODE_INFO of a node that is shown: VALID [31], LEAF [30], SYM [25:18], RIGHT [17:9], LEFT [8:0] (10_state.md rule
R45). -/
def nodeInfoWord (n : Node) : Word :=
  bit true ++ bit n.leaf ++ (0 : BitVec 4) ++ (if n.leaf then n.sym else 0) ++
    (if n.leaf then 0 else n.right) ++ (if n.leaf then 0 else n.left)

/-- The value of a register while no command runs (10_state.md rules R21 to R48). -/
def regValue (r : Reg) (s : State) : Word :=
  match r with
  | .id => idWord
  | .ctrl => ctrlWord s
  | .status => statusWord s
  | .cmd => 0
  | .inLen => s.inLen
  | .outLen => s.outLen
  | .pad => s.pad
  | .errPos => s.errPos
  | .errAux => s.errAux
  | .nLeaf => s.nLeaf.setWidth 32
  | .nNode => s.nNode.setWidth 32
  | .root => s.root.setWidth 32
  | .fSel => s.fSel.setWidth 32
  | .fData => s.freq.at s.fSel
  | .cbSel => s.cbSel.setWidth 32
  | .cbLen => (s.cbLen.at s.cbSel).setWidth 32
  | .cbCode k => ((s.cbCode.at s.cbSel).setWidth 256).extractLsb' (32 * k.val) 32
  | .nSel => s.nSel.setWidth 32
  | .nodeInfo => if nodeShown s then nodeInfoWord (selectedNode s) else 0
  | .nodeFreqLo => if nodeShown s then (selectedNode s).freq.setWidth 32 else 0
  | .nodeFreqHi => if nodeShown s then ((selectedNode s).freq.extractLsb' 32 8).setWidth 32 else 0
  | .cfgInSize => BitVec.ofNat 32 s.params.inSize
  | .cfgOutSize => BitVec.ofNat 32 s.params.outSize
  | .cfgCntW => BitVec.ofNat 32 s.params.cntW
  | .reserved => 0

/-- The offsets whose reads stay specified while a command runs (00_scope.md rule R10): ID, CTRL, STATUS, CFG_*, and
a reserved offset, which is no register (10_state.md rule R22). Log entry 7. -/
def Reg.readableBusy : Reg → Bool
  | .id => true
  | .ctrl => true
  | .status => true
  | .cfgInSize => true
  | .cfgOutSize => true
  | .cfgCntW => true
  | .reserved => true
  | .cmd | .inLen | .outLen | .pad | .errPos | .errAux | .nLeaf | .nNode | .root | .fSel | .fData | .cbSel
  | .cbLen | .cbCode _ | .nSel | .nodeInfo | .nodeFreqLo | .nodeFreqHi => false

/-- What a host read of a register returns (10_state.md rule R21; 00_scope.md rule R10). -/
def readReg (r : Reg) (s : State) : Word :=
  if s.busy && !r.readableBusy then Config.busyRead s.draws else regValue r s

/-- A count cut to CNT_W bits, as FDATA stores it: `v[CNT_W−1:0]` (10_state.md rule R42). -/
def countField (p : Params) (v : Word) : Count := BitVec.ofNat 32 (v.toNat % 2 ^ p.cntW)

/-- A code with the bits [32k+31:32k] replaced by `v`; bit 255 does not exist (10_state.md rule R47). -/
def putCodeWord (c : CodeBits) (k : Nat) (v : Word) : CodeBits :=
  ((c.setWidth 256 &&& ~~~((0xFFFFFFFF : BitVec 256) <<< (32 * k))) ||| (v.setWidth 256 <<< (32 * k))).setWidth 255

/-- The offsets the host may write while a command runs: CMD, CTRL and STATUS (70_reset_and_hazards.md rule R216). -/
def Reg.writableBusy : Reg → Bool
  | .ctrl => true
  | .status => true
  | .cmd => true
  | .id | .inLen | .outLen | .pad | .errPos | .errAux | .nLeaf | .nNode | .root | .fSel | .fData | .cbSel
  | .cbLen | .cbCode _ | .nSel | .nodeInfo | .nodeFreqLo | .nodeFreqHi | .cfgInSize | .cfgOutSize | .cfgCntW
  | .reserved => false

/-- The effect of a host write of `v` to a register (10_state.md rules R21, R22, R25 to R48): none on a read-only
register and on a reserved offset. -/
def writeReg (r : Reg) (v : Word) (s : State) : State :=
  match r with
  | .ctrl => writeCtrl v s
  | .status => writeStatus v s
  | .cmd => writeCmd v s
  | .inLen => { s with inLen := v }
  | .pad => { s with pad := v }
  | .fSel => { s with fSel := v.setWidth 8 }
  | .fData => { s with freq := s.freq.put s.fSel (countField s.params v) }
  | .cbSel => { s with cbSel := v.setWidth 8 }
  | .cbLen => { s with cbLen := s.cbLen.put s.cbSel (v.setWidth 8) }
  | .cbCode k => { s with cbCode := s.cbCode.put s.cbSel (putCodeWord (s.cbCode.at s.cbSel) k.val v) }
  | .nSel => { s with nSel := v.setWidth 9 }
  | .id | .outLen | .errPos | .errAux | .nLeaf | .nNode | .root | .nodeInfo | .nodeFreqLo | .nodeFreqHi
  | .cfgInSize | .cfgOutSize | .cfgCntW | .reserved => s

end Sys2Proof.Machine
end

