-- ==== Sys2Proof/Machine/Bus.lean ====
section
/-! DEFINITION. The host's accesses to the HCC space (20_memory.md rules R60 to R68; 00_scope.md rule R10;
70_reset_and_hazards.md rule R216). -/

namespace Sys2Proof.Machine

/-- Where an offset of the HCC space lies (20_memory.md rule R60). -/
inductive Region where
  /-- The register page, with the offset in it. -/
  | page (off : Nat)
  /-- The IN_MEM window, with the byte's index. -/
  | input (a : Nat)
  /-- The OUT_MEM window, with the byte's index. -/
  | output (a : Nat)
  | unmapped
  deriving DecidableEq, Repr

/-- The offset of the IN_MEM window (20_memory.md rule R60). -/
def inBase : Nat := 0x01000000

/-- The offset of the OUT_MEM window (20_memory.md rule R60). -/
def outBase : Nat := 0x02000000

/-- The map of 20_memory.md rule R60. -/
def regionOf (p : Params) (off : Word) : Region :=
  if off.toNat < 0x1000 then .page off.toNat
  else if inBase ≤ off.toNat ∧ off.toNat < inBase + p.inSize then .input (off.toNat - inBase)
  else if outBase ≤ off.toNat ∧ off.toNat < outBase + p.outSize then .output (off.toNat - outBase)
  else .unmapped

/-- A 32-bit access at window byte `a` is allowed: aligned, and its last byte is inside the memory (20_memory.md rule
R64). -/
def wordFits (a size : Nat) : Bool := decide (a % 4 = 0) && decide (a + 3 < size)

/-- The host receives `v` as the value of its read. -/
def returns (v : Word) (s : State) : Host.Outcome State Fault Refusal := .next { s with reply := some v }

/-- A host write that 70_reset_and_hazards.md rule R216 forbids while a command runs: it is made only when idle. -/
def whenIdle (off : Word) (s t : State) : Host.Outcome State Fault Refusal :=
  if s.busy then .refused (.hostDutyBreach off) else .next t

/-- RD8: IN_MEM and OUT_MEM only (20_memory.md rules R64, R66); an OUT_MEM byte is unspecified while a command runs
(00_scope.md rule R10). The byte is returned as a number 0 to 255 (30_encoding.md rule R92). -/
def hostRead8 (off : Word) (s : State) : Host.Outcome State Fault Refusal :=
  match regionOf s.params off with
  | .page _ => .fault (.busError off 8)
  | .input a => returns ((s.inMem.byteAt s.draws a).setWidth 32) s
  | .output a =>
    returns (((if s.busy then (Config.busyRead s.draws).setWidth 8 else s.outMem.byteAt s.draws a) : Byte).setWidth 32) s
  | .unmapped => .fault (.busError off 8)

/-- RD32 (20_memory.md rules R62, R64, R66; 00_scope.md rule R10). -/
def hostRead32 (off : Word) (s : State) : Host.Outcome State Fault Refusal :=
  match regionOf s.params off with
  | .page o => if o % 4 = 0 then returns (readReg (regAt o) s) s else .fault (.busError off 32)
  | .input a =>
    if wordFits a s.params.inSize then returns (s.inMem.wordAt s.draws a) s else .fault (.busError off 32)
  | .output a =>
    if wordFits a s.params.outSize then
      returns (if s.busy then Config.busyRead s.draws else s.outMem.wordAt s.draws a) s
    else .fault (.busError off 32)
  | .unmapped => .fault (.busError off 32)

/-- WR8 (20_memory.md rules R62, R64, R66; 70_reset_and_hazards.md rule R216). -/
def hostWrite8 (off : Word) (v : Byte) (s : State) : Host.Outcome State Fault Refusal :=
  match regionOf s.params off with
  | .page _ => .fault (.busError off 8)
  | .input a => whenIdle off s { s with inMem := s.inMem.write a v }
  | .output a => whenIdle off s { s with outMem := s.outMem.write a v }
  | .unmapped => .fault (.busError off 8)

/-- WR32 (20_memory.md rules R62, R64, R66; 70_reset_and_hazards.md rule R216). -/
def hostWrite32 (off : Word) (v : Word) (s : State) : Host.Outcome State Fault Refusal :=
  match regionOf s.params off with
  | .page o =>
    if o % 4 = 0 then
      if (regAt o).writableBusy then .next (writeReg (regAt o) v s)
      else whenIdle off s (writeReg (regAt o) v s)
    else .fault (.busError off 32)
  | .input a =>
    if wordFits a s.params.inSize then whenIdle off s { s with inMem := s.inMem.writeWord a v }
    else .fault (.busError off 32)
  | .output a =>
    if wordFits a s.params.outSize then whenIdle off s { s with outMem := s.outMem.writeWord a v }
    else .fault (.busError off 32)
  | .unmapped => .fault (.busError off 32)

/-- One host access (00_scope.md rule R9). Any width but 8 and 32 bits gets a bus error (20_memory.md rule R63). -/
def hostAccess (a : HostAccess) (s : State) : Host.Outcome State Fault Refusal :=
  match a with
  | .rd8 off => hostRead8 off s
  | .rd32 off => hostRead32 off s
  | .wr8 off v => hostWrite8 off v s
  | .wr32 off v => hostWrite32 off v s
  | .otherWidth off bits => .fault (.busError off bits)

end Sys2Proof.Machine
end

