-- ==== Sys2Proof/Machine/Codebook.lean ====
section
/-! DEFINITION. The CodebookGenerator: GENCODE and CBCLR (41_codebook.md rules R121 to R124). -/

namespace Sys2Proof.Machine

/-- `walk(k, p)` of 41_codebook.md rule R121: the leaves at or below node `k`, each with its path from the root.
A child's index is below its parent's (10_state.md rule R44), so as much fuel as the arena has nodes is enough. -/
def leafPaths (nodes : List Node) : Nat → Nat → BitString → List (Byte × BitString)
  | 0, _, _ => []
  | fuel + 1, k, p =>
    if (nodeAt nodes k).leaf then [((nodeAt nodes k).sym, p)]
    else
      leafPaths nodes fuel (nodeAt nodes k).left.toNat (p ++ [false]) ++
        leafPaths nodes fuel (nodeAt nodes k).right.toNat (p ++ [true])

/-- The codes of a tree: the code "0" when the root is a leaf (41_codebook.md rule R122), else each leaf's path. -/
def treeCodes (nodes : List Node) (root : Nat) : List (Byte × BitString) :=
  if (nodeAt nodes root).leaf then [((nodeAt nodes root).sym, [false])]
  else leafPaths nodes nodes.length root []

/-- Writes a list of codes into the codebook tables. -/
def writeCodes (codes : List (Byte × BitString)) (s : State) : State :=
  codes.foldl (fun t c => setCode c.1 c.2 t) s

/-- GENCODE (41_codebook.md rule R121). -/
def execGencode (s : State) : Host.Outcome State Fault Refusal :=
  if s.treeValid then
    .next (finish (writeCodes (treeCodes s.nodes s.root.toNat) (clearCodebook s)))
  else .next (raise { code := .noTree, pos := 0, aux := 0 } s)

/-- CBCLR (41_codebook.md rule R124). -/
def execCbclr (s : State) : Host.Outcome State Fault Refusal :=
  .next (finish (clearCodebook s))

end Sys2Proof.Machine
end

