-- ==== Sys2Proof/Machine/Frequency.lean ====
section
/-! DEFINITION. The FrequencyAnalyzer: FREQ and FCLR (40_frequency_tree.md rules R101 to R103). -/

namespace Sys2Proof.Machine

/-- The counting loop of 40_frequency_tree.md rule R101 from a table of zeros. -/
def countBytes (bytes : List Byte) : Table Count :=
  bytes.foldl (fun t b => t.put b (t.at b + 1)) (Table.all 0)

/-- FREQ (40_frequency_tree.md rule R101): the errors are found before the table is cleared. -/
def execFreq (s : State) : Host.Outcome State Fault Refusal :=
  match inputError s with
  | some e => .next (raise e s)
  | none => .next (finish { s with freq := countBytes (inputBytes s) })

/-- FCLR (40_frequency_tree.md rule R103). -/
def execFclr (s : State) : Host.Outcome State Fault Refusal :=
  .next (finish (clearCounts s))

end Sys2Proof.Machine
end

