-- ==== Sys2Proof/Machine/Pack.lean ====
section
/-! DEFINITION. The BitstreamPacker: PACK (42_pack.md rules R141 to R147). -/

namespace Sys2Proof.Machine

/-- The encoding loop of 42_pack.md rule R141 over the input bytes from index `i` on, with `len` bits before them:
the bits of their codes, or the first error. An uncoded byte comes before an overflow at the same index. -/
def encodeFrom (s : State) (i len : Nat) : List Byte → Except CmdError BitString
  | [] => .ok []
  | b :: rest =>
    if isCoded s b then
      if bytesFor (len + (codeOf s b).length) > s.params.outSize then
        .error { code := .outputOverflow, pos := BitVec.ofNat 32 i, aux := BitVec.ofNat 32 s.params.outSize }
      else
        match encodeFrom s (i + 1) (len + (codeOf s b).length) rest with
        | .ok bits => .ok (codeOf s b ++ bits)
        | .error e => .error e
    else .error { code := .codebookIncomplete, pos := BitVec.ofNat 32 i, aux := b.setWidth 32 }

/-- The unpadded bit string of PACK, or its error in the order of 60_exceptions.md rule R181. -/
def packBits (s : State) : Except CmdError BitString :=
  match inputError s with
  | some e => .error e
  | none => encodeFrom s 0 0 (inputBytes s)

/-- PACK (42_pack.md rule R141). -/
def execPack (s : State) : Host.Outcome State Fault Refusal :=
  match packBits s with
  | .error e => .next (raiseNoOutput e s)
  | .ok bits =>
    .next (finish { s with
      outMem := s.outMem.writeBytes 0 (bytesOfBits (padded bits))
      outLen := BitVec.ofNat 32 ((padded bits).length / 8)
      pad    := BitVec.ofNat 32 (paddingOf bits.length) })

end Sys2Proof.Machine
end

