-- ==== Sys2Proof/Machine/Tree.lean ====
section
/-! DEFINITION. The HuffmanTreeBuilder: BUILD (40_frequency_tree.md rules R104 to R110). -/

namespace Sys2Proof.Machine

/-- A queued node: its frequency and its arena index, which is its insertion number (40_frequency_tree.md rule
R105). -/
structure Queued where
  freq : NodeFreq
  idx  : Nat
  deriving DecidableEq, Repr

/-- The removal order: least frequency first and, among equal frequencies, least index (40_frequency_tree.md rule
R105). -/
def Queued.before (x y : Queued) : Bool :=
  decide (x.freq < y.freq) || (decide (x.freq = y.freq) && decide (x.idx < y.idx))

/-- `argmin over j in Q of (NODE[j].freq, j)`, for the non-empty queue `x :: xs`. -/
def leastOf (x : Queued) : List Queued → Queued
  | [] => x
  | y :: ys => leastOf (if y.before x then y else x) ys

/-- Removes the least entry of the queue. -/
def takeLeast : List Queued → Option (Queued × List Queued)
  | [] => none
  | x :: xs => some (leastOf x xs, (x :: xs).erase (leastOf x xs))

/-- A leaf of symbol `b` with count `c` (40_frequency_tree.md rule R104). -/
def leafNode (b : Byte) (c : Count) : Node :=
  { leaf := true, sym := b, freq := c.setWidth 40, left := 0, right := 0 }

/-- An internal node over `x`, removed first and so on the left, and `y` (40_frequency_tree.md rules R106, R107). -/
def joinNode (x y : Queued) : Node :=
  { leaf := false, sym := 0, freq := x.freq + y.freq,
    left := BitVec.ofNat 9 x.idx, right := BitVec.ofNat 9 y.idx }

/-- The leaves: one for each symbol with a non-zero count, in ascending order (40_frequency_tree.md rule R108). -/
def leavesOf (freq : Table Count) : List Node :=
  (allSymbols.filter fun b => decide (freq.at b ≠ 0)).map fun b => leafNode b (freq.at b)

/-- The queue that holds the first nodes of the arena, `Q <- [0, 1, …, n−1]`. -/
def queueOf (nodes : List Node) : List Queued :=
  (List.range nodes.length).map fun k => { freq := (nodeAt nodes k).freq, idx := k }

/-- The merge loop of 40_frequency_tree.md rule R104, at most `fuel` times: it takes the two least entries of the
queue, appends their parent to the arena and queues it. It gives the arena and the queue that is left. -/
def mergeLoop : Nat → List Queued → List Node → List Node × List Queued
  | 0, q, nodes => (nodes, q)
  | fuel + 1, q, nodes =>
    match takeLeast q with
    | none => (nodes, q)
    | some (x, q1) =>
      match takeLeast q1 with
      | none => (nodes, q)
      | some (y, q2) =>
        mergeLoop fuel (q2 ++ [{ freq := x.freq + y.freq, idx := nodes.length }]) (nodes ++ [joinNode x y])

/-- The tree of a table: the arena and what is left of the queue. Each merge leaves one entry less in the queue, so
as many merges as there are leaves are enough. -/
def treeOf (freq : Table Count) : List Node × List Queued :=
  mergeLoop (leavesOf freq).length (queueOf (leavesOf freq)) (leavesOf freq)

/-- The index of the single element of Q at the end. -/
def rootOf (q : List Queued) : Nat :=
  match q with
  | [] => 0
  | x :: _ => x.idx

/-- The tree invalidated, as BUILD does first (40_frequency_tree.md rule R104). -/
def dropTree (s : State) : State :=
  { s with treeValid := false, nLeaf := 0, nNode := 0, root := 0, nodes := [] }

/-- BUILD (40_frequency_tree.md rule R104). -/
def execBuild (s : State) : Host.Outcome State Fault Refusal :=
  if leavesOf s.freq = [] then .next (raise emptyInputError (dropTree s))
  else
    .next (finish { s with
      treeValid := true
      nodes     := (treeOf s.freq).1
      root      := BitVec.ofNat 9 (rootOf (treeOf s.freq).2)
      nLeaf     := BitVec.ofNat 9 (leavesOf s.freq).length
      nNode     := BitVec.ofNat 10 (treeOf s.freq).1.length })

end Sys2Proof.Machine
end

