-- ==== Sys2Proof/Machine/Unpack.lean ====
section
/-! DEFINITION. The BitstreamUnpacker: UNPACK (43_unpack.md rules R161 to R169). -/

namespace Sys2Proof.Machine

/-- The first pair (a, b), in ascending order of a and then of b, of which one code is a prefix of the other
(43_unpack.md rule R162). -/
def ambiguousPair : List (Byte × BitString) → Option (Byte × Byte)
  | [] => none
  | (a, ca) :: rest =>
    match rest.find? fun e => prefixOf ca e.2 || prefixOf e.2 ca with
    | some (b, _) => some (a, b)
    | none => ambiguousPair rest

/-- M, the longest code length (43_unpack.md rule R161). -/
def longestCode (cb : List (Byte × BitString)) : Nat :=
  cb.foldl (fun m e => max m e.2.length) 0

/-- The symbol whose code is the candidate, at most one in a prefix-free codebook (43_unpack.md rule R164). -/
def matchCode (cb : List (Byte × BitString)) (cand : BitString) : Option Byte :=
  (cb.find? fun e => decide (e.2 = cand)).map Prod.fst

/-- OUTPUT_OVERFLOW of UNPACK (43_unpack.md rule R166). -/
def unpackOverflow (start outSize : Nat) : CmdError :=
  { code := .outputOverflow, pos := BitVec.ofNat 32 start, aux := BitVec.ofNat 32 outSize }

/-- CORRUPT_BITSTREAM (43_unpack.md rule R165). -/
def corruptError (start count : Nat) : CmdError :=
  { code := .corruptBitstream, pos := BitVec.ofNat 32 start, aux := BitVec.ofNat 32 count }

/-- The decoding loop of 43_unpack.md rule R161 over the stream bits from index `t` on, with the candidate `cand`
that began at index `start` and `count` bytes decoded: the bytes decoded from here, or the first error. -/
def decodeFrom (cb : List (Byte × BitString)) (outSize : Nat) :
    Nat → BitString → Nat → Nat → BitString → Except CmdError (List Byte)
  | _, cand, start, count, [] =>
    if cand = [] then .ok [] else .error (corruptError start count)
  | t, cand, start, count, b :: rest =>
    match matchCode cb (cand ++ [b]) with
    | some sym =>
      if count = outSize then .error (unpackOverflow start outSize)
      else
        match decodeFrom cb outSize (t + 1) [] (t + 1) (count + 1) rest with
        | .ok bytes => .ok (sym :: bytes)
        | .error e => .error e
    | none =>
      if (cand ++ [b]).length = longestCode cb then .error (corruptError start count)
      else decodeFrom cb outSize (t + 1) (cand ++ [b]) start count rest

/-- The unpadded stream: the first 8·IN_LEN − PAD bits of the input (43_unpack.md rule R163). -/
def unpaddedStream (s : State) : BitString :=
  (streamBits (inputBytes s)).take (8 * s.inLen.toNat - s.pad.toNat)

/-- The bytes UNPACK decodes, or its error in the order of 60_exceptions.md rule R181. -/
def unpackBytes (s : State) : Except CmdError (List Byte) :=
  match inputError s with
  | some e => .error e
  | none =>
    if s.pad.toNat > 7 then .error { code := .badParameter, pos := 0x018, aux := s.pad }
    else if codebookOf s = [] then .error { code := .codebookIncomplete, pos := 0, aux := 0 }
    else
      match ambiguousPair (codebookOf s) with
      | some (a, b) => .error { code := .ambiguousCodebook, pos := a.setWidth 32, aux := b.setWidth 32 }
      | none => decodeFrom (codebookOf s) s.params.outSize 0 [] 0 0 (unpaddedStream s)

/-- UNPACK (43_unpack.md rule R161). -/
def execUnpack (s : State) : Host.Outcome State Fault Refusal :=
  match unpackBytes s with
  | .error e => .next (raiseNoOutput e s)
  | .ok bytes =>
    .next (finish { s with
      outMem := s.outMem.writeBytes 0 bytes
      outLen := BitVec.ofNat 32 bytes.length })

end Sys2Proof.Machine
end

