-- ==== Sys2Proof/Machine/Turn.lean ====
section
/-! DEFINITION. The moves of the two agents (00_scope.md rule R9): the Core's command step, and the next move of the
machine with its surroundings (20_memory.md rule R71; 60_exceptions.md rule R191). -/

namespace Sys2Proof.Machine

/-- The Core's command step (00_scope.md rule R9; 30_encoding.md rule R85): it decodes the pending word and runs the
command, or completes with ILLEGAL_COMMAND(0, w). While BUSY = 0 the Core has no step. -/
def commandStep (s : State) : Host.Outcome State Fault Refusal :=
  match s.pending with
  | none => .next s
  | some w =>
    match decode w with
    | .command i => exec i s
    | .illegal _ => .next (raise { code := .illegalCommand, pos := 0, aux := w } s)

/-- The state in which the first input has been taken off the list and a draw number has been used. -/
def takeTurn (s : State) : State :=
  { s with inputs := s.inputs.tail, draws := s.draws + 1 }

/-- The next move: the first input, or, when there is none, the Core's turn. An idle machine without inputs waits
(70_reset_and_hazards.md rule R210; 00_scope.md rule R11 for the turn of a busy Core). -/
def nextMove (s : State) : Host.Outcome State Fault Refusal :=
  match s.inputs with
  | [] => if s.busy then commandStep (takeTurn s) else .next s
  | .host a :: _ => hostAccess a (takeTurn s)
  | .coreTurn :: _ => commandStep (takeTurn s)
  | .hardReset :: _ => .next (hardReset (takeTurn s))

/-- The state in which `w` has just been accepted and the Core's turn comes next. -/
def acceptNow (w : Word) (s : State) : State :=
  { accept w s with inputs := .coreTurn :: s.inputs }

end Sys2Proof.Machine
end

