-- ==== Sys2Proof/Machine/Step.lean ====
section
/-! DEFINITION. One step of the machine, and the placing of a command where the next step runs it. -/

namespace Sys2Proof.Machine

/-- One step: the next move of the Host, of the Core or of the platform (Machine/Turn.lean). -/
def step (s : State) : Host.Outcome State Fault Refusal := nextMove s

/-- HCC fetches nothing (30_encoding.md rule R81): a command comes from a CMD write. So the word is accepted
(30_encoding.md rule R83) and the Core's turn is put first, and the very next step runs it. Log entry 1. -/
def State.withFetchWord (s : State) (nbits w : Nat) : State := acceptNow (tableWord nbits w) s

end Sys2Proof.Machine
end

