-- ==== Sys2Proof/Machine/HostNotation.lean ====
section
/-! DEFINITION. The notation of host programs and its pseudo-instructions (30_encoding.md rule R89), the placement of
the HCC space in the host's address map (20_memory.md rule R60), and the conversion of the codebook record to and from
register accesses (30_encoding.md rule R90). -/

namespace Sys2Proof.Machine

/-- The HCC offset that a host address reaches: `A − HCC_BASE`, where that is an offset of 32 bits (20_memory.md rule
R60). -/
def offsetOf (p : Params) (addr : Nat) : Option Word :=
  if p.hccBase ≤ addr ∧ addr - p.hccBase < 2 ^ 32 then some (BitVec.ofNat 32 (addr - p.hccBase)) else none

/-- `IN+a` (30_encoding.md rule R89). -/
def inPlus (a : Nat) : Word := BitVec.ofNat 32 (inBase + a)

/-- `OUT+a` (30_encoding.md rule R89). -/
def outPlus (a : Nat) : Word := BitVec.ofNat 32 (outBase + a)

/-- `CMD m` (30_encoding.md rule R89). -/
def cmdAccess (i : Instr) : HostAccess := .wr32 0x00C (encode i)

/-- The poll of `WAIT`: `RD32 STATUS` (30_encoding.md rule R89). -/
def pollAccess : HostAccess := .rd32 0x008

/-- `WAIT` as the moves of one schedule: the host polls `k` times, the Core takes its turn, and the next poll reads
BUSY = 0 and ends the wait (30_encoding.md rule R89; 00_scope.md rule R11). -/
def waitMoves (k : Nat) : List Input :=
  List.replicate k (.host pollAccess) ++ [.coreTurn, .host pollAccess]

/-- `CLRDONE` (30_encoding.md rule R89). -/
def clrDone : HostAccess := .wr32 0x008 0x00000002

/-- `LDIN` (30_encoding.md rule R89). -/
def ldin (bytes : List Byte) : List HostAccess :=
  bytes.zipIdx.map (fun e => .wr8 (inPlus e.2) e.1) ++ [.wr32 0x010 (BitVec.ofNat 32 bytes.length)]

/-- The offset of CBCODEk (10_state.md rule R47). -/
def codeWordOffset (k : Nat) : Word := BitVec.ofNat 32 (0x040 + 4 * k)

/-- Word `k` of a code's value: `(val(c) >> 32k) & 0xFFFF_FFFF` (30_encoding.md rules R88, R89). -/
def codeWord (c : BitString) (k : Nat) : Word := BitVec.ofNat 32 (valOf c >>> (32 * k))

/-- `LDCB s, "c"` (30_encoding.md rule R89). -/
def ldcb (b : Byte) (c : BitString) : List HostAccess :=
  .wr32 0x038 (b.setWidth 32) :: .wr32 0x03C (BitVec.ofNat 32 c.length) ::
    (List.range 8).map fun k => .wr32 (codeWordOffset k) (codeWord c k)

/-- `RDCB s` (30_encoding.md rule R89). -/
def rdcb (b : Byte) : List HostAccess :=
  .wr32 0x038 (b.setWidth 32) :: .rd32 0x03C :: (List.range 8).map fun k => .rd32 (codeWordOffset k)

/-- `LDF s, v` (30_encoding.md rule R89). -/
def ldf (b : Byte) (v : Word) : List HostAccess :=
  [.wr32 0x030 (b.setWidth 32), .wr32 0x034 v]

/-- `RDNODE k` (30_encoding.md rule R89). -/
def rdnode (k : NodeIndex) : List HostAccess :=
  [.wr32 0x060 (k.setWidth 32), .rd32 0x064, .rd32 0x068, .rd32 0x06C]

/-- The host performs accesses one after the other. -/
def moves (accesses : List HostAccess) : List Input := accesses.map .host

/-- The accesses that load one entry of a record: `LDCB int(key), "c"` (30_encoding.md rule R90). -/
def entryAccesses (e : List Char × List Char) : List HostAccess :=
  match decimalByte e.1, codeText e.2 with
  | some b, some c => ldcb b c
  | _, _ => []

/-- The import of a record: CBCLR, then LDCB for each entry, then PAD. The host refuses a record that HCC cannot
represent before it writes anything (30_encoding.md rule R90). -/
def importRecord (r : CodebookRecord) : Option (List Input) :=
  if r.wf then
    some (.host (cmdAccess .cbclr) :: waitMoves 0 ++ moves (r.entries.flatMap entryAccesses) ++
      [.host (.wr32 0x018 (BitVec.ofNat 32 r.padding.toNat))])
  else none

/-- The text of a code (30_encoding.md rule R90). -/
def textOfCode (c : BitString) : List Char := c.map fun b => if b then '1' else '0'

/-- The export of the codebook and of PAD: for each coded symbol its decimal form and its code (30_encoding.md rule
R90). -/
def exportRecord (s : State) : CodebookRecord :=
  { entries := (codebookOf s).map fun e => (Nat.toDigits 10 e.1.toNat, textOfCode e.2)
    padding := s.pad.toNat }

end Sys2Proof.Machine
end

