-- ==== Sys2Proof/Safety.lean ====
section
/-! DEFINITION. What a safe state and a safe run are, and the terms in which the claims are stated: the invariants
that every step keeps, the shape of the tree (10_state.md rule R44), properties of a codebook (41_codebook.md rules
R125, R126), the accesses the bus allows (20_memory.md rules R62 to R66), and the reference decoder of 43_unpack.md
rule R165. -/

namespace Sys2Proof.Machine

/-! ### Invariants -/

/-- The parameters are legal (00_scope.md rule R7). -/
def State.paramsLegal (s : State) : Prop := s.params.wf = true

/-- Every count fits CNT_W bits (10_state.md rule R43). -/
def State.countsFit (s : State) : Prop := ∀ b : Byte, (s.freq.at b).toNat < 2 ^ s.params.cntW

/-- Both memories are in canonical form and inside their sizes (20_memory.md rule R61). -/
def State.memoriesWf (s : State) : Prop :=
  s.inMem.wf s.params.inSize = true ∧ s.outMem.wf s.params.outSize = true

/-- OUT_LEN never exceeds OUT_SIZE (10_state.md rule R35). -/
def State.outLenFits (s : State) : Prop := s.outLen.toNat ≤ s.params.outSize

/-- While a command runs: DONE is 0, ERR, ERRPOS and ERRAUX are 0, and LASTOP is the opcode field of the accepted
word (30_encoding.md rule R83; 10_state.md rules R28, R31, R32). -/
def State.handshakeOk (s : State) : Prop :=
  ∀ w, s.pending = some w →
    s.done = false ∧ s.err = .noError ∧ s.errPos = 0 ∧ s.errAux = 0 ∧ s.lastOp = opField w

/-! ### The tree -/

/-- Node `j` is a child of node `k` (10_state.md rule R44). -/
def isChild (nodes : List Node) (j k : Nat) : Prop :=
  (nodeAt nodes k).left.toNat = j ∨ (nodeAt nodes k).right.toNat = j

/-- The properties that 10_state.md rule R44 lists for a tree of `n` leaves held in `nodes`; the root is the last
node (10_state.md rule R41). -/
structure TreeShape (nodes : List Node) (n : Nat) : Prop where
  leafCount   : 1 ≤ n ∧ n ≤ 256
  nodeCount   : nodes.length = 2 * n - 1
  leavesFirst : ∀ k < n, (nodeAt nodes k).leaf = true
  symsRise    : ∀ k < n, ∀ j < k, (nodeAt nodes j).sym.toNat < (nodeAt nodes k).sym.toNat
  joinsAfter  : ∀ k < 2 * n - 1, n ≤ k → (nodeAt nodes k).leaf = false
  childBelow  : ∀ k < 2 * n - 1, n ≤ k → (nodeAt nodes k).left.toNat < k ∧ (nodeAt nodes k).right.toNat < k ∧
    (nodeAt nodes k).left ≠ (nodeAt nodes k).right
  oneParent   : ∀ j < 2 * n - 2, ∃ k < 2 * n - 1, n ≤ k ∧ isChild nodes j k ∧
    ∀ m < 2 * n - 1, n ≤ m → isChild nodes j m → m = k
  exactSum    : ∀ k < 2 * n - 1, n ≤ k → (nodeAt nodes k).freq.toNat =
    (nodeAt nodes (nodeAt nodes k).left.toNat).freq.toNat + (nodeAt nodes (nodeAt nodes k).right.toNat).freq.toNat

/-- TREE_VALID tells whether NODE, NLEAF, NNODE and ROOT hold a tree; without one the three registers are 0
(10_state.md rules R30, R39, R40, R41, R44). -/
def State.treeWf (s : State) : Prop :=
  (s.treeValid = true →
    TreeShape s.nodes s.nLeaf.toNat ∧ s.nNode.toNat = 2 * s.nLeaf.toNat - 1 ∧
      s.root.toNat = 2 * s.nLeaf.toNat - 2) ∧
  (s.treeValid = false → s.nLeaf = 0 ∧ s.nNode = 0 ∧ s.root = 0 ∧ s.nodes = [])

/-- The invariant of the whole machine: what every step keeps. -/
structure State.Inv (s : State) : Prop where
  paramsLegal : s.paramsLegal
  countsFit   : s.countsFit
  memoriesWf  : s.memoriesWf
  outLenFits  : s.outLenFits
  handshakeOk : s.handshakeOk
  treeWf      : s.treeWf

/-- The distinct symbols of a table, ascending (40_frequency_tree.md rule R102). -/
def distinctSymbols (freq : Table Count) : List Byte :=
  allSymbols.filter fun b => decide (freq.at b ≠ 0)

/-- The number of distinct symbols. -/
def distinctCount (freq : Table Count) : Nat := (distinctSymbols freq).length

/-- The nodes that are queued when node `k` is made: those below `k` that no earlier internal node has taken
(40_frequency_tree.md rule R104, the set Q). -/
def queuedAt (nodes : List Node) (n k j : Nat) : Prop :=
  j < k ∧ ∀ m < k, n ≤ m → ¬ isChild nodes j m

/-- Node `i` is removed before node `j`: less frequency or, at equal frequency, less index (40_frequency_tree.md rule
R105). -/
def removedBefore (nodes : List Node) (i j : Nat) : Prop :=
  (nodeAt nodes i).freq.toNat < (nodeAt nodes j).freq.toNat ∨
    ((nodeAt nodes i).freq.toNat = (nodeAt nodes j).freq.toNat ∧ i < j)

/-- The node reached from node `k` along a path, a 0 to the left and a 1 to the right; none if the path goes on
below a leaf (41_codebook.md rule R121). -/
def follow (nodes : List Node) (k : Nat) : BitString → Option Nat
  | [] => some k
  | b :: path =>
    if (nodeAt nodes k).leaf then none
    else if b then follow nodes (nodeAt nodes k).right.toNat path
    else follow nodes (nodeAt nodes k).left.toNat path

/-! ### The codebook -/

/-- No code of the codebook is a prefix of another symbol's code (41_codebook.md rule R125; 43_unpack.md rule R162:
equal codes count). -/
def State.prefixFree (s : State) : Prop :=
  ∀ a b : Byte, isCoded s a = true → isCoded s b = true → a ≠ b → ¬ (codeOf s a <+: codeOf s b)

/-- The pair (a, b) breaks prefix-freedom (43_unpack.md rule R161). -/
def clash (s : State) (a b : Byte) : Prop :=
  isCoded s a = true ∧ isCoded s b = true ∧ a.toNat < b.toNat ∧
    (codeOf s a <+: codeOf s b ∨ codeOf s b <+: codeOf s a)

/-- The codes of the bytes, one after the other (42_pack.md rule R141). -/
def encoded (s : State) (bytes : List Byte) : BitString := bytes.flatMap (codeOf s)

/-- The sum over the coded symbols of 2^(255 − CB_LEN), which is 2^255 when the sum of 2^(−CB_LEN) is 1
(41_codebook.md rule R126). -/
def State.kraftSum (s : State) : Nat :=
  ((codedSymbols s).map fun b => 2 ^ (255 - (s.cbLen.at b).toNat)).sum

/-! ### The reference decoder -/

/-- The source's decoder, which finds a corrupt stream only at its end (43_unpack.md rule R165): `decodeFrom` without
the check of the candidate's length. -/
def decodeAtEnd (cb : List (Byte × BitString)) (outSize : Nat) :
    Nat → BitString → Nat → Nat → BitString → Except CmdError (List Byte)
  | _, cand, start, count, [] =>
    if cand = [] then .ok [] else .error (corruptError start count)
  | t, cand, start, count, b :: rest =>
    match matchCode cb (cand ++ [b]) with
    | some sym =>
      if count = outSize then .error (unpackOverflow start outSize)
      else
        match decodeAtEnd cb outSize (t + 1) [] (t + 1) (count + 1) rest with
        | .ok bytes => .ok (sym :: bytes)
        | .error e => .error e
    | none => decodeAtEnd cb outSize (t + 1) (cand ++ [b]) start count rest

/-! ### Accesses and runs -/

/-- The offset an access names. -/
def offsetOfAccess : HostAccess → Word
  | .rd8 off => off
  | .rd32 off => off
  | .wr8 off _ => off
  | .wr32 off _ => off
  | .otherWidth off _ => off

/-- The width of an access in bits. -/
def widthOfAccess : HostAccess → Nat
  | .rd8 _ => 8
  | .rd32 _ => 32
  | .wr8 _ _ => 8
  | .wr32 _ _ => 32
  | .otherWidth _ bits => bits

/-- An access that writes. -/
def isWrite : HostAccess → Bool
  | .rd8 _ => false
  | .rd32 _ => false
  | .wr8 _ _ => true
  | .wr32 _ _ => true
  | .otherWidth _ _ => false

/-- The `n` bytes from offset `off` on lie in the window of `size` bytes at `base`. -/
def inWindow (base size off n : Nat) : Prop := base ≤ off ∧ off + n ≤ base + size

/-- The accesses that get no bus error: 8 bits wide in a memory window, or 32 bits wide and aligned in the register
page or in a memory window (20_memory.md rules R60, R62 to R66). -/
def busAllows (p : Params) (a : HostAccess) : Prop :=
  match a with
  | .rd8 off | .wr8 off _ =>
    inWindow 0x01000000 p.inSize off.toNat 1 ∨ inWindow 0x02000000 p.outSize off.toNat 1
  | .rd32 off | .wr32 off _ =>
    off.toNat % 4 = 0 ∧ (off.toNat < 0x1000 ∨ inWindow 0x01000000 p.inSize off.toNat 4 ∨
      inWindow 0x02000000 p.outSize off.toNat 4)
  | .otherWidth _ _ => False

/-- The writes that a host may make while a command runs: to CTRL, STATUS and CMD (70_reset_and_hazards.md rule R216).
-/
def writableWhileBusy (off : Word) : Prop := off = 0x004 ∨ off = 0x008 ∨ off = 0x00C

/-- What a 32-bit register reads after the host has written `v` to it, for the registers that keep what is written
(10_state.md rules R25, R34, R36, R42, R45, R47); none for every other offset. -/
def writtenImage (p : Params) (off : Nat) (v : Word) : Option Word :=
  match off with
  | 0x004 => some (v &&& 0x00000001)
  | 0x010 => some v
  | 0x018 => some v
  | 0x030 => some (v &&& 0x000000FF)
  | 0x034 => some (BitVec.ofNat 32 (v.toNat % 2 ^ p.cntW))
  | 0x038 => some (v &&& 0x000000FF)
  | 0x03C => some (v &&& 0x000000FF)
  | 0x040 => some v
  | 0x044 => some v
  | 0x048 => some v
  | 0x04C => some v
  | 0x050 => some v
  | 0x054 => some v
  | 0x058 => some v
  | 0x05C => some (v &&& 0x7FFFFFFF)
  | 0x060 => some (v &&& 0x000001FF)
  | _ => none

/-- The offsets whose writes have an effect: the registers that keep what is written, STATUS and CMD (10_state.md rule
R20). -/
def takesWrites (off : Nat) : Prop :=
  off = 0x008 ∨ off = 0x00C ∨ (writtenImage Params.default off 0).isSome = true

/-- It is the Core's turn: the inputs are used up or put it next. -/
def coreNext (s : State) : Prop := s.inputs = [] ∨ ∃ rest, s.inputs = .coreTurn :: rest

/-- The next input is the host access `a`. -/
def hostNext (s : State) (a : HostAccess) : Prop := ∃ rest, s.inputs = .host a :: rest

/-- A move that is a host access. -/
def isHostMove : Input → Bool
  | .host _ => true
  | .coreTurn => false
  | .hardReset => false

/-- The host has executed its last access, and with it every read of a result that it reports: no host access is to
come, whatever turns of the Core and resets are (70_reset_and_hazards.md rule R221). -/
def State.hostDone (s : State) : Prop := ∀ m ∈ s.inputs, isHostMove m = false

/-- The three conditions for the end of a host program's run hold: the host has executed its last access and read every
result it reports, and the last command it issued has completed (70_reset_and_hazards.md rule R221). -/
def State.runEnded (s : State) : Prop := s.hostDone ∧ s.busy = false

/-- The run from `s` ends after `k` steps with the final state `t`: this is the first point at which it has ended
(70_reset_and_hazards.md rule R221). -/
def runEndsWith (k : Nat) (s t : State) : Prop :=
  Host.Core.run Sys2Proof.core k s = .next t ∧ t.runEnded ∧
    ∀ j < k, ∀ u : State, Host.Core.run Sys2Proof.core j s = .next u → ¬ u.runEnded

/-- A step is safe when it stops neither with a bus error nor for a breach of host duty. -/
def safeStep (s : State) : Prop := ∃ t, step s = .next t

/-- A run of `k` steps from `s` is safe when it reaches a state. -/
def safeRun (k : Nat) (s : State) : Prop :=
  match k with
  | 0 => True
  | k + 1 => ∃ t, step s = .next t ∧ safeRun k t

end Sys2Proof.Machine
end

