-- ==== Sys2Proof/Certificates/Slice0/Obligations.lean ====
section
/-! DEFINITION. The statements about the machine, for the provers. -/

open Sys2Proof Sys2Proof.Machine

/-! ### Encoding and the step -/

/-- 30_encoding.md rule R82: the opcode map, read as what each of the 2^32 words decodes to. -/
def Obligations.DecodeFollowsOpcodeMap : Prop :=
  ∀ w : Word,
    (decodeInstr w = some .freq ↔ w = 0x00000001) ∧
    (decodeInstr w = some .build ↔ w = 0x00000002) ∧
    (decodeInstr w = some .gencode ↔ w = 0x00000003) ∧
    (decodeInstr w = some .pack ↔ w = 0x00000004) ∧
    (decodeInstr w = some .unpack ↔ w = 0x00000005) ∧
    (decodeInstr w = some .fclr ↔ w = 0x00000006) ∧
    (decodeInstr w = some .cbclr ↔ w = 0x00000007) ∧
    (decodeInstr w = none ↔ w = 0 ∨ 8 ≤ w.toNat)

/-- 30_encoding.md rules R80 and R82: decode and encode agree, in both directions, and the words that decode are the
well-formed ones. -/
def Obligations.DecodeAndEncodeAgree : Prop :=
  (∀ i : Instr, decode (encode i) = .command i) ∧
  (∀ (w : Word) (i : Instr), decode w = .command i → encode i = w) ∧
  (∀ w : Word, commandWordWf w = true ↔ ∃ i, decode w = .command i) ∧
  (∀ (nbits w : Nat) (i : Instr), decodeTableWord nbits w = some i → w % 2 ^ nbits % 2 ^ 32 = (encode i).toNat)

/-- 30_encoding.md rule R85: the command step runs the command of a defined word, and a word that is none of the seven
completes with ILLEGAL_COMMAND(0, w), whatever else holds, and changes no state other than the completion registers. -/
def Obligations.CommandStepDecodesThePendingWord : Prop :=
  ∀ (s : State) (w : Word), s.pending = some w →
    (w = 0x00000001 → commandStep s = exec .freq s) ∧
    (w = 0x00000002 → commandStep s = exec .build s) ∧
    (w = 0x00000003 → commandStep s = exec .gencode s) ∧
    (w = 0x00000004 → commandStep s = exec .pack s) ∧
    (w = 0x00000005 → commandStep s = exec .unpack s) ∧
    (w = 0x00000006 → commandStep s = exec .fclr s) ∧
    (w = 0x00000007 → commandStep s = exec .cbclr s) ∧
    ((w.extractLsb' 4 28 ≠ 0 ∨ w.extractLsb' 0 4 = 0 ∨ 8 ≤ (w.extractLsb' 0 4).toNat) →
      commandStep s = .next { s with
        err := .illegalCommand, errPos := 0, errAux := w, pending := none, done := true })

/-- 00_scope.md rule R9 and 30_encoding.md rule R85: at the Core's turn a step is exec of the command that the pending
word decodes to, a pending word that decodes to none completes with ILLEGAL_COMMAND(0, w), and in both cases the step is
the command step; a Core turn while idle does nothing; a step with a host access next is that access; a hardware reset is
one step; an idle machine waits. The list of moves and the draw number, which a step advances, are the model's own (log
entries 3 and 4). A word placed with withFetchWord is accepted and runs in the very next step (log entry 1). -/
def Obligations.StepRunsTheDecodedCommand : Prop :=
  (∀ (s : State) (w : Word) (i : Instr), s.pending = some w → decode w = .command i → coreNext s →
    step s = exec i { s with inputs := s.inputs.tail, draws := s.draws + 1 }) ∧
  (∀ s : State, coreNext s → s.busy = true →
    step s = commandStep { s with inputs := s.inputs.tail, draws := s.draws + 1 }) ∧
  (∀ (s : State) (w : Word), s.pending = some w → decodeInstr w = none → coreNext s →
    step s = .next { s with
      inputs := s.inputs.tail, draws := s.draws + 1,
      err := .illegalCommand, errPos := 0, errAux := w, pending := none, done := true }) ∧
  (∀ (s : State) (rest : List Input), s.inputs = .coreTurn :: rest → s.busy = false →
    step s = .next { s with inputs := rest, draws := s.draws + 1 }) ∧
  (∀ (s : State) (a : HostAccess) (rest : List Input), s.inputs = .host a :: rest →
    step s = hostAccess a { s with inputs := rest, draws := s.draws + 1 }) ∧
  (∀ (s : State) (rest : List Input), s.inputs = .hardReset :: rest →
    step s = .next (hardReset { s with inputs := rest, draws := s.draws + 1 })) ∧
  (∀ s : State, s.inputs = [] → s.busy = false → step s = .next s) ∧
  (∀ (s : State) (w : Word) (i : Instr), decode w = .command i →
    step (s.withFetchWord 32 w.toNat) = exec i { accept w s with draws := s.draws + 1 })

/-! ### Acceptance, completion and the interrupt -/

/-- 30_encoding.md rules R83 and R84: a CMD write in the idle state is accepted, with exactly the effect of rule R83; one
while a command runs is dropped: OVR is set and nothing else changes. -/
def Obligations.CommandWriteIsAcceptedOrDropped : Prop :=
  (∀ (s : State) (w : Word), s.busy = false →
    hostAccess (.wr32 0x00C w) s = .next { s with
      done := false, err := .noError, lastOp := w.extractLsb' 0 4, errPos := 0, errAux := 0, pending := some w }) ∧
  (∀ (s : State) (w : Word), s.busy = true →
    hostAccess (.wr32 0x00C w) s = .next { s with ovr := true })

/-- 60_exceptions.md rules R182, R183 and 30_encoding.md rule R87: every command completes from every state. BUSY is 0
and DONE is 1 after it, the interrupt level is IE (R188), a successful one leaves ERRPOS = ERRAUX = 0 (10_state.md rules
R37, R38). No command changes IN_MEM, IN_LEN, a selector, CTRL.IE, OVR, LASTOP, the parameters or the model's own fields,
and each writes only the registers, tables and memories that rule R87 lists for it. -/
def Obligations.EveryCommandCompletesAndWritesItsOperands : Prop :=
  ∀ (i : Instr) (s : State), ∃ t, exec i s = .next t ∧
    t.busy = false ∧ t.done = true ∧ t.irq = s.ie ∧
    (t.err = .noError → t.errPos = 0 ∧ t.errAux = 0) ∧
    t.inMem = s.inMem ∧ t.inLen = s.inLen ∧ t.fSel = s.fSel ∧ t.cbSel = s.cbSel ∧ t.nSel = s.nSel ∧
    t.ie = s.ie ∧ t.ovr = s.ovr ∧ t.lastOp = s.lastOp ∧ t.params = s.params ∧
    t.reply = s.reply ∧ t.draws = s.draws ∧ t.inputs = s.inputs ∧
    (i ≠ .freq → i ≠ .fclr → t.freq = s.freq) ∧
    (i ≠ .build → t.treeValid = s.treeValid ∧ t.nodes = s.nodes ∧ t.nLeaf = s.nLeaf ∧ t.nNode = s.nNode ∧
      t.root = s.root) ∧
    (i ≠ .gencode → i ≠ .cbclr → t.cbLen = s.cbLen ∧ t.cbCode = s.cbCode) ∧
    (i ≠ .pack → t.pad = s.pad) ∧
    (i ≠ .pack → i ≠ .unpack → t.outMem = s.outMem ∧ t.outLen = s.outLen)

/-- 60_exceptions.md rule R180, its columns "name" and "raised by": which errors each command can report. The column
"code" is stated by StatusFieldsAndTheirClearing. -/
def Obligations.ErrorsEachCommandCanReport : Prop :=
  ∀ (s t : State),
    (exec .freq s = .next t → t.err ∈ [.noError, .emptyInput, .badParameter]) ∧
    (exec .build s = .next t → t.err ∈ [.noError, .emptyInput]) ∧
    (exec .gencode s = .next t → t.err ∈ [.noError, .noTree]) ∧
    (exec .pack s = .next t →
      t.err ∈ [.noError, .emptyInput, .badParameter, .codebookIncomplete, .outputOverflow]) ∧
    (exec .unpack s = .next t →
      t.err ∈ [.noError, .emptyInput, .badParameter, .codebookIncomplete, .ambiguousCodebook, .corruptBitstream,
        .outputOverflow]) ∧
    (exec .fclr s = .next t → t.err = .noError) ∧
    (exec .cbclr s = .next t → t.err = .noError)

/-- 60_exceptions.md rule R188: the level of IRQ, when it rises, when it falls, and that a dropped command raises
none. -/
def Obligations.InterruptLevelFollowsDoneAndEnable : Prop :=
  (∀ s : State, s.irq = (s.done && s.ie)) ∧
  (∀ (s t : State) (w : Word), s.pending = some w → commandStep s = .next t → t.irq = s.ie) ∧
  (∀ s : State, s.done = true → ∃ t, hostAccess (.wr32 0x004 1) s = .next t ∧ t.irq = true) ∧
  (∀ (s : State) (v : Word), v.getLsbD 1 = true →
    ∃ t, hostAccess (.wr32 0x008 v) s = .next t ∧ t.irq = false) ∧
  (∀ (s : State) (w : Word), s.busy = false → ∃ t, hostAccess (.wr32 0x00C w) s = .next t ∧ t.irq = false) ∧
  (∀ (s : State) (v : Word), v.getLsbD 1 = true ∨ v.getLsbD 0 = false →
    ∃ t, hostAccess (.wr32 0x004 v) s = .next t ∧ t.irq = false) ∧
  (∀ s : State, (hardReset s).irq = false) ∧
  (∀ (s : State) (w : Word), s.busy = true → ∃ t, hostAccess (.wr32 0x00C w) s = .next t ∧ t.irq = s.irq)

/-- 10_state.md rules R27, R28, R29: of all the steps of the machine, only the completion of a running command sets
DONE, only a CMD write in the idle state sets BUSY, and only a CMD write that is dropped sets OVR. -/
def Obligations.StatusBitsAreSetOnlyByTheirEvents : Prop :=
  ∀ s t : State, step s = .next t →
    (s.done = false → t.done = true → coreNext s ∧ s.busy = true ∧ t.busy = false) ∧
    (s.busy = false → t.busy = true → ∃ w, hostNext s (.wr32 0x00C w) ∧ t.pending = some w) ∧
    (s.ovr = false → t.ovr = true → s.busy = true ∧ ∃ w, hostNext s (.wr32 0x00C w))

/-- 10_state.md rule R30 (and R39 to R41, R44): TREE_VALID, NLEAF, NNODE, ROOT and NODE change in a step only when BUILD
runs in it or it is a reset. -/
def Obligations.OnlyBuildAndResetChangeTheTree : Prop :=
  ∀ s t : State, step s = .next t →
    (t.treeValid, t.nLeaf, t.nNode, t.root, t.nodes) ≠ (s.treeValid, s.nLeaf, s.nNode, s.root, s.nodes) →
    (coreNext s ∧ s.pending = some 0x00000002) ∨
    (∃ rest, s.inputs = .hardReset :: rest) ∨
    (∃ v : Word, v.getLsbD 1 = true ∧ hostNext s (.wr32 0x004 v))

/-- 60_exceptions.md rule R191: both orders of a host access and the Core's command step are admitted. A CMD write
ordered before the completion is dropped, one ordered after it is accepted, and a soft reset ordered before the
completion aborts the command. -/
def Obligations.BothOrdersOfAccessAndCompletion : Prop :=
  (∀ (s : State) (w v : Word) (rest : List Input), s.pending = some w →
    s.inputs = .host (.wr32 0x00C v) :: .coreTurn :: rest →
    ∃ t, Host.Core.run Sys2Proof.core 2 s = .next t ∧ t.busy = false ∧ t.done = true ∧ t.ovr = true ∧
      t.lastOp = s.lastOp) ∧
  (∀ (s : State) (w v : Word) (rest : List Input), s.pending = some w →
    s.inputs = .coreTurn :: .host (.wr32 0x00C v) :: rest →
    ∃ t, Host.Core.run Sys2Proof.core 2 s = .next t ∧ t.pending = some v ∧ t.done = false ∧ t.ovr = s.ovr ∧
      t.lastOp = v.extractLsb' 0 4) ∧
  (∀ (s : State) (w v : Word) (rest : List Input), s.pending = some w → v.getLsbD 1 = true →
    s.inputs = .host (.wr32 0x004 v) :: .coreTurn :: rest →
    ∃ t, Host.Core.run Sys2Proof.core 2 s = .next t ∧ t.busy = false ∧ t.done = false ∧ t.irq = false)

/-- 30_encoding.md rule R89, WAIT, 00_scope.md rule R11 and 70_reset_and_hazards.md rule R221: a host that polls STATUS
while a command runs reads BUSY = 1 until the Core has had its turn, then reads BUSY = 0 and DONE = 1; a run whose last
accesses these are ends with that read, before any Core turn or reset that the list still holds. How many polls come
before, and what follows, are the schedule's (log entries 3 and 16). -/
def Obligations.WaitEndsAfterTheCoresTurn : Prop :=
  ∀ (k : Nat) (s : State) (rest : List Input), s.busy = true → s.inputs = waitMoves k ++ rest →
    (∀ j < k, ∃ u r, Host.Core.run Sys2Proof.core (j + 1) s = .next u ∧ u.reply = some r ∧ r.getLsbD 0 = true) ∧
    ∃ t r, Host.Core.run Sys2Proof.core (k + 2) s = .next t ∧ t.reply = some r ∧
      r.getLsbD 0 = false ∧ r.getLsbD 1 = true ∧ t.busy = false ∧ t.inputs = rest ∧
      ((∀ m ∈ rest, isHostMove m = false) → runEndsWith (k + 2) s t)

/-! ### The bus and the registers -/

/-- 20_memory.md rules R62, R63, R66 (with the map of R60 and the alignment of R64): an access that is not allowed
gets a bus error that names its offset and its width, and an allowed one gets none. -/
def Obligations.BusErrorsExactlyOnRefusedAccesses : Prop :=
  ∀ (s : State) (a : HostAccess), s.paramsLegal →
    (¬ busAllows s.params a → hostAccess a s = .fault (.busError (offsetOfAccess a) (widthOfAccess a))) ∧
    (busAllows s.params a → ∀ e, hostAccess a s ≠ .fault e)

/-- 70_reset_and_hazards.md rule R216 with 93_implementation_defined.md U5: the host has no move that writes anything
but CMD, CTRL and STATUS while a command runs; every other allowed access is made. -/
def Obligations.HostWritesRefusedExactlyOnBreachOfDuty : Prop :=
  ∀ (s : State) (a : HostAccess), s.paramsLegal → busAllows s.params a →
    (s.busy = true ∧ isWrite a = true ∧ ¬ writableWhileBusy (offsetOfAccess a) →
      hostAccess a s = .refused (.hostDutyBreach (offsetOfAccess a))) ∧
    (¬ (s.busy = true ∧ isWrite a = true ∧ ¬ writableWhileBusy (offsetOfAccess a)) →
      ∃ t, hostAccess a s = .next t)

/-- 20_memory.md rule R68: no read has a side effect on HCC. A read gives a value to the host and changes nothing else,
while idle and while a command runs. -/
def Obligations.ReadsChangeNothing : Prop :=
  ∀ (s : State) (a : HostAccess), s.paramsLegal → busAllows s.params a → isWrite a = false →
    ∃ v, hostAccess a s = .next { s with reply := some v }

/-- 20_memory.md rule R67 on the lanes of rule R64, for both windows: after a 32-bit write each 8-bit read returns its
lane and the 32-bit read returns the word, an 8-bit write changes its lane alone, and no other byte changes. At every
byte of a window, the last ones of a memory whose size is no multiple of 4 too, an 8-bit read returns what an 8-bit write
has written there. -/
def Obligations.MixedWidthAccessesUseLittleEndianLanes : Prop :=
  (∀ (s : State) (a : Nat) (v : Word), s.paramsLegal → s.busy = false → a % 4 = 0 → a + 3 < s.params.inSize →
    ∃ t, hostAccess (.wr32 (BitVec.ofNat 32 (0x01000000 + a)) v) s = .next { s with inMem := t } ∧
      (∀ i < 4, hostAccess (.rd8 (BitVec.ofNat 32 (0x01000000 + a + i))) { s with inMem := t } =
        .next { s with inMem := t, reply := some ((v.extractLsb' (8 * i) 8).setWidth 32) }) ∧
      hostAccess (.rd32 (BitVec.ofNat 32 (0x01000000 + a))) { s with inMem := t } =
        .next { s with inMem := t, reply := some v } ∧
      (∀ b n, b < a ∨ a + 3 < b → t.byteAt n b = s.inMem.byteAt n b)) ∧
  (∀ (s : State) (a : Nat) (v : Word), s.paramsLegal → s.busy = false → a % 4 = 0 → a + 3 < s.params.outSize →
    ∃ t, hostAccess (.wr32 (BitVec.ofNat 32 (0x02000000 + a)) v) s = .next { s with outMem := t } ∧
      (∀ i < 4, hostAccess (.rd8 (BitVec.ofNat 32 (0x02000000 + a + i))) { s with outMem := t } =
        .next { s with outMem := t, reply := some ((v.extractLsb' (8 * i) 8).setWidth 32) }) ∧
      hostAccess (.rd32 (BitVec.ofNat 32 (0x02000000 + a))) { s with outMem := t } =
        .next { s with outMem := t, reply := some v } ∧
      (∀ b n, b < a ∨ a + 3 < b → t.byteAt n b = s.outMem.byteAt n b)) ∧
  (∀ (s : State) (a i : Nat) (x : Byte), s.paramsLegal → s.busy = false → a % 4 = 0 → i < 4 →
    a + 3 < s.params.inSize →
    ∃ t, hostAccess (.wr8 (BitVec.ofNat 32 (0x01000000 + a + i)) x) s = .next { s with inMem := t } ∧
      (∃ r, hostAccess (.rd32 (BitVec.ofNat 32 (0x01000000 + a))) { s with inMem := t } =
        .next { s with inMem := t, reply := some r } ∧ r.extractLsb' (8 * i) 8 = x) ∧
      (∀ b n, b ≠ a + i → t.byteAt n b = s.inMem.byteAt n b)) ∧
  (∀ (s : State) (a i : Nat) (x : Byte), s.paramsLegal → s.busy = false → a % 4 = 0 → i < 4 →
    a + 3 < s.params.outSize →
    ∃ t, hostAccess (.wr8 (BitVec.ofNat 32 (0x02000000 + a + i)) x) s = .next { s with outMem := t } ∧
      (∃ r, hostAccess (.rd32 (BitVec.ofNat 32 (0x02000000 + a))) { s with outMem := t } =
        .next { s with outMem := t, reply := some r } ∧ r.extractLsb' (8 * i) 8 = x) ∧
      (∀ b n, b ≠ a + i → t.byteAt n b = s.outMem.byteAt n b)) ∧
  (∀ (s : State) (a : Nat) (x : Byte), s.paramsLegal → s.busy = false → a < s.params.inSize →
    ∃ t, hostAccess (.wr8 (BitVec.ofNat 32 (0x01000000 + a)) x) s = .next { s with inMem := t } ∧
      hostAccess (.rd8 (BitVec.ofNat 32 (0x01000000 + a))) { s with inMem := t } =
        .next { s with inMem := t, reply := some (x.setWidth 32) } ∧
      (∀ b n, b ≠ a → t.byteAt n b = s.inMem.byteAt n b)) ∧
  (∀ (s : State) (a : Nat) (x : Byte), s.paramsLegal → s.busy = false → a < s.params.outSize →
    ∃ t, hostAccess (.wr8 (BitVec.ofNat 32 (0x02000000 + a)) x) s = .next { s with outMem := t } ∧
      hostAccess (.rd8 (BitVec.ofNat 32 (0x02000000 + a))) { s with outMem := t } =
        .next { s with outMem := t, reply := some (x.setWidth 32) } ∧
      (∀ b n, b ≠ a → t.byteAt n b = s.outMem.byteAt n b))

/-- 10_state.md rules R21, R25, R36, R42, R45, R47 and 70_reset_and_hazards.md rule R219: a read of a register that
follows a write of it returns what was written, cut to the register's width. A write of CTRL without SRST sets IE and
nothing else in every state, while a command runs too, and a write of PAD sets PAD alone. -/
def Obligations.RegisterReadReturnsWhatWasWritten : Prop :=
  (∀ (s : State) (off : Nat) (v img : Word), s.busy = false → writtenImage s.params off v = some img →
    (off = 0x004 → v.getLsbD 1 = false) →
    ∃ t, hostAccess (.wr32 (BitVec.ofNat 32 off) v) s = .next t ∧
      hostAccess (.rd32 (BitVec.ofNat 32 off)) t = .next { t with reply := some img }) ∧
  (∀ (s : State) (v : Word), v.getLsbD 1 = false →
    hostAccess (.wr32 0x004 v) s = .next { s with ie := v.getLsbD 0 }) ∧
  (∀ (s : State) (v : Word), s.busy = false → hostAccess (.wr32 0x018 v) s = .next { s with pad := v })

/-- 10_state.md rules R20 to R22, R24, R25, R35 to R41, R45, R48: in the idle state a write to a read-only register or to
a reserved offset changes nothing, a reserved offset reads 0, and each register that holds a field reads it
zero-extended; CTRL, ID and the CFG registers read so while a command runs too. That a reserved offset reads 0 while a
command runs is the model's choice (log entry 7): another reading of 00_scope.md rule R10 makes it a draw. -/
def Obligations.ReadOnlyAndReservedOffsetsIgnoreWrites : Prop :=
  (∀ (s : State) (off v : Word), s.busy = false → off.toNat < 0x1000 → off.toNat % 4 = 0 → ¬ takesWrites off.toNat →
    hostAccess (.wr32 off v) s = .next s) ∧
  (∀ (s : State) (off : Word), off.toNat < 0x1000 → off.toNat % 4 = 0 → 0x07C ≤ off.toNat →
    hostAccess (.rd32 off) s = .next { s with reply := some 0 }) ∧
  (∀ s : State, hostAccess (.rd32 0x000) s = .next { s with reply := some 0x48434301 }) ∧
  (∀ s : State, hostAccess (.rd32 0x004) s = .next { s with reply := some (if s.ie then 1 else 0) }) ∧
  (∀ s : State, hostAccess (.rd32 0x070) s = .next { s with reply := some (BitVec.ofNat 32 s.params.inSize) } ∧
    hostAccess (.rd32 0x074) s = .next { s with reply := some (BitVec.ofNat 32 s.params.outSize) } ∧
    hostAccess (.rd32 0x078) s = .next { s with reply := some (BitVec.ofNat 32 s.params.cntW) }) ∧
  (∀ s : State, s.busy = false →
    hostAccess (.rd32 0x00C) s = .next { s with reply := some 0 } ∧
    hostAccess (.rd32 0x010) s = .next { s with reply := some s.inLen } ∧
    hostAccess (.rd32 0x014) s = .next { s with reply := some s.outLen } ∧
    hostAccess (.rd32 0x018) s = .next { s with reply := some s.pad } ∧
    hostAccess (.rd32 0x01C) s = .next { s with reply := some s.errPos } ∧
    hostAccess (.rd32 0x020) s = .next { s with reply := some s.errAux } ∧
    hostAccess (.rd32 0x024) s = .next { s with reply := some (s.nLeaf.setWidth 32) } ∧
    hostAccess (.rd32 0x028) s = .next { s with reply := some (s.nNode.setWidth 32) } ∧
    hostAccess (.rd32 0x02C) s = .next { s with reply := some (s.root.setWidth 32) } ∧
    hostAccess (.rd32 0x060) s = .next { s with reply := some (s.nSel.setWidth 32) })

/-- 10_state.md rule R26: the fields of STATUS as the host reads them, in every state, with ERR as the code of
60_exceptions.md rule R180, what a write of it clears (R21, R28, R29), and that STATUS reads 0 after reset. -/
def Obligations.StatusFieldsAndTheirClearing : Prop :=
  (∀ s : State, ∃ r : Word, hostAccess (.rd32 0x008) s = .next { s with reply := some r } ∧
    r.getLsbD 0 = s.busy ∧ r.getLsbD 1 = s.done ∧ r.getLsbD 2 = s.ovr ∧ r.getLsbD 3 = s.treeValid ∧
    r.extractLsb' 4 4 = 0 ∧ r.extractLsb' 8 4 = s.err.number ∧ r.extractLsb' 12 4 = s.lastOp ∧
    r.extractLsb' 16 16 = 0) ∧
  (∀ (s : State) (v : Word), hostAccess (.wr32 0x008 v) s = .next { s with
    done := if v.getLsbD 1 then false else s.done, ovr := if v.getLsbD 2 then false else s.ovr }) ∧
  (ErrorCode.number .noError = 0 ∧ ErrorCode.number .emptyInput = 1 ∧ ErrorCode.number .codebookIncomplete = 2 ∧
    ErrorCode.number .corruptBitstream = 3 ∧ ErrorCode.number .ambiguousCodebook = 4 ∧
    ErrorCode.number .illegalCommand = 5 ∧ ErrorCode.number .badParameter = 6 ∧
    ErrorCode.number .outputOverflow = 7 ∧ ErrorCode.number .noTree = 8) ∧
  hostAccess (.rd32 0x008) State.reset = .next { State.reset with reply := some 0 }

/-- 10_state.md rule R42: FSEL selects a symbol, and FDATA is a window onto its count, of which a write keeps the low
CNT_W bits. No write of FDATA changes TREE_VALID or another count. -/
def Obligations.FdataIsAWindowOntoTheSelectedCount : Prop :=
  (∀ (s : State) (v : Word), s.busy = false →
    hostAccess (.wr32 0x030 v) s = .next { s with fSel := v.setWidth 8 }) ∧
  (∀ s : State, s.busy = false → hostAccess (.rd32 0x030) s = .next { s with reply := some (s.fSel.setWidth 32) }) ∧
  (∀ s : State, s.busy = false → hostAccess (.rd32 0x034) s = .next { s with reply := some (s.freq.at s.fSel) }) ∧
  (∀ (s : State) (v : Word), s.busy = false →
    ∃ T : Table Count, hostAccess (.wr32 0x034 v) s = .next { s with freq := T } ∧
      (T.at s.fSel).toNat = v.toNat % 2 ^ s.params.cntW ∧ ∀ b, b ≠ s.fSel → T.at b = s.freq.at b) ∧
  State.reset.fSel = 0

/-- 10_state.md rule R47: CBSEL selects a symbol; CBLEN and CBCODE0 to CBCODE7 are windows onto its code; each write
takes effect on its own bits alone; bit 255 does not exist. -/
def Obligations.CodebookWindowsWriteTheirOwnBits : Prop :=
  (∀ (s : State) (v : Word), s.busy = false →
    hostAccess (.wr32 0x038 v) s = .next { s with cbSel := v.setWidth 8 }) ∧
  (∀ s : State, s.busy = false → hostAccess (.rd32 0x038) s = .next { s with reply := some (s.cbSel.setWidth 32) }) ∧
  (∀ s : State, s.busy = false →
    hostAccess (.rd32 0x03C) s = .next { s with reply := some ((s.cbLen.at s.cbSel).setWidth 32) }) ∧
  (∀ (s : State) (v : Word), s.busy = false →
    ∃ T : Table Byte, hostAccess (.wr32 0x03C v) s = .next { s with cbLen := T } ∧
      T.at s.cbSel = v.setWidth 8 ∧ ∀ b, b ≠ s.cbSel → T.at b = s.cbLen.at b) ∧
  (∀ (s : State) (k : Nat), s.busy = false → k < 8 →
    ∃ r : Word, hostAccess (.rd32 (BitVec.ofNat 32 (0x040 + 4 * k))) s = .next { s with reply := some r } ∧
      ∀ j < 32, r.getLsbD j = (s.cbCode.at s.cbSel).getLsbD (32 * k + j)) ∧
  (∀ (s : State) (k : Nat) (v : Word), s.busy = false → k < 8 →
    ∃ T : Table CodeBits, hostAccess (.wr32 (BitVec.ofNat 32 (0x040 + 4 * k)) v) s = .next { s with cbCode := T } ∧
      (∀ j < 255, (T.at s.cbSel).getLsbD j =
        if 32 * k ≤ j ∧ j < 32 * k + 32 then v.getLsbD (j - 32 * k) else (s.cbCode.at s.cbSel).getLsbD j) ∧
      ∀ b, b ≠ s.cbSel → T.at b = s.cbCode.at b) ∧
  State.reset.cbSel = 0

/-- 10_state.md rule R45: what NODE_INFO, NODE_FREQ_LO and NODE_FREQ_HI read for the entry that NSEL selects. -/
def Obligations.NodeRegistersShowTheSelectedNode : Prop :=
  (∀ (s : State) (v : Word), s.busy = false →
    hostAccess (.wr32 0x060 v) s = .next { s with nSel := v.setWidth 9 }) ∧
  State.reset.nSel = 0 ∧
  (∀ s : State, s.busy = false →
    ∃ info lo hi : Word,
      hostAccess (.rd32 0x064) s = .next { s with reply := some info } ∧
      hostAccess (.rd32 0x068) s = .next { s with reply := some lo } ∧
      hostAccess (.rd32 0x06C) s = .next { s with reply := some hi } ∧
      (¬ (s.treeValid = true ∧ s.nSel.toNat < s.nNode.toNat) → info = 0 ∧ lo = 0 ∧ hi = 0) ∧
      (s.treeValid = true ∧ s.nSel.toNat < s.nNode.toNat → ∀ n, s.nodes[s.nSel.toNat]? = some n →
        info.getLsbD 31 = true ∧ info.getLsbD 30 = n.leaf ∧ info.extractLsb' 26 4 = 0 ∧
        info.extractLsb' 18 8 = (if n.leaf then n.sym else 0) ∧
        info.extractLsb' 9 9 = (if n.leaf then 0 else n.right) ∧
        info.extractLsb' 0 9 = (if n.leaf then 0 else n.left) ∧
        lo = n.freq.extractLsb' 0 32 ∧ hi = (n.freq.extractLsb' 32 8).setWidth 32))

/-- 30_encoding.md rules R88 and R89: LDCB loads a code so that it is the code of its symbol, right-aligned with the
bits above it 0, and leaves every other symbol's code as it was. -/
def Obligations.LdcbLoadsTheCode : Prop :=
  ∀ (s : State) (b : Byte) (c : BitString) (rest : List Input), s.busy = false → codeWf c = true →
    s.inputs = moves (ldcb b c) ++ rest →
    ∃ t, Host.Core.run Sys2Proof.core 10 s = .next t ∧ t.inputs = rest ∧ t.busy = false ∧
      (t.cbLen.at b).toNat = c.length ∧ (t.cbCode.at b).toNat = valOf c ∧ codeOf t b = c ∧
      (∀ x, x ≠ b → t.cbLen.at x = s.cbLen.at x ∧ t.cbCode.at x = s.cbCode.at x) ∧ t.cbSel = b

/-! ### Reset and the invariants -/

/-- 10_state.md rule R52 and 70_reset_and_hazards.md rule R210: the state after a hardware reset. The memories are
unspecified, and nothing is said about what their bytes read as; the parameters stay. -/
def Obligations.HardResetClearsEverything : Prop :=
  ∀ (s : State) (rest : List Input), s.inputs = .hardReset :: rest →
    ∃ t, step s = .next t ∧
      t.busy = false ∧ t.done = false ∧ t.err = .noError ∧ t.lastOp = 0 ∧ t.ovr = false ∧ t.treeValid = false ∧
      t.ie = false ∧ t.irq = false ∧ t.inLen = 0 ∧ t.outLen = 0 ∧ t.pad = 0 ∧ t.errPos = 0 ∧ t.errAux = 0 ∧
      t.nLeaf = 0 ∧ t.nNode = 0 ∧ t.root = 0 ∧ t.fSel = 0 ∧ t.cbSel = 0 ∧ t.nSel = 0 ∧
      (∀ b, t.freq.at b = 0 ∧ t.cbLen.at b = 0 ∧ t.cbCode.at b = 0) ∧ t.params = s.params ∧
      hostAccess (.rd32 0x008) t = .next { t with reply := some 0 }

/-- 70_reset_and_hazards.md rule R212 (and 10_state.md rule R25): a write of CTRL with SRST = 1 resets every register,
table and flag at any time; IN_MEM stays, OUT_MEM stays unless a running PACK or UNPACK is aborted, and an aborted
command performs no completion. -/
def Obligations.SoftResetKeepsTheMemories : Prop :=
  ∀ (s : State) (v : Word), v.getLsbD 1 = true →
    ∃ t, hostAccess (.wr32 0x004 v) s = .next t ∧
      t.busy = false ∧ t.done = false ∧ t.irq = false ∧ t.err = .noError ∧ t.lastOp = 0 ∧ t.ovr = false ∧
      t.treeValid = false ∧ t.ie = false ∧ t.inLen = 0 ∧ t.outLen = 0 ∧ t.pad = 0 ∧ t.errPos = 0 ∧ t.errAux = 0 ∧
      t.nLeaf = 0 ∧ t.nNode = 0 ∧ t.root = 0 ∧ t.fSel = 0 ∧ t.cbSel = 0 ∧ t.nSel = 0 ∧
      (∀ b, t.freq.at b = 0 ∧ t.cbLen.at b = 0 ∧ t.cbCode.at b = 0) ∧
      t.inMem = s.inMem ∧ t.params = s.params ∧
      (s.pending ≠ some 0x00000004 → s.pending ≠ some 0x00000005 → t.outMem = s.outMem)

/-- The reset state of an instance with the default parameters meets the invariant of Safety.lean. -/
def Obligations.ResetMeetsTheInvariant : Prop := State.reset.Inv

/-- The memories keep their canonical form and their sizes in every step, whatever the host does (00_scope.md rule R7,
20_memory.md rule R61, 42_pack.md rule R143, 43_unpack.md rule R166). -/
def Obligations.StepKeepsTheMemoriesCanonical : Prop :=
  ∀ s t : State, s.paramsLegal → s.memoriesWf → step s = .next t → t.params = s.params ∧ t.memoriesWf

/-- 10_state.md rules R30, R39 to R41 and R44: in every step the tree registers and the arena keep holding a tree with
the properties of rule R44 while TREE_VALID = 1, and nothing while TREE_VALID = 0. -/
def Obligations.StepKeepsTheTreeShape : Prop :=
  ∀ s t : State, s.treeWf → step s = .next t → t.treeWf

/-- 10_state.md rules R28, R31, R32, R35, R43 and 30_encoding.md rule R83: in every step the counts keep fitting CNT_W
bits, OUT_LEN stays at most OUT_SIZE, and while a command runs DONE and the error record stay 0 and LASTOP stays the
opcode of the accepted word. -/
def Obligations.StepKeepsCountsLengthsAndHandshake : Prop :=
  ∀ s t : State, s.paramsLegal → step s = .next t →
    (s.countsFit → t.countsFit) ∧ (s.outLenFits → t.outLenFits) ∧ (s.handshakeOk → t.handshakeOk)

/-! ### FREQ and FCLR -/

/-- 10_state.md rule R34: IN_LEN is 0 after reset, any 32-bit value may be written to it and is read back, FREQ, PACK
and UNPACK check it, and no command writes it. -/
def Obligations.InputLengthIsChecked : Prop :=
  State.reset.inLen = 0 ∧
  (∀ (s : State) (v : Word), s.busy = false → hostAccess (.wr32 0x010 v) s = .next { s with inLen := v }) ∧
  (∀ s : State, s.busy = false → hostAccess (.rd32 0x010) s = .next { s with reply := some s.inLen }) ∧
  (∀ (i : Instr) (s : State), i = .freq ∨ i = .pack ∨ i = .unpack → s.inLen = 0 →
    ∃ t, exec i s = .next t ∧ t.err = .emptyInput ∧ t.errPos = 0 ∧ t.errAux = 0) ∧
  (∀ (i : Instr) (s : State), i = .freq ∨ i = .pack ∨ i = .unpack → s.params.inSize < s.inLen.toNat →
    ∃ t, exec i s = .next t ∧ t.err = .badParameter ∧ t.errPos = 0x010 ∧ t.errAux = s.inLen) ∧
  (∀ (i : Instr) (s t : State), exec i s = .next t → t.inLen = s.inLen)

/-- 40_frequency_tree.md rule R101: FREQ counts the occurrences of every byte value in the input and the counts sum to
IN_LEN; on either error the table is unchanged; nothing else changes but the completion fields. -/
def Obligations.FreqCountsEveryByteValue : Prop :=
  decodeInstr 0x00000001 = some .freq ∧
  (∀ s : State, s.inLen ≠ 0 → s.inLen.toNat ≤ s.params.inSize →
    ∃ T : Table Count,
      exec .freq s = .next { s with
        freq := T, err := .noError, errPos := 0, errAux := 0, pending := none, done := true } ∧
      (∀ b, (T.at b).toNat = (inputBytes s).count b) ∧
      (allSymbols.map fun b => (T.at b).toNat).sum = s.inLen.toNat) ∧
  (∀ s : State, s.inLen = 0 →
    exec .freq s = .next { s with err := .emptyInput, errPos := 0, errAux := 0, pending := none, done := true }) ∧
  (∀ s : State, s.params.inSize < s.inLen.toNat →
    exec .freq s = .next { s with
      err := .badParameter, errPos := 0x010, errAux := s.inLen, pending := none, done := true })

/-- 40_frequency_tree.md rule R103: FCLR clears every count, leaves the rest, and a BUILD after it finds an empty
table. -/
def Obligations.FclrClearsEveryCount : Prop :=
  decodeInstr 0x00000006 = some .fclr ∧
  ∀ s : State, ∃ T : Table Count,
    exec .fclr s = .next { s with
      freq := T, err := .noError, errPos := 0, errAux := 0, pending := none, done := true } ∧
    (∀ b, T.at b = 0) ∧
    ∀ u : State, u.freq = T → ∃ t, exec .build u = .next t ∧ t.err = .emptyInput ∧ t.errPos = 0 ∧ t.errAux = 0

/-! ### BUILD -/

/-- 40_frequency_tree.md rule R104, its error, and 41_codebook.md rule R121, its error: BUILD on an empty table
invalidates the tree; GENCODE without a tree changes nothing. -/
def Obligations.EmptyTableAndMissingTreeAreErrors : Prop :=
  (∀ s : State, (∀ b, s.freq.at b = 0) →
    ∃ N, exec .build s = .next { s with
      treeValid := false, nLeaf := 0, nNode := 0, root := 0, nodes := N,
      err := .emptyInput, errPos := 0, errAux := 0, pending := none, done := true }) ∧
  (∀ s : State, s.treeValid = false →
    exec .gencode s = .next { s with err := .noTree, errPos := 0, errAux := 0, pending := none, done := true })

/-- 40_frequency_tree.md rule R104, its result, with the leaf order of rule R108: for a table with n ≥ 1 distinct
symbols BUILD succeeds, NLEAF = n, NNODE = 2n − 1, ROOT = 2n − 2, the first n nodes are the leaves in ascending order of
symbol with their counts, and nothing else changes but the completion fields. -/
def Obligations.BuildInsertsTheLeavesInOrder : Prop :=
  ∀ (s : State) (n : Nat), n = distinctCount s.freq → 1 ≤ n →
    ∃ nodes : List Node, exec .build s = .next { s with
        treeValid := true, nodes := nodes, nLeaf := BitVec.ofNat 9 n, nNode := BitVec.ofNat 10 (2 * n - 1),
        root := BitVec.ofNat 9 (2 * n - 2),
        err := .noError, errPos := 0, errAux := 0, pending := none, done := true } ∧
      nodes.length = 2 * n - 1 ∧
      ∀ (k : Nat) (b : Byte), (distinctSymbols s.freq)[k]? = some b →
        nodes[k]? = some ({ leaf := true, sym := b, freq := (s.freq.at b).setWidth 40, left := 0, right := 0 } : Node)

/-- 10_state.md rule R44: the arena that a successful BUILD leaves has all the properties of a tree. -/
def Obligations.BuildMakesATree : Prop :=
  ∀ s t : State, exec .build s = .next t → t.err = .noError → TreeShape t.nodes (distinctCount s.freq)

/-- 40_frequency_tree.md rules R104, R105 and R107: the children of each internal node are the two nodes that the
greedy merge removes: of the nodes then queued, the left one is before all others and the right one before all but the
left, by frequency and then by index. -/
def Obligations.BuildMergesTheTwoLeastNodes : Prop :=
  ∀ (s t : State) (n k : Nat), n = distinctCount s.freq → exec .build s = .next t → t.err = .noError →
    n ≤ k → k < 2 * n - 1 →
    ∃ i j, (nodeAt t.nodes k).left.toNat = i ∧ (nodeAt t.nodes k).right.toNat = j ∧ i ≠ j ∧
      queuedAt t.nodes n k i ∧ queuedAt t.nodes n k j ∧
      (∀ m, queuedAt t.nodes n k m → m ≠ i → removedBefore t.nodes i m) ∧
      (∀ m, queuedAt t.nodes n k m → m ≠ i → m ≠ j → removedBefore t.nodes j m)

/-- 40_frequency_tree.md rule R106: the root's frequency is the exact sum of the counts, and equals IN_LEN for a table
that FREQ filled. -/
def Obligations.RootFrequencyIsTheTotalCount : Prop :=
  (∀ s t : State, exec .build s = .next t → t.err = .noError →
    (nodeAt t.nodes t.root.toNat).freq.toNat = (allSymbols.map fun b => (s.freq.at b).toNat).sum) ∧
  (∀ s t u : State, exec .freq s = .next t → t.err = .noError → exec .build t = .next u →
    u.err = .noError ∧ (nodeAt u.nodes u.root.toNat).freq.toNat = s.inLen.toNat)

/-- 40_frequency_tree.md rules R109 and R110: the tree of a table with one distinct symbol is its leaf, and equal tables
give equal trees. -/
def Obligations.BuildDegenerateTreeAndDeterminism : Prop :=
  (∀ (s : State) (b : Byte), (∀ x, s.freq.at x ≠ 0 ↔ x = b) →
    ∃ t, exec .build s = .next t ∧ t.err = .noError ∧ t.treeValid = true ∧ t.nLeaf = 1 ∧ t.nNode = 1 ∧ t.root = 0 ∧
      t.nodes = [{ leaf := true, sym := b, freq := (s.freq.at b).setWidth 40, left := 0, right := 0 }]) ∧
  (∀ s s' : State, s.freq = s'.freq →
    ∃ t t', exec .build s = .next t ∧ exec .build s' = .next t' ∧ t.nodes = t'.nodes ∧ t.nLeaf = t'.nLeaf ∧
      t.nNode = t'.nNode ∧ t.root = t'.root ∧ t.treeValid = t'.treeValid ∧ t.err = t'.err)

/-! ### GENCODE and CBCLR -/

/-- 41_codebook.md rule R121: from a valid tree with at least two leaves GENCODE gives each leaf's symbol its path from
the root, stored right-aligned, leaves every other symbol uncoded, and changes nothing else but the completion
fields. -/
def Obligations.GencodeAssignsEachLeafItsPath : Prop :=
  ∀ s : State, s.treeWf → s.treeValid = true → 2 ≤ s.nLeaf.toNat →
    ∃ (L : Table Byte) (C : Table CodeBits) (t : State),
      t = { s with cbLen := L, cbCode := C, err := .noError, errPos := 0, errAux := 0, pending := none, done := true } ∧
      exec .gencode s = .next t ∧
      (∀ k < s.nLeaf.toNat,
        follow s.nodes s.root.toNat (codeOf t (nodeAt s.nodes k).sym) = some k ∧
        1 ≤ (L.at (nodeAt s.nodes k).sym).toNat ∧
        (C.at (nodeAt s.nodes k).sym).toNat = valOf (codeOf t (nodeAt s.nodes k).sym)) ∧
      (∀ b, (∀ k < s.nLeaf.toNat, (nodeAt s.nodes k).sym ≠ b) → L.at b = 0 ∧ C.at b = 0)

/-- 41_codebook.md rule R122: the degenerate tree's symbol gets the code "0", and no other symbol is coded. -/
def Obligations.GencodeGivesTheSingleLeafTheCodeZero : Prop :=
  ∀ s : State, s.treeWf → s.treeValid = true → s.nLeaf = 1 →
    ∃ (L : Table Byte) (C : Table CodeBits),
      exec .gencode s = .next { s with
        cbLen := L, cbCode := C, err := .noError, errPos := 0, errAux := 0, pending := none, done := true } ∧
      L.at (nodeAt s.nodes 0).sym = 1 ∧ C.at (nodeAt s.nodes 0).sym = 0 ∧
      ∀ b, b ≠ (nodeAt s.nodes 0).sym → L.at b = 0 ∧ C.at b = 0

/-- 41_codebook.md rule R125: a generated codebook is prefix-free, so it passes the prefix check of UNPACK. -/
def Obligations.GeneratedCodebookIsPrefixFree : Prop :=
  ∀ s : State, s.treeWf → s.treeValid = true →
    ∃ t, exec .gencode s = .next t ∧ t.err = .noError ∧ t.prefixFree ∧ ambiguousPair (codebookOf t) = none

/-- 41_codebook.md rule R126: the codebook of a tree with at least two leaves is complete: the sum of 2^(−CB_LEN) is 1,
and every bit sequence of 255 bits begins with exactly one code. The degenerate codebook has the sum 1/2 and matches no
string that contains a 1. -/
def Obligations.GeneratedCodebookIsComplete : Prop :=
  (∀ s t : State, s.treeWf → s.treeValid = true → 2 ≤ s.nLeaf.toNat → exec .gencode s = .next t →
    t.kraftSum = 2 ^ 255 ∧
    ∀ bits : BitString, bits.length = 255 →
      ∃ b, (isCoded t b = true ∧ codeOf t b <+: bits) ∧
        ∀ c, isCoded t c = true → codeOf t c <+: bits → c = b) ∧
  (∀ s t : State, s.treeWf → s.treeValid = true → s.nLeaf = 1 → exec .gencode s = .next t →
    t.kraftSum = 2 ^ 254 ∧
    ∀ bytes : List Byte, (∀ b ∈ bytes, isCoded t b = true) → true ∉ encoded t bytes)

/-- 41_codebook.md rule R124: CBCLR empties the codebook and changes nothing else but the completion fields; a PACK after
it raises CODEBOOK_INCOMPLETE at the first input byte, and an UNPACK raises it too. -/
def Obligations.CbclrEmptiesTheCodebook : Prop :=
  decodeInstr 0x00000007 = some .cbclr ∧
  ∀ s : State, ∃ (L : Table Byte) (C : Table CodeBits),
    exec .cbclr s = .next { s with
      cbLen := L, cbCode := C, err := .noError, errPos := 0, errAux := 0, pending := none, done := true } ∧
    (∀ b, L.at b = 0 ∧ C.at b = 0) ∧
    (∀ u : State, u.cbLen = L → u.inLen ≠ 0 → u.inLen.toNat ≤ u.params.inSize →
      (∃ t, exec .pack u = .next t ∧ t.err = .codebookIncomplete ∧ t.errPos = 0 ∧
        some t.errAux = (inputBytes u)[0]?.map fun b => b.setWidth 32) ∧
      (u.pad.toNat ≤ 7 → ∃ t, exec .unpack u = .next t ∧ t.err = .codebookIncomplete ∧ t.errPos = 0 ∧
        t.errAux = 0))

/-! ### PACK -/

/-- 42_pack.md rules R141, R144 and R145: when every input byte is coded and the output fits, PACK writes the codes of
the input, padded with zeros to whole bytes, to OUT_MEM[0..N−1], most significant bit first, sets OUT_LEN = N and PAD =
p, and changes nothing else but the completion fields; the bytes from N on stay (log entry 11). -/
def Obligations.PackWritesThePaddedCodes : Prop :=
  ∀ (s : State) (len pad count : Nat), s.paramsLegal → s.inLen ≠ 0 → s.inLen.toNat ≤ s.params.inSize →
    (∀ b ∈ inputBytes s, isCoded s b = true) →
    len = (encoded s (inputBytes s)).length → pad = (8 - len % 8) % 8 → count = (len + 7) / 8 →
    count ≤ s.params.outSize →
    ∃ m : Memory,
      exec .pack s = .next { s with
        outMem := m, outLen := BitVec.ofNat 32 count, pad := BitVec.ofNat 32 pad,
        err := .noError, errPos := 0, errAux := 0, pending := none, done := true } ∧
      (∀ d, streamBits ((List.range count).map (m.byteAt d)) =
        encoded s (inputBytes s) ++ List.replicate pad false) ∧
      (∀ a d, count ≤ a → m.byteAt d a = s.outMem.byteAt d a)

/-- 42_pack.md rule R144: the padding of a successful PACK. -/
def Obligations.PackPaddingIsMinimal : Prop :=
  ∀ (s t : State) (len : Nat), s.paramsLegal → exec .pack s = .next t → t.err = .noError →
    len = (encoded s (inputBytes s)).length →
    t.pad.toNat = (8 - len % 8) % 8 ∧ t.pad.toNat ≤ 7 ∧ (len + t.pad.toNat) % 8 = 0 ∧
    t.outLen.toNat = (len + t.pad.toNat) / 8 ∧ t.outLen.toNat = (len + 7) / 8 ∧
    (t.pad.toNat = 0 ↔ len % 8 = 0) ∧
    (∀ d, (streamBits ((List.range t.outLen.toNat).map (t.outMem.byteAt d))).drop len =
      List.replicate t.pad.toNat false)

/-- 42_pack.md rule R142: at the first input byte that is not coded, PACK raises CODEBOOK_INCOMPLETE with its index and
the byte. -/
def Obligations.PackStopsAtTheFirstUncodedByte : Prop :=
  ∀ (s : State) (before rest : List Byte) (b : Byte), s.inLen ≠ 0 → s.inLen.toNat ≤ s.params.inSize →
    inputBytes s = before ++ b :: rest → (∀ x ∈ before, isCoded s x = true) → isCoded s b = false →
    ((encoded s before).length + 7) / 8 ≤ s.params.outSize →
    ∃ t, exec .pack s = .next t ∧ t.err = .codebookIncomplete ∧ t.errPos.toNat = before.length ∧
      t.errAux = b.setWidth 32

/-- 42_pack.md rule R143: at the first input byte after whose code the output would need more than OUT_SIZE bytes, PACK
raises OUTPUT_OVERFLOW with its index and OUT_SIZE; a PACK that passes has OUT_LEN ≤ OUT_SIZE. -/
def Obligations.PackStopsWhenTheOutputOverflows : Prop :=
  (∀ (s : State) (before rest : List Byte) (b : Byte), s.paramsLegal → s.inLen ≠ 0 →
    s.inLen.toNat ≤ s.params.inSize → inputBytes s = before ++ b :: rest →
    (∀ x ∈ before, isCoded s x = true) → isCoded s b = true →
    ((encoded s before).length + 7) / 8 ≤ s.params.outSize →
    s.params.outSize < ((encoded s (before ++ [b])).length + 7) / 8 →
    ∃ t, exec .pack s = .next t ∧ t.err = .outputOverflow ∧ t.errPos.toNat = before.length ∧
      t.errAux.toNat = s.params.outSize) ∧
  (∀ s t : State, s.paramsLegal → exec .pack s = .next t → t.err = .noError → t.outLen.toNat ≤ s.params.outSize)

/-- 42_pack.md rule R146 and 43_unpack.md rule R169: a failing PACK or UNPACK sets OUT_LEN = 0 and leaves PAD and every
other register and table as it was but for the completion fields. OUT_MEM is unspecified, and nothing is said of it. -/
def Obligations.FailingPackAndUnpackLeaveNoResult : Prop :=
  ∀ (i : Instr) (s t : State), i = .pack ∨ i = .unpack → exec i s = .next t → t.err ≠ .noError →
    t.outLen = 0 ∧ t.pad = s.pad ∧
    t = { s with outLen := 0, outMem := t.outMem, err := t.err, errPos := t.errPos, errAux := t.errAux,
                 pending := none, done := true }

/-- 42_pack.md rule R147: with the degenerate codebook, N copies of its symbol pack to N zero bits: ceil(N/8) zero bytes
and the padding of the formula. -/
def Obligations.PackOfOneRepeatedByte : Prop :=
  ∀ (s : State) (b : Byte), s.paramsLegal → s.inLen ≠ 0 → s.inLen.toNat ≤ s.params.inSize →
    codeOf s b = [false] → (∀ x ∈ inputBytes s, x = b) → (s.inLen.toNat + 7) / 8 ≤ s.params.outSize →
    ∃ t, exec .pack s = .next t ∧ t.err = .noError ∧ t.outLen.toNat = (s.inLen.toNat + 7) / 8 ∧
      t.pad.toNat = (8 - s.inLen.toNat % 8) % 8 ∧ ∀ a d, a < t.outLen.toNat → t.outMem.byteAt d a = 0

/-! ### UNPACK -/

/-- 43_unpack.md rule R168 and 10_state.md rule R36, UNPACK's reading of PAD, in the order of 60_exceptions.md rule
R181: PAD above 7 is reported before an empty codebook, and that before the stream is read. -/
def Obligations.UnpackChecksPaddingThenCodebook : Prop :=
  (∀ s : State, s.inLen ≠ 0 → s.inLen.toNat ≤ s.params.inSize → 7 < s.pad.toNat →
    ∃ t, exec .unpack s = .next t ∧ t.err = .badParameter ∧ t.errPos = 0x018 ∧ t.errAux = s.pad) ∧
  (∀ s : State, s.inLen ≠ 0 → s.inLen.toNat ≤ s.params.inSize → s.pad.toNat ≤ 7 → (∀ b, s.cbLen.at b = 0) →
    ∃ t, exec .unpack s = .next t ∧ t.err = .codebookIncomplete ∧ t.errPos = 0 ∧ t.errAux = 0)

/-- 43_unpack.md rule R162: UNPACK reports the least pair of symbols of which one code is a prefix of the other, and
reports none when there is none. -/
def Obligations.UnpackReportsTheLeastAmbiguousPair : Prop :=
  ∀ s : State, s.inLen ≠ 0 → s.inLen.toNat ≤ s.params.inSize → s.pad.toNat ≤ 7 →
    (∀ a b : Byte, clash s a b →
      (∀ c d : Byte, clash s c d → a.toNat < c.toNat ∨ (a = c ∧ b.toNat ≤ d.toNat)) →
      ∃ t, exec .unpack s = .next t ∧ t.err = .ambiguousCodebook ∧ t.errPos = a.setWidth 32 ∧
        t.errAux = b.setWidth 32) ∧
    (s.prefixFree → ∃ t, exec .unpack s = .next t ∧ t.err ≠ .ambiguousCodebook)

/-- 43_unpack.md rules R161, R163 and R164: with a prefix-free codebook, an unpadded stream that is a concatenation of
codes decodes to their symbols, written to OUT_MEM from 0 on with OUT_LEN their number; the bytes behind them stay (log
entry 11), and nothing else changes but the completion fields. -/
def Obligations.UnpackDecodesAStreamOfCodes : Prop :=
  ∀ (s : State) (bytes : List Byte), s.paramsLegal → s.inLen ≠ 0 → s.inLen.toNat ≤ s.params.inSize →
    s.pad.toNat ≤ 7 → s.prefixFree → (∀ b ∈ bytes, isCoded s b = true) → bytes.length ≤ s.params.outSize →
    (streamBits (inputBytes s)).take (8 * s.inLen.toNat - s.pad.toNat) = encoded s bytes →
    ∃ m : Memory,
      exec .unpack s = .next { s with
        outMem := m, outLen := BitVec.ofNat 32 bytes.length,
        err := .noError, errPos := 0, errAux := 0, pending := none, done := true } ∧
      (∀ d, (List.range bytes.length).map (m.byteAt d) = bytes) ∧
      (∀ a d, bytes.length ≤ a → m.byteAt d a = s.outMem.byteAt d a)

/-- 43_unpack.md rule R166: a code matched when OUT_SIZE bytes are written raises OUTPUT_OVERFLOW with the index of the
code's first bit and OUT_SIZE; a successful UNPACK has OUT_LEN ≤ OUT_SIZE. -/
def Obligations.UnpackStopsWhenTheOutputOverflows : Prop :=
  (∀ (s : State) (bytes : List Byte) (b : Byte) (tail : BitString), s.paramsLegal → s.inLen ≠ 0 →
    s.inLen.toNat ≤ s.params.inSize → s.pad.toNat ≤ 7 → s.prefixFree →
    (∀ x ∈ bytes, isCoded s x = true) → isCoded s b = true → bytes.length = s.params.outSize →
    (streamBits (inputBytes s)).take (8 * s.inLen.toNat - s.pad.toNat) = encoded s (bytes ++ [b]) ++ tail →
    ∃ t, exec .unpack s = .next t ∧ t.err = .outputOverflow ∧ t.errPos.toNat = (encoded s bytes).length ∧
      t.errAux.toNat = s.params.outSize) ∧
  (∀ s t : State, s.paramsLegal → exec .unpack s = .next t → t.err = .noError → t.outLen.toNat ≤ s.params.outSize)

/-- 43_unpack.md rule R167: the values of the dropped padding bits do not matter. -/
def Obligations.UnpackIgnoresThePaddingBits : Prop :=
  ∀ (s t : State) (m : Memory),
    (streamBits (inputBytes { s with inMem := m })).take (8 * s.inLen.toNat - s.pad.toNat) =
      (streamBits (inputBytes s)).take (8 * s.inLen.toNat - s.pad.toNat) →
    exec .unpack s = .next t → exec .unpack { s with inMem := m } = .next { t with inMem := m }

/-- 43_unpack.md rule R165: a stream that goes on after its last whole code raises CORRUPT_BITSTREAM with the stream
index behind that code and the number of bytes decoded, whether the rest is a part of a code or begins no code; and the
early check changes no outcome: decoding with it equals decoding that finds a corrupt stream only at its end, for every
codebook, output size and stream. -/
def Obligations.CorruptStreamIsReported : Prop :=
  (∀ (s : State) (bytes : List Byte) (tail : BitString), s.paramsLegal → s.inLen ≠ 0 →
    s.inLen.toNat ≤ s.params.inSize → s.pad.toNat ≤ 7 → s.prefixFree → (∃ b, isCoded s b = true) →
    (∀ b ∈ bytes, isCoded s b = true) → bytes.length ≤ s.params.outSize →
    (streamBits (inputBytes s)).take (8 * s.inLen.toNat - s.pad.toNat) = encoded s bytes ++ tail →
    tail ≠ [] → (∀ b, isCoded s b = true → ¬ (codeOf s b <+: tail)) →
    ∃ t, exec .unpack s = .next t ∧ t.err = .corruptBitstream ∧
      t.errPos.toNat = (encoded s bytes).length ∧ t.errAux.toNat = bytes.length) ∧
  (∀ (cb : List (Byte × BitString)) (outSize t count : Nat) (bits : BitString),
    decodeFrom cb outSize t [] t count bits = decodeAtEnd cb outSize t [] t count bits)

/-- 10_state.md rule R46: the bits of CB_CODE above CB_LEN are ignored by PACK and UNPACK, and GENCODE writes them as
0. -/
def Obligations.UnusedCodeBitsAreIgnored : Prop :=
  (∀ (i : Instr) (s t : State) (C : Table CodeBits), i = .pack ∨ i = .unpack →
    (∀ (b : Byte) (j : Nat), j < (s.cbLen.at b).toNat → (C.at b).getLsbD j = (s.cbCode.at b).getLsbD j) →
    exec i s = .next t → exec i { s with cbCode := C } = .next { t with cbCode := C }) ∧
  (∀ (s t : State) (b : Byte) (j : Nat), s.treeWf → s.treeValid = true → exec .gencode s = .next t →
    (t.cbLen.at b).toNat ≤ j → (t.cbCode.at b).getLsbD j = false)

/-- 20_memory.md rule R61 and 60_exceptions.md rule R184: no command reads OUT_MEM, so two states that differ only in
OUT_MEM give results that differ only there, in the error and its position too. A command other than PACK and UNPACK
leaves each OUT_MEM as it was, and a successful PACK or UNPACK writes the same bytes 0 to OUT_LEN − 1 into both. -/
def Obligations.CommandsDoNotReadOutMem : Prop :=
  ∀ (i : Instr) (s t : State) (m : Memory), exec i s = .next t →
    ∃ m', exec i { s with outMem := m } = .next { t with outMem := m' } ∧
      (i ≠ .pack → i ≠ .unpack → t.outMem = s.outMem ∧ m' = m) ∧
      (i = .pack ∨ i = .unpack → t.err = .noError →
        ∀ a d, a < t.outLen.toNat → m'.byteAt d a = t.outMem.byteAt d a)

/-! ### Whole sequences -/

/-- 43_unpack.md rule R170: UNPACK inverts PACK for every prefix-free codebook. The host has put the payload into IN_MEM
and its length into IN_LEN. -/
def Obligations.UnpackInvertsPack : Prop :=
  ∀ s t u : State, s.paramsLegal → s.prefixFree → exec .pack s = .next t → t.err = .noError →
    u.params = s.params → u.cbLen = t.cbLen → u.cbCode = t.cbCode → u.pad = t.pad → u.inLen = t.outLen →
    u.inLen.toNat ≤ s.params.inSize → s.inLen.toNat ≤ s.params.outSize →
    (∀ d, inputBytes u = (List.range t.outLen.toNat).map (t.outMem.byteAt d)) →
    ∃ v, exec .unpack u = .next v ∧ v.err = .noError ∧ v.outLen = s.inLen ∧
      ∀ d, (List.range v.outLen.toNat).map (v.outMem.byteAt d) = inputBytes s

/-- 43_unpack.md rule R171: a payload without its last byte decodes to a strict prefix of the input when the cut falls on
a code boundary, and raises CORRUPT_BITSTREAM when it falls inside a code; with the degenerate codebook it always falls on
a boundary; a payload of one byte leaves none, which raises EMPTY_INPUT. -/
def Obligations.TruncatedPayload : Prop :=
  (∀ s t u : State, s.paramsLegal → s.prefixFree → exec .pack s = .next t → t.err = .noError →
    u.params = s.params → u.cbLen = t.cbLen → u.cbCode = t.cbCode → u.pad = t.pad →
    2 ≤ t.outLen.toNat → u.inLen.toNat = t.outLen.toNat - 1 →
    u.inLen.toNat ≤ s.params.inSize → s.inLen.toNat ≤ s.params.outSize →
    (∀ d, inputBytes u = (List.range (t.outLen.toNat - 1)).map (t.outMem.byteAt d)) →
    (∀ j, (encoded s ((inputBytes s).take j)).length = 8 * (t.outLen.toNat - 1) - t.pad.toNat →
      j ≤ s.inLen.toNat →
      j < s.inLen.toNat ∧ ∃ v, exec .unpack u = .next v ∧ v.err = .noError ∧ v.outLen.toNat = j ∧
        ∀ d, (List.range j).map (v.outMem.byteAt d) = (inputBytes s).take j) ∧
    ((∀ j ≤ s.inLen.toNat,
        (encoded s ((inputBytes s).take j)).length ≠ 8 * (t.outLen.toNat - 1) - t.pad.toNat) →
      ∃ v, exec .unpack u = .next v ∧ v.err = .corruptBitstream) ∧
    ((∀ b, isCoded s b = true → codeOf s b = [false]) →
      ∃ j ≤ s.inLen.toNat,
        (encoded s ((inputBytes s).take j)).length = 8 * (t.outLen.toNat - 1) - t.pad.toNat)) ∧
  (∀ s t u : State, exec .pack s = .next t → t.err = .noError → t.outLen = 1 →
    u.inLen.toNat = t.outLen.toNat - 1 →
    ∃ v, exec .unpack u = .next v ∧ v.err = .emptyInput)

/-- 42_pack.md rule R141, corner case, from 40_frequency_tree.md rule R101 and 41_codebook.md rule R121: FREQ, BUILD and
GENCODE on a legal input succeed, and a PACK with the codebook they leave, in any state that holds the same input, never
raises CODEBOOK_INCOMPLETE: it succeeds or overflows. -/
def Obligations.CompressionCodesEveryInputByte : Prop :=
  ∀ s : State, s.inLen ≠ 0 → s.inLen.toNat ≤ s.params.inSize →
    ∃ s1 s2 s3, exec .freq s = .next s1 ∧ exec .build s1 = .next s2 ∧ exec .gencode s2 = .next s3 ∧
      s1.err = .noError ∧ s2.err = .noError ∧ s3.err = .noError ∧ s3.prefixFree ∧
      ∀ u : State, u.params = s.params → u.inLen = s.inLen → inputBytes u = inputBytes s →
        u.cbLen = s3.cbLen → u.cbCode = s3.cbCode →
        ∃ t, exec .pack u = .next t ∧ (t.err = .noError ∨ t.err = .outputOverflow)
end

