-- ==== Sys2Proof/Laws/BitString.lean ====
section
/-! SUPPORT. Laws of bit strings: their conversions to numbers and bytes invert each other, and the stream order. -/

namespace Sys2Proof.Machine

@[simp] theorem length_strOf (n v : Nat) : (strOf n v).length = n := by simp [strOf]

theorem getElem_strOf (n v i : Nat) (h : i < (strOf n v).length) :
    (strOf n v)[i] = v.testBit (n - 1 - i) := by
  simp [strOf]

/-- The first symbol is the most significant bit. -/
theorem strOf_succ (n v : Nat) : strOf (n + 1) v = v.testBit n :: strOf n v := by
  apply List.ext_getElem
  · simp
  · intro i h1 h2
    rw [getElem_strOf]
    cases i with
    | zero => simp
    | succ i =>
      simp only [List.getElem_cons_succ]
      rw [getElem_strOf]
      congr 1
      omega

@[simp] theorem valOf_nil : valOf [] = 0 := rfl

theorem valOf_foldl (s : BitString) :
    ∀ acc : Nat, s.foldl (fun acc b => 2 * acc + b.toNat) acc = acc * 2 ^ s.length + valOf s := by
  induction s with
  | nil => intro acc; simp [valOf]
  | cons b s ih =>
    intro acc
    rw [List.foldl_cons, ih]
    conv_rhs => rw [valOf, List.foldl_cons, ih]
    simp only [List.length_cons, pow_succ]
    ring

/-- A string is worth its first symbol times its place, plus the rest. -/
theorem valOf_cons (b : Bool) (s : BitString) : valOf (b :: s) = b.toNat * 2 ^ s.length + valOf s := by
  rw [valOf, List.foldl_cons, valOf_foldl]
  simp

theorem valOf_append (s t : BitString) : valOf (s ++ t) = valOf s * 2 ^ t.length + valOf t := by
  rw [valOf, List.foldl_append, valOf_foldl]
  rfl

/-- 00_scope.md rule R14: `val(s)` is the sum of `s(i)·2^(|s|−1−i)`. -/
theorem valOf_eq_sum (s : BitString) :
    valOf s = ∑ i : Fin s.length, s[i].toNat * 2 ^ (s.length - 1 - i) := by
  induction s with
  | nil => simp
  | cons b s ih =>
    rw [valOf_cons, ih]
    simp only [List.length_cons]
    rw [Fin.sum_univ_succ]
    congr 1
    apply Finset.sum_congr rfl
    intro i _
    simp only [Fin.getElem_fin, Fin.val_succ, List.getElem_cons_succ]
    congr 2
    omega

theorem valOf_lt (s : BitString) : valOf s < 2 ^ s.length := by
  induction s with
  | nil => simp
  | cons b s ih =>
    rw [valOf_cons, List.length_cons, pow_succ]
    cases b <;> simp <;> omega

/-- A string is the string of its value. -/
theorem strOf_valOf (s : BitString) : strOf s.length (valOf s) = s := by
  induction s with
  | nil => simp [strOf]
  | cons b s ih =>
    rw [List.length_cons, strOf_succ, valOf_cons]
    have hlt := valOf_lt s
    congr 1
    · cases b
      · simpa using Nat.testBit_lt_two_pow hlt
      · simp [Nat.testBit_two_pow_add_eq, Nat.testBit_lt_two_pow hlt]
    · conv_rhs => rw [← ih]
      apply List.ext_getElem
      · simp
      · intro i h1 h2
        rw [getElem_strOf, getElem_strOf]
        simp only [length_strOf] at h1
        cases b
        · simp
        · simp only [Bool.toNat_true, one_mul]
          exact Nat.testBit_two_pow_add_gt (by omega) _

/-- Only the low bits count. -/
theorem strOf_congr (n v w : Nat) (h : ∀ j < n, v.testBit j = w.testBit j) : strOf n v = strOf n w := by
  apply List.ext_getElem
  · simp
  · intro i h1 h2
    rw [getElem_strOf, getElem_strOf]
    simp only [length_strOf] at h1
    exact h _ (by omega)

/-- The value of the string of a number is the number, cut to the string's length. -/
theorem valOf_strOf (n v : Nat) : valOf (strOf n v) = v % 2 ^ n := by
  induction n with
  | zero => simp [strOf, valOf, Nat.mod_one]
  | succ n ih =>
    rw [strOf_succ, valOf_cons, ih, length_strOf]
    apply Nat.eq_of_testBit_eq
    intro i
    have hlt : v % 2 ^ n < 2 ^ n := Nat.mod_lt _ (by positivity)
    cases hb : v.testBit n
    · simp only [Bool.toNat_false, zero_mul, zero_add, Nat.testBit_mod_two_pow]
      by_cases hi : i = n
      · subst hi; simp [hb]
      · have : (i < n) = (i < n + 1) := by simp; omega
        simp [this]
    · simp only [Bool.toNat_true, one_mul, Nat.testBit_mod_two_pow]
      by_cases hi : i = n
      · subst hi; simp [Nat.testBit_two_pow_add_eq, Nat.testBit_mod_two_pow, hb]
      · by_cases hi' : i < n
        · rw [Nat.testBit_two_pow_add_gt hi']
          simp [Nat.testBit_mod_two_pow, hi', Nat.lt_succ_of_lt hi']
        · have h1 : 2 ^ n + v % 2 ^ n < 2 ^ (n + 1) := by rw [pow_succ]; omega
          have h2 : 2 ^ (n + 1) ≤ 2 ^ i := Nat.pow_le_pow_right (by norm_num) (by omega)
          rw [Nat.testBit_lt_two_pow (lt_of_lt_of_le h1 h2)]
          have : ¬ i < n + 1 := by omega
          simp [this]

@[simp] theorem length_bitsOf (b : Byte) : (bitsOf b).length = 8 := by simp [bitsOf]

/-- A byte is the byte of its bits. -/
@[simp] theorem byteOfBits_bitsOf (b : Byte) : byteOfBits (bitsOf b) = b := by
  unfold byteOfBits bitsOf
  rw [valOf_strOf]
  apply BitVec.eq_of_toNat_eq
  have := b.isLt
  simp only [BitVec.toNat_ofNat]
  omega

/-- Eight bits are the bits of their byte. -/
theorem bitsOf_byteOfBits (s : BitString) (h : s.length = 8) : bitsOf (byteOfBits s) = s := by
  unfold byteOfBits bitsOf
  have hlt := valOf_lt s
  rw [h] at hlt
  simp only [BitVec.toNat_ofNat, Nat.mod_eq_of_lt hlt]
  conv_lhs => rw [← h]
  exact strOf_valOf s

@[simp] theorem streamBits_nil : streamBits [] = [] := rfl

@[simp] theorem streamBits_cons (b : Byte) (bs : List Byte) : streamBits (b :: bs) = bitsOf b ++ streamBits bs := by
  simp [streamBits]

theorem streamBits_append (xs ys : List Byte) : streamBits (xs ++ ys) = streamBits xs ++ streamBits ys := by
  simp [streamBits]

@[simp] theorem length_streamBits (bs : List Byte) : (streamBits bs).length = 8 * bs.length := by
  induction bs with
  | nil => rfl
  | cons b bs ih => simp [ih]; omega

/-- 20_memory.md rule R65: stream bit t is bit `7 − (t mod 8)` of byte `t div 8`. -/
theorem getElem_streamBits (bs : List Byte) :
    ∀ (t : Nat) (h : t < (streamBits bs).length),
      (streamBits bs)[t] = (bs[t / 8]'(by simp at h; omega)).getLsbD (7 - t % 8) := by
  induction bs with
  | nil => intro t h; simp at h
  | cons b bs ih =>
    intro t h
    simp only [streamBits_cons] at h ⊢
    by_cases ht : t < 8
    · have h0 : t / 8 = 0 := by omega
      rw [List.getElem_append_left (by simpa using ht)]
      simp only [h0, List.getElem_cons_zero, Nat.mod_eq_of_lt ht]
      simp [bitsOf, strOf, BitVec.getLsbD]
    · rw [List.getElem_append_right (by simpa using Nat.not_lt.1 ht)]
      simp only [length_bitsOf]
      rw [ih]
      · have h1 : t / 8 = (t - 8) / 8 + 1 := by omega
        simp only [h1, List.getElem_cons_succ]
        congr 2
        omega

/-- The bytes of a string of whole bytes: their number. -/
theorem length_bytesOfBits (n : Nat) : ∀ s : BitString, s.length = 8 * n → (bytesOfBits s).length = n := by
  induction n with
  | zero => intro s h; rw [List.length_eq_zero_iff.1 (by omega : s.length = 0)]; rfl
  | succ n ih =>
    intro s h
    match s, h with
    | b0 :: b1 :: b2 :: b3 :: b4 :: b5 :: b6 :: b7 :: rest, h =>
      simp only [List.length_cons] at h
      simp [bytesOfBits, ih rest (by omega)]

/-- 42_pack.md rule R145: the stream of the bytes of a string of whole bytes is the string. -/
theorem streamBits_bytesOfBits (n : Nat) : ∀ s : BitString, s.length = 8 * n → streamBits (bytesOfBits s) = s := by
  induction n with
  | zero => intro s h; rw [List.length_eq_zero_iff.1 (by omega : s.length = 0)]; rfl
  | succ n ih =>
    intro s h
    match s, h with
    | b0 :: b1 :: b2 :: b3 :: b4 :: b5 :: b6 :: b7 :: rest, h =>
      simp only [List.length_cons] at h
      rw [bytesOfBits, streamBits_cons, ih rest (by omega), bitsOf_byteOfBits _ rfl]
      rfl

/-- The padding reaches the next multiple of 8. -/
theorem paddingOf_spec (t : Nat) :
    paddingOf t ≤ 7 ∧ (t + paddingOf t) % 8 = 0 ∧ (t + paddingOf t) / 8 = bytesFor t := by
  unfold paddingOf bytesFor
  omega

@[simp] theorem length_padded (s : BitString) : (padded s).length = 8 * bytesFor s.length := by
  have := paddingOf_spec s.length
  simp [padded]
  omega

@[simp] theorem length_bytesOf_padded (s : BitString) : (bytesOfBits (padded s)).length = bytesFor s.length :=
  length_bytesOfBits _ _ (length_padded s)

@[simp] theorem streamBits_bytesOf_padded (s : BitString) : streamBits (bytesOfBits (padded s)) = padded s :=
  streamBits_bytesOfBits _ _ (length_padded s)

theorem prefixOf_iff (s t : BitString) : prefixOf s t = true ↔ s <+: t := by
  simp [prefixOf, List.isPrefixOf_iff_prefix]

end Sys2Proof.Machine
end

