-- ==== Sys2Proof/Laws/Memory.lean ====
section
/-! SUPPORT. Laws of the byte memories: what is read after a write, and that every operation keeps the canonical
form. -/

namespace Sys2Proof.Machine

theorem lookup_insert_same (a : Nat) (v : Byte) (cs : List Host.Cell) :
    lookupCell (insertCell a v cs) a = some v := by
  induction cs with
  | nil => simp [insertCell, lookupCell]
  | cons c cs ih =>
    obtain ⟨k, w⟩ := c
    simp only [insertCell]
    split
    · simp [lookupCell]
    · split
      · simp [lookupCell]
      · next h => simp [lookupCell, ih]; intro e; exact absurd e.symm h

theorem lookup_insert_other (a b : Nat) (v : Byte) (cs : List Host.Cell) (h : b ≠ a) :
    lookupCell (insertCell a v cs) b = lookupCell cs b := by
  induction cs with
  | nil => simp [insertCell, lookupCell, Ne.symm h]
  | cons c cs ih =>
    obtain ⟨k, w⟩ := c
    simp only [insertCell]
    split
    · simp [lookupCell, Ne.symm h]
    · split
      · next e => subst e; simp [lookupCell, Ne.symm h]
      · simp [lookupCell, ih]

@[simp] theorem byteAt_write_same (m : Memory) (a n : Nat) (v : Byte) : (m.write a v).byteAt n a = v := by
  simp [Memory.byteAt, Memory.write, lookup_insert_same]

theorem byteAt_write_other (m : Memory) (a b n : Nat) (v : Byte) (h : b ≠ a) :
    (m.write a v).byteAt n b = m.byteAt n b := by
  simp [Memory.byteAt, Memory.write, lookup_insert_other _ _ _ _ h]

/-- Outside the bytes written, a memory reads as before. -/
theorem byteAt_writeBytes_outside (vs : List Byte) :
    ∀ (m : Memory) (a b n : Nat), b < a ∨ a + vs.length ≤ b → (m.writeBytes a vs).byteAt n b = m.byteAt n b := by
  induction vs with
  | nil => intros; rfl
  | cons v vs ih =>
    intro m a b n h
    simp only [List.length_cons] at h
    rw [Memory.writeBytes, byteAt_write_other _ _ _ _ _ (by omega), ih _ _ _ _ (by omega)]

/-- Where it was written, a memory reads what was written. -/
theorem byteAt_writeBytes_inside (vs : List Byte) :
    ∀ (m : Memory) (a i n : Nat) (h : i < vs.length), (m.writeBytes a vs).byteAt n (a + i) = vs[i] := by
  induction vs with
  | nil => intro m a i n h; simp at h
  | cons v vs ih =>
    intro m a i n h
    cases i with
    | zero => simp [Memory.writeBytes]
    | succ i =>
      have hi : i < vs.length := by simpa using h
      rw [Memory.writeBytes, byteAt_write_other _ _ _ _ _ (by omega)]
      have := ih m (a + 1) i n hi
      rw [show a + (i + 1) = a + 1 + i by omega, this]
      simp

/-- Reading back a whole list written at 0. -/
theorem read_writeBytes (m : Memory) (vs : List Byte) (n : Nat) :
    (List.range vs.length).map ((m.writeBytes 0 vs).byteAt n) = vs := by
  apply List.ext_getElem
  · simp
  · intro i h1 h2
    have := byteAt_writeBytes_inside vs m 0 i n h2
    simpa using this

/-- Where the same bytes were written, two memories read alike. -/
theorem byteAt_writeBytes_agree (vs : List Byte) (m m' : Memory) (a n : Nat) (h : a < vs.length) :
    (m.writeBytes 0 vs).byteAt n a = (m'.writeBytes 0 vs).byteAt n a := by
  have key := fun k : Memory => byteAt_writeBytes_inside vs k 0 a n h
  simp only [Nat.zero_add] at key
  rw [key, key]

/-! ### The canonical form -/

/-- The addresses of the cells. -/
def addresses (cs : List Host.Cell) : List Nat := cs.map Prod.fst

theorem risingCells_iff (cs : List Host.Cell) :
    risingCells cs = true ↔ (addresses cs).Pairwise (· < ·) := by
  induction cs with
  | nil => simp [risingCells, addresses]
  | cons c cs ih =>
    cases cs with
    | nil => simp [risingCells, addresses]
    | cons d ds =>
      obtain ⟨a, v⟩ := c
      obtain ⟨b, w⟩ := d
      simp only [risingCells, Bool.and_eq_true, decide_eq_true_eq, ih]
      simp only [addresses, List.map_cons, List.pairwise_cons, List.mem_cons]
      constructor
      · rintro ⟨h1, h2, h3⟩
        refine ⟨?_, h2, h3⟩
        rintro x (rfl | hx)
        · exact h1
        · exact lt_trans h1 (h2 x hx)
      · rintro ⟨h1, h2, h3⟩
        exact ⟨h1 b (Or.inl rfl), h2, h3⟩

theorem mem_addresses_insert (a x : Nat) (v : Byte) (cs : List Host.Cell) :
    x ∈ addresses (insertCell a v cs) ↔ x = a ∨ x ∈ addresses cs := by
  induction cs with
  | nil => simp [insertCell, addresses]
  | cons c cs ih =>
    obtain ⟨k, w⟩ := c
    simp only [insertCell]
    split
    · simp [addresses]
    · split
      · next h => subst h; simp [addresses]
      · simp only [addresses, List.map_cons, List.mem_cons] at ih ⊢
        rw [ih]; tauto

theorem risingCells_insert (a : Nat) (v : Byte) (cs : List Host.Cell) (h : risingCells cs = true) :
    risingCells (insertCell a v cs) = true := by
  rw [risingCells_iff] at h ⊢
  induction cs with
  | nil => simp [insertCell, addresses]
  | cons c cs ih =>
    obtain ⟨k, w⟩ := c
    have hk := List.pairwise_cons.1 h
    simp only [insertCell]
    split
    · next hlt =>
      refine List.pairwise_cons.2 ⟨?_, h⟩
      intro x hx
      rcases List.mem_cons.1 hx with rfl | hx
      · exact hlt
      · exact lt_trans hlt (hk.1 x hx)
    · split
      · next e => subst e; exact h
      · next h1 h2 =>
        refine List.pairwise_cons.2 ⟨?_, ih hk.2⟩
        intro x hx
        rcases (mem_addresses_insert a x v cs).1 hx with rfl | hx
        · show k < x
          omega
        · exact hk.1 x hx

theorem memory_wf_iff (m : Memory) (size : Nat) :
    m.wf size = true ↔ risingCells m.cells = true ∧ ∀ x ∈ addresses m.cells, x < size := by
  simp [Memory.wf, addresses]

/-- A write inside the memory keeps the canonical form. -/
theorem write_keeps_wf (m : Memory) (a size : Nat) (v : Byte) (h : m.wf size = true) (ha : a < size) :
    (m.write a v).wf size = true := by
  rw [memory_wf_iff] at h ⊢
  refine ⟨risingCells_insert a v _ h.1, ?_⟩
  intro x hx
  rcases (mem_addresses_insert a x v _).1 hx with rfl | hx
  · exact ha
  · exact h.2 x hx

/-- A write of a list inside the memory keeps the canonical form. -/
theorem writeBytes_keeps_wf (vs : List Byte) :
    ∀ (m : Memory) (a size : Nat), m.wf size = true → a + vs.length ≤ size →
      (m.writeBytes a vs).wf size = true := by
  induction vs with
  | nil => intro m a size h _; exact h
  | cons v vs ih =>
    intro m a size h hl
    simp only [List.length_cons] at hl
    exact write_keeps_wf _ _ _ _ (ih m (a + 1) size h (by omega)) (by omega)

@[simp] theorem length_lanes (v : Word) : (lanes v).length = 4 := rfl

theorem writeWord_keeps_wf (m : Memory) (a size : Nat) (v : Word) (h : m.wf size = true) (ha : a + 3 < size) :
    (m.writeWord a v).wf size = true :=
  writeBytes_keeps_wf _ _ _ _ h (by simp; omega)

@[simp] theorem unwritten_wf (size : Nat) : Memory.unwritten.wf size = true := by
  simp [Memory.wf, Memory.unwritten, risingCells]

@[simp] theorem scramble_wf (k size : Nat) : (Memory.scramble k).wf size = true := by
  simp [Memory.wf, Memory.scramble, risingCells]

end Sys2Proof.Machine
end

