-- ==== Sys2Proof/Laws/Table.lean ====
section
/-! SUPPORT. Laws of the tables of 256 entries and of the list of all symbols. -/

namespace Sys2Proof.Machine

@[simp] theorem table_at_all {α : Type} (v : α) (b : Byte) : (Table.all v).at b = v := by
  simp [Table.all, Table.at]

@[simp] theorem table_at_put_same {α : Type} (t : Table α) (b : Byte) (v : α) : (t.put b v).at b = v := by
  simp [Table.put, Table.at]

theorem table_at_put_other {α : Type} (t : Table α) (b c : Byte) (v : α) (h : c ≠ b) :
    (t.put b v).at c = t.at c := by
  have : b.toNat ≠ c.toNat := fun e => h (BitVec.eq_of_toNat_eq e.symm)
  simp [Table.put, Table.at, this]

theorem table_at_put {α : Type} (t : Table α) (b c : Byte) (v : α) :
    (t.put b v).at c = if c = b then v else t.at c := by
  split
  · next h => subst h; simp
  · next h => exact table_at_put_other t b c v h

/-- Two tables with equal entries are equal. -/
theorem table_ext {α : Type} {t u : Table α} (h : ∀ b, t.at b = u.at b) : t = u := by
  apply Vector.ext
  intro i hi
  have := h (BitVec.ofNat 8 i)
  simpa [Table.at, Nat.mod_eq_of_lt hi] using this

/-- The reset tables are tables of one value. -/
theorem replicate_eq_all {α : Type} (v : α) : (Vector.replicate 256 v : Table α) = Table.all v := rfl

@[simp] theorem length_allSymbols : allSymbols.length = 256 := by simp [allSymbols]

theorem getElem_allSymbols (i : Nat) (h : i < allSymbols.length) : allSymbols[i] = BitVec.ofNat 8 i := by
  simp [allSymbols]

@[simp] theorem mem_allSymbols (b : Byte) : b ∈ allSymbols := by
  unfold allSymbols
  refine List.mem_map.2 ⟨b.toNat, List.mem_range.2 b.isLt, ?_⟩
  simp

/-- The symbols ascend. -/
theorem allSymbols_ascend : allSymbols.Pairwise (fun a b => a.toNat < b.toNat) := by
  rw [List.pairwise_iff_getElem]
  intro i j hi hj hij
  rw [getElem_allSymbols, getElem_allSymbols]
  simp only [length_allSymbols] at hi hj
  simp [Nat.mod_eq_of_lt hi, Nat.mod_eq_of_lt hj, hij]

theorem allSymbols_nodup : allSymbols.Nodup :=
  allSymbols_ascend.imp fun h e => by simp [e] at h

end Sys2Proof.Machine
end

