-- ==== Sys2Proof/Laws/Bus.lean ====
section
/-! SUPPORT. The registers by name, the regions of the HCC space, and everything a host access can answer. -/

namespace Sys2Proof.Machine

/-! ### The register map -/

/-- The names that the lookup of an offset can give. -/
theorem lookup_mem (l : List (Nat × Reg)) (off : Nat) (r : Reg) (h : l.lookup off = some r) : (off, r) ∈ l := by
  induction l with
  | nil => cases h
  | cons x rest ih =>
    obtain ⟨k, v⟩ := x
    rw [List.lookup_cons] at h
    by_cases hk : off = k
    · subst hk
      simp only [beq_self_eq_true, Option.some.injEq] at h
      subst h
      exact List.mem_cons_self
    · rw [beq_false_of_ne hk] at h
      exact List.mem_cons_of_mem _ (ih h)

/-- A named register lies at its offset of the map. -/
theorem regAt_mem (off : Nat) (r : Reg) (h : regAt off = r) (hr : r ≠ .reserved) : (off, r) ∈ registerMap := by
  unfold regAt at h
  cases hl : registerMap.lookup off with
  | none => rw [hl] at h; exact absurd h.symm hr
  | some v =>
    rw [hl] at h
    exact lookup_mem _ _ _ (by rw [hl]; exact congrArg some h)

theorem registerMap_below : ∀ e ∈ registerMap, e.1 < 0x07C := by decide

/-- The offsets from 0x07C on are reserved (10_state.md rule R22). -/
theorem regAt_reserved (off : Nat) (h : 0x07C ≤ off) : regAt off = .reserved := by
  by_contra hr
  have := registerMap_below _ (regAt_mem off _ rfl hr)
  simp only at this
  omega

theorem writableBusy_map : ∀ e ∈ registerMap, e.2.writableBusy = true ↔ e.1 = 0x004 ∨ e.1 = 0x008 ∨ e.1 = 0x00C := by
  decide

/-- The registers that may be written while a command runs are CTRL, STATUS and CMD. -/
theorem writableBusy_iff (off : Nat) :
    (regAt off).writableBusy = true ↔ off = 0x004 ∨ off = 0x008 ∨ off = 0x00C := by
  constructor
  · intro h
    have hr : regAt off ≠ .reserved := fun e => by rw [e] at h; cases h
    exact (writableBusy_map _ (regAt_mem off _ rfl hr)).1 h
  · rintro (rfl | rfl | rfl) <;> rfl

theorem ctrl_at (off : Nat) (h : regAt off = .ctrl) : off = 0x004 :=
  have key : ∀ e ∈ registerMap, e.2 = .ctrl → e.1 = 0x004 := by decide
  key _ (regAt_mem off _ h (by decide)) rfl

theorem status_at (off : Nat) (h : regAt off = .status) : off = 0x008 :=
  have key : ∀ e ∈ registerMap, e.2 = .status → e.1 = 0x008 := by decide
  key _ (regAt_mem off _ h (by decide)) rfl

theorem cmd_at (off : Nat) (h : regAt off = .cmd) : off = 0x00C :=
  have key : ∀ e ∈ registerMap, e.2 = .cmd → e.1 = 0x00C := by decide
  key _ (regAt_mem off _ h (by decide)) rfl

/-! ### The regions -/

theorem regionOf_page (p : Params) (off : Word) (h : off.toNat < 0x1000) : regionOf p off = .page off.toNat := by
  simp [regionOf, h]

theorem regionOf_input (p : Params) (off : Word) (a : Nat) (ha : off.toNat = inBase + a) (h : a < p.inSize) :
    regionOf p off = .input a := by
  simp only [inBase] at ha
  unfold regionOf
  rw [if_neg (by omega), if_pos (by simp only [inBase]; omega)]
  simp only [inBase, Region.input.injEq]
  omega

theorem regionOf_output (p : Params) (off : Word) (a : Nat) (ha : off.toNat = outBase + a) (hp : p.inSize ≤ 2 ^ 24)
    (h : a < p.outSize) : regionOf p off = .output a := by
  simp only [outBase] at ha
  unfold regionOf
  rw [if_neg (by omega), if_neg (by simp only [inBase]; omega), if_pos (by simp only [outBase]; omega)]
  simp only [outBase, Region.output.injEq]
  omega

/-- What each region says of the offset. -/
theorem regionOf_cases (p : Params) (off : Word) :
    (regionOf p off = .page off.toNat ∧ off.toNat < 0x1000) ∨
    (∃ a, regionOf p off = .input a ∧ off.toNat = inBase + a ∧ a < p.inSize) ∨
    (∃ a, regionOf p off = .output a ∧ off.toNat = outBase + a ∧ a < p.outSize) ∨
    (regionOf p off = .unmapped ∧ 0x1000 ≤ off.toNat ∧ ¬ (inBase ≤ off.toNat ∧ off.toNat < inBase + p.inSize) ∧
      ¬ (outBase ≤ off.toNat ∧ off.toNat < outBase + p.outSize)) := by
  unfold regionOf
  split_ifs with h1 h2 h3
  · exact Or.inl ⟨rfl, h1⟩
  · exact Or.inr (Or.inl ⟨_, rfl, by omega, by omega⟩)
  · exact Or.inr (Or.inr (Or.inl ⟨_, rfl, by omega, by omega⟩))
  · exact Or.inr (Or.inr (Or.inr ⟨rfl, by omega, h2, h3⟩))

theorem params_wf_iff (p : Params) : p.wf = true ↔
    1 ≤ p.inSize ∧ p.inSize ≤ 2 ^ 24 ∧ 1 ≤ p.outSize ∧ p.outSize ≤ 2 ^ 24 ∧ p.inSize + 1 ≤ 2 ^ p.cntW ∧ p.cntW ≤ 32 := by
  simp [Params.wf, and_assoc]

theorem wordFits_iff (a size : Nat) : wordFits a size = true ↔ a % 4 = 0 ∧ a + 3 < size := by
  simp [wordFits]

theorem whenIdle_fault (off : Word) (s t : State) (e : Fault) : whenIdle off s t ≠ .fault e := by
  unfold whenIdle
  split <;> simp

theorem whenIdle_idle (off : Word) (s t : State) (h : s.busy = false) : whenIdle off s t = .next t := by
  simp [whenIdle, h]

theorem whenIdle_busy (off : Word) (s t : State) (h : s.busy = true) :
    whenIdle off s t = .refused (.hostDutyBreach off) := by
  simp [whenIdle, h]

/-! ### What an access answers -/

/-- Everything a host access that is made can do. -/
theorem hostAccess_next (a : HostAccess) (s t : State) (h : hostAccess a s = .next t) :
    (isWrite a = false ∧ ∃ v, t = { s with reply := some v }) ∨
    (isWrite a = true ∧ s.busy = false ∧ ∃ b v, b < s.params.inSize ∧ t = { s with inMem := s.inMem.write b v }) ∨
    (isWrite a = true ∧ s.busy = false ∧ ∃ b v, b + 3 < s.params.inSize ∧ t = { s with inMem := s.inMem.writeWord b v }) ∨
    (isWrite a = true ∧ s.busy = false ∧ ∃ b v, b < s.params.outSize ∧ t = { s with outMem := s.outMem.write b v }) ∨
    (isWrite a = true ∧ s.busy = false ∧ ∃ b v, b + 3 < s.params.outSize ∧ t = { s with outMem := s.outMem.writeWord b v }) ∨
    (∃ off v, a = .wr32 off v ∧ off.toNat < 0x1000 ∧ t = writeReg (regAt off.toNat) v s ∧
      (s.busy = true → (regAt off.toNat).writableBusy = true)) := by
  have hidle : ∀ off u, whenIdle off s u = .next t → s.busy = false ∧ t = u := by
    intro off u hu
    unfold whenIdle at hu
    split at hu
    · cases hu
    · next hb => cases hu; exact ⟨by simpa using hb, rfl⟩
  cases a with
  | rd8 off =>
    simp only [hostAccess, hostRead8] at h
    split at h <;> first | (cases h; exact Or.inl ⟨rfl, _, rfl⟩) | cases h
  | rd32 off =>
    simp only [hostAccess, hostRead32] at h
    split at h
    · split at h <;> first | (cases h; exact Or.inl ⟨rfl, _, rfl⟩) | cases h
    · split at h <;> first | (cases h; exact Or.inl ⟨rfl, _, rfl⟩) | cases h
    · split at h <;> first | (cases h; exact Or.inl ⟨rfl, _, rfl⟩) | cases h
    · cases h
  | wr8 off v =>
    simp only [hostAccess, hostWrite8] at h
    rcases regionOf_cases s.params off with ⟨hr, hl⟩ | ⟨b, hr, hb, hl⟩ | ⟨b, hr, hb, hl⟩ | ⟨hr, -⟩ <;> rw [hr] at h
    · cases h
    · obtain ⟨hi, rfl⟩ := hidle _ _ h
      exact Or.inr (Or.inl ⟨rfl, hi, b, v, hl, rfl⟩)
    · obtain ⟨hi, rfl⟩ := hidle _ _ h
      exact Or.inr (Or.inr (Or.inr (Or.inl ⟨rfl, hi, b, v, hl, rfl⟩)))
    · cases h
  | wr32 off v =>
    simp only [hostAccess, hostWrite32] at h
    rcases regionOf_cases s.params off with ⟨hr, hl⟩ | ⟨b, hr, hb, hl⟩ | ⟨b, hr, hb, hl⟩ | ⟨hr, -⟩ <;> rw [hr] at h
    · simp only at h
      split at h
      · split at h
        · next hw => cases h; exact Or.inr (Or.inr (Or.inr (Or.inr (Or.inr ⟨off, v, rfl, hl, rfl, fun _ => hw⟩))))
        · obtain ⟨hi, rfl⟩ := hidle _ _ h
          exact Or.inr (Or.inr (Or.inr (Or.inr (Or.inr ⟨off, v, rfl, hl, rfl, fun hb => by rw [hi] at hb; cases hb⟩))))
      · cases h
    · simp only at h
      split at h
      · next hw =>
        obtain ⟨hi, rfl⟩ := hidle _ _ h
        simp only [wordFits, Bool.and_eq_true, decide_eq_true_eq] at hw
        exact Or.inr (Or.inr (Or.inl ⟨rfl, hi, b, v, hw.2, rfl⟩))
      · cases h
    · simp only at h
      split at h
      · next hw =>
        obtain ⟨hi, rfl⟩ := hidle _ _ h
        simp only [wordFits, Bool.and_eq_true, decide_eq_true_eq] at hw
        exact Or.inr (Or.inr (Or.inr (Or.inr (Or.inl ⟨rfl, hi, b, v, hw.2, rfl⟩))))
      · cases h
    · cases h
  | otherWidth off bits => cases h

/-- A 32-bit read in the register page. -/
theorem rd32_page (s : State) (off : Word) (h : off.toNat < 0x1000) (h4 : off.toNat % 4 = 0) :
    hostAccess (.rd32 off) s = .next { s with reply := some (readReg (regAt off.toNat) s) } := by
  simp [hostAccess, hostRead32, regionOf_page _ _ h, h4, returns]

/-- A 32-bit write in the register page while idle. -/
theorem wr32_page_idle (s : State) (off v : Word) (h : off.toNat < 0x1000) (h4 : off.toNat % 4 = 0)
    (hb : s.busy = false) : hostAccess (.wr32 off v) s = .next (writeReg (regAt off.toNat) v s) := by
  simp [hostAccess, hostWrite32, regionOf_page _ _ h, h4, whenIdle, hb]

/-- A 32-bit write of CTRL, STATUS or CMD, at any time. -/
theorem wr32_page_always (s : State) (off v : Word) (h : off.toNat = 0x004 ∨ off.toNat = 0x008 ∨ off.toNat = 0x00C) :
    hostAccess (.wr32 off v) s = .next (writeReg (regAt off.toNat) v s) := by
  have hw := (writableBusy_iff off.toNat).2 h
  have hl : off.toNat < 0x1000 := by omega
  have h4 : off.toNat % 4 = 0 := by omega
  simp [hostAccess, hostWrite32, regionOf_page _ _ hl, h4, hw]

/-- An idle machine reads registers at their values. -/
theorem readReg_idle (r : Reg) (s : State) (h : s.busy = false) : readReg r s = regValue r s := by
  simp [readReg, h]

/-- A host write of a register by its name while idle. -/
theorem wr32_register (s : State) (off v : Word) (r : Reg) (hb : s.busy = false) (h : off.toNat < 0x1000)
    (h4 : off.toNat % 4 = 0) (hr : regAt off.toNat = r) :
    hostAccess (.wr32 off v) s = .next (writeReg r v s) := by
  rw [wr32_page_idle s off v h h4 hb, hr]

/-- A host read of a register by its name while idle. -/
theorem rd32_register (s : State) (off : Word) (r : Reg) (hb : s.busy = false) (h : off.toNat < 0x1000)
    (h4 : off.toNat % 4 = 0) (hr : regAt off.toNat = r) :
    hostAccess (.rd32 off) s = .next { s with reply := some (regValue r s) } := by
  rw [rd32_page s off h h4, hr, readReg_idle _ _ hb]

/-- A host read, in any state, of a register that stays readable while a command runs. -/
theorem rd32_always (s : State) (off : Word) (r : Reg) (h : off.toNat < 0x1000) (h4 : off.toNat % 4 = 0)
    (hr : regAt off.toNat = r) (hw : r.readableBusy = true) :
    hostAccess (.rd32 off) s = .next { s with reply := some (regValue r s) } := by
  rw [rd32_page s off h h4, hr, readReg, hw]
  simp

/-! ### Accesses to the windows -/

theorem rd8_input (s : State) (off : Word) (a : Nat) (ha : off.toNat = inBase + a) (h : a < s.params.inSize) :
    hostAccess (.rd8 off) s = .next { s with reply := some ((s.inMem.byteAt s.draws a).setWidth 32) } := by
  simp [hostAccess, hostRead8, regionOf_input _ _ _ ha h, returns]

theorem rd8_output (s : State) (off : Word) (a : Nat) (ha : off.toNat = outBase + a) (hp : s.params.inSize ≤ 2 ^ 24)
    (h : a < s.params.outSize) (hb : s.busy = false) :
    hostAccess (.rd8 off) s = .next { s with reply := some ((s.outMem.byteAt s.draws a).setWidth 32) } := by
  simp [hostAccess, hostRead8, regionOf_output _ _ _ ha hp h, returns, hb]

theorem rd32_input (s : State) (off : Word) (a : Nat) (ha : off.toNat = inBase + a) (h4 : a % 4 = 0)
    (h : a + 3 < s.params.inSize) :
    hostAccess (.rd32 off) s = .next { s with reply := some (s.inMem.wordAt s.draws a) } := by
  simp [hostAccess, hostRead32, regionOf_input s.params off a ha (by omega), returns, (wordFits_iff _ _).2 ⟨h4, h⟩]

theorem rd32_output (s : State) (off : Word) (a : Nat) (ha : off.toNat = outBase + a) (hp : s.params.inSize ≤ 2 ^ 24)
    (h4 : a % 4 = 0) (h : a + 3 < s.params.outSize) (hb : s.busy = false) :
    hostAccess (.rd32 off) s = .next { s with reply := some (s.outMem.wordAt s.draws a) } := by
  simp [hostAccess, hostRead32, regionOf_output s.params off a ha hp (by omega), returns, (wordFits_iff _ _).2 ⟨h4, h⟩, hb]

theorem wr8_input (s : State) (off : Word) (v : Byte) (a : Nat) (ha : off.toNat = inBase + a)
    (h : a < s.params.inSize) (hb : s.busy = false) :
    hostAccess (.wr8 off v) s = .next { s with inMem := s.inMem.write a v } := by
  simp [hostAccess, hostWrite8, regionOf_input _ _ _ ha h, whenIdle_idle _ _ _ hb]

theorem wr8_output (s : State) (off : Word) (v : Byte) (a : Nat) (ha : off.toNat = outBase + a)
    (hp : s.params.inSize ≤ 2 ^ 24) (h : a < s.params.outSize) (hb : s.busy = false) :
    hostAccess (.wr8 off v) s = .next { s with outMem := s.outMem.write a v } := by
  simp [hostAccess, hostWrite8, regionOf_output _ _ _ ha hp h, whenIdle_idle _ _ _ hb]

theorem wr32_input (s : State) (off v : Word) (a : Nat) (ha : off.toNat = inBase + a) (h4 : a % 4 = 0)
    (h : a + 3 < s.params.inSize) (hb : s.busy = false) :
    hostAccess (.wr32 off v) s = .next { s with inMem := s.inMem.writeWord a v } := by
  simp [hostAccess, hostWrite32, regionOf_input s.params off a ha (by omega), whenIdle_idle _ _ _ hb,
    (wordFits_iff _ _).2 ⟨h4, h⟩]

theorem wr32_output (s : State) (off v : Word) (a : Nat) (ha : off.toNat = outBase + a) (hp : s.params.inSize ≤ 2 ^ 24)
    (h4 : a % 4 = 0) (h : a + 3 < s.params.outSize) (hb : s.busy = false) :
    hostAccess (.wr32 off v) s = .next { s with outMem := s.outMem.writeWord a v } := by
  simp [hostAccess, hostWrite32, regionOf_output s.params off a ha hp (by omega), whenIdle_idle _ _ _ hb,
    (wordFits_iff _ _).2 ⟨h4, h⟩]

/-! ### The lanes of a word -/

theorem lanes_get (v : Word) (i : Nat) (h : i < 4) : (lanes v)[i]? = some (v.extractLsb' (8 * i) 8) := by
  have : i = 0 ∨ i = 1 ∨ i = 2 ∨ i = 3 := by omega
  rcases this with rfl | rfl | rfl | rfl <;> rfl

/-- After a word is written each of its bytes is its lane. -/
theorem byteAt_writeWord_inside (m : Memory) (a n i : Nat) (v : Word) (h : i < 4) :
    (m.writeWord a v).byteAt n (a + i) = v.extractLsb' (8 * i) 8 := by
  have := byteAt_writeBytes_inside (lanes v) m a i n (by simpa using h)
  rw [Memory.writeWord, this, List.getElem_eq_iff]
  exact lanes_get v i h

theorem byteAt_writeWord_outside (m : Memory) (a b n : Nat) (v : Word) (h : b < a ∨ a + 3 < b) :
    (m.writeWord a v).byteAt n b = m.byteAt n b := by
  exact byteAt_writeBytes_outside (lanes v) m a b n (by simp; omega)

/-- Four lanes make the word. -/
theorem wordOfLanes (v : Word) :
    v.extractLsb' 24 8 ++ v.extractLsb' 16 8 ++ v.extractLsb' 8 8 ++ v.extractLsb' 0 8 = v := by
  apply BitVec.eq_of_getLsbD_eq
  intro j hj
  simp only [BitVec.getLsbD_append, BitVec.getLsbD_extractLsb']
  by_cases h1 : j < 8
  · simp [h1]
  · by_cases h2 : j < 16
    · simp [h1, show j - 8 < 8 by omega, show 8 + (j - 8) = j by omega]
    · by_cases h3 : j < 24
      · simp [h1, show ¬ j - 8 < 8 by omega, show j - 8 - 8 < 8 by omega, show 16 + (j - 8 - 8) = j by omega]
      · simp [h1, show ¬ j - 8 < 8 by omega, show ¬ j - 8 - 8 < 8 by omega, show j - 8 - 8 - 8 < 8 by omega,
          show 24 + (j - 8 - 8 - 8) = j by omega]

theorem wordAt_writeWord (m : Memory) (a n : Nat) (v : Word) : (m.writeWord a v).wordAt n a = v := by
  have h := fun i hi => byteAt_writeWord_inside m a n i v hi
  have h0 := h 0 (by omega)
  have h1 := h 1 (by omega)
  have h2 := h 2 (by omega)
  have h3 := h 3 (by omega)
  simp only [Nat.add_zero] at h0
  rw [Memory.wordAt, h0, h1, h2, h3]
  exact wordOfLanes v

/-- Each byte of a word that is read is its lane. -/
theorem extract_wordAt (m : Memory) (n a i : Nat) (h : i < 4) :
    (m.wordAt n a).extractLsb' (8 * i) 8 = m.byteAt n (a + i) := by
  apply BitVec.eq_of_getLsbD_eq
  intro j hj
  simp only [Memory.wordAt, BitVec.getLsbD_extractLsb', BitVec.getLsbD_append]
  have : i = 0 ∨ i = 1 ∨ i = 2 ∨ i = 3 := by omega
  rcases this with rfl | rfl | rfl | rfl
  · simp [hj]
  · simp [hj]
  · simp [hj, show ¬ 8 * 2 + j < 8 by omega, show ¬ 8 * 2 + j - 8 < 8 by omega,
      show 8 * 2 + j - 8 - 8 = j by omega]
  · simp [hj, show ¬ 8 * 3 + j < 8 by omega, show ¬ 8 * 3 + j - 8 < 8 by omega,
      show ¬ 8 * 3 + j - 8 - 8 < 8 by omega, show 8 * 3 + j - 8 - 8 - 8 = j by omega]

end Sys2Proof.Machine
end

