-- ==== Sys2Proof/Laws/State.lean ====
section
/-! SUPPORT. The fields of a state after each named update: one lemma for each field, true by unfolding, so that no later
proof unfolds an update. -/

namespace Sys2Proof.Machine

/-! ### Acceptance -/

@[simp] theorem accept_params (w : Word) (s : State) : (accept w s).params = s.params := rfl
@[simp] theorem accept_ie (w : Word) (s : State) : (accept w s).ie = s.ie := rfl
@[simp] theorem accept_done (w : Word) (s : State) : (accept w s).done = false := rfl
@[simp] theorem accept_ovr (w : Word) (s : State) : (accept w s).ovr = s.ovr := rfl
@[simp] theorem accept_treeValid (w : Word) (s : State) : (accept w s).treeValid = s.treeValid := rfl
@[simp] theorem accept_err (w : Word) (s : State) : (accept w s).err = .noError := rfl
@[simp] theorem accept_lastOp (w : Word) (s : State) : (accept w s).lastOp = opField w := rfl
@[simp] theorem accept_pending (w : Word) (s : State) : (accept w s).pending = some w := rfl
@[simp] theorem accept_inLen (w : Word) (s : State) : (accept w s).inLen = s.inLen := rfl
@[simp] theorem accept_outLen (w : Word) (s : State) : (accept w s).outLen = s.outLen := rfl
@[simp] theorem accept_pad (w : Word) (s : State) : (accept w s).pad = s.pad := rfl
@[simp] theorem accept_errPos (w : Word) (s : State) : (accept w s).errPos = 0 := rfl
@[simp] theorem accept_errAux (w : Word) (s : State) : (accept w s).errAux = 0 := rfl
@[simp] theorem accept_nLeaf (w : Word) (s : State) : (accept w s).nLeaf = s.nLeaf := rfl
@[simp] theorem accept_nNode (w : Word) (s : State) : (accept w s).nNode = s.nNode := rfl
@[simp] theorem accept_root (w : Word) (s : State) : (accept w s).root = s.root := rfl
@[simp] theorem accept_fSel (w : Word) (s : State) : (accept w s).fSel = s.fSel := rfl
@[simp] theorem accept_cbSel (w : Word) (s : State) : (accept w s).cbSel = s.cbSel := rfl
@[simp] theorem accept_nSel (w : Word) (s : State) : (accept w s).nSel = s.nSel := rfl
@[simp] theorem accept_freq (w : Word) (s : State) : (accept w s).freq = s.freq := rfl
@[simp] theorem accept_nodes (w : Word) (s : State) : (accept w s).nodes = s.nodes := rfl
@[simp] theorem accept_cbLen (w : Word) (s : State) : (accept w s).cbLen = s.cbLen := rfl
@[simp] theorem accept_cbCode (w : Word) (s : State) : (accept w s).cbCode = s.cbCode := rfl
@[simp] theorem accept_inMem (w : Word) (s : State) : (accept w s).inMem = s.inMem := rfl
@[simp] theorem accept_outMem (w : Word) (s : State) : (accept w s).outMem = s.outMem := rfl
@[simp] theorem accept_reply (w : Word) (s : State) : (accept w s).reply = s.reply := rfl
@[simp] theorem accept_draws (w : Word) (s : State) : (accept w s).draws = s.draws := rfl
@[simp] theorem accept_inputs (w : Word) (s : State) : (accept w s).inputs = s.inputs := rfl

/-! ### Completion -/

@[simp] theorem complete_params (e : CmdError) (s : State) : (complete e s).params = s.params := rfl
@[simp] theorem complete_ie (e : CmdError) (s : State) : (complete e s).ie = s.ie := rfl
@[simp] theorem complete_done (e : CmdError) (s : State) : (complete e s).done = true := rfl
@[simp] theorem complete_ovr (e : CmdError) (s : State) : (complete e s).ovr = s.ovr := rfl
@[simp] theorem complete_treeValid (e : CmdError) (s : State) : (complete e s).treeValid = s.treeValid := rfl
@[simp] theorem complete_err (e : CmdError) (s : State) : (complete e s).err = e.code := rfl
@[simp] theorem complete_lastOp (e : CmdError) (s : State) : (complete e s).lastOp = s.lastOp := rfl
@[simp] theorem complete_pending (e : CmdError) (s : State) : (complete e s).pending = none := rfl
@[simp] theorem complete_inLen (e : CmdError) (s : State) : (complete e s).inLen = s.inLen := rfl
@[simp] theorem complete_outLen (e : CmdError) (s : State) : (complete e s).outLen = s.outLen := rfl
@[simp] theorem complete_pad (e : CmdError) (s : State) : (complete e s).pad = s.pad := rfl
@[simp] theorem complete_errPos (e : CmdError) (s : State) : (complete e s).errPos = e.pos := rfl
@[simp] theorem complete_errAux (e : CmdError) (s : State) : (complete e s).errAux = e.aux := rfl
@[simp] theorem complete_nLeaf (e : CmdError) (s : State) : (complete e s).nLeaf = s.nLeaf := rfl
@[simp] theorem complete_nNode (e : CmdError) (s : State) : (complete e s).nNode = s.nNode := rfl
@[simp] theorem complete_root (e : CmdError) (s : State) : (complete e s).root = s.root := rfl
@[simp] theorem complete_fSel (e : CmdError) (s : State) : (complete e s).fSel = s.fSel := rfl
@[simp] theorem complete_cbSel (e : CmdError) (s : State) : (complete e s).cbSel = s.cbSel := rfl
@[simp] theorem complete_nSel (e : CmdError) (s : State) : (complete e s).nSel = s.nSel := rfl
@[simp] theorem complete_freq (e : CmdError) (s : State) : (complete e s).freq = s.freq := rfl
@[simp] theorem complete_nodes (e : CmdError) (s : State) : (complete e s).nodes = s.nodes := rfl
@[simp] theorem complete_cbLen (e : CmdError) (s : State) : (complete e s).cbLen = s.cbLen := rfl
@[simp] theorem complete_cbCode (e : CmdError) (s : State) : (complete e s).cbCode = s.cbCode := rfl
@[simp] theorem complete_inMem (e : CmdError) (s : State) : (complete e s).inMem = s.inMem := rfl
@[simp] theorem complete_outMem (e : CmdError) (s : State) : (complete e s).outMem = s.outMem := rfl
@[simp] theorem complete_reply (e : CmdError) (s : State) : (complete e s).reply = s.reply := rfl
@[simp] theorem complete_draws (e : CmdError) (s : State) : (complete e s).draws = s.draws := rfl
@[simp] theorem complete_inputs (e : CmdError) (s : State) : (complete e s).inputs = s.inputs := rfl

/-! ### A turn -/

@[simp] theorem takeTurn_params (s : State) : (takeTurn s).params = s.params := rfl
@[simp] theorem takeTurn_ie (s : State) : (takeTurn s).ie = s.ie := rfl
@[simp] theorem takeTurn_done (s : State) : (takeTurn s).done = s.done := rfl
@[simp] theorem takeTurn_ovr (s : State) : (takeTurn s).ovr = s.ovr := rfl
@[simp] theorem takeTurn_treeValid (s : State) : (takeTurn s).treeValid = s.treeValid := rfl
@[simp] theorem takeTurn_err (s : State) : (takeTurn s).err = s.err := rfl
@[simp] theorem takeTurn_lastOp (s : State) : (takeTurn s).lastOp = s.lastOp := rfl
@[simp] theorem takeTurn_pending (s : State) : (takeTurn s).pending = s.pending := rfl
@[simp] theorem takeTurn_inLen (s : State) : (takeTurn s).inLen = s.inLen := rfl
@[simp] theorem takeTurn_outLen (s : State) : (takeTurn s).outLen = s.outLen := rfl
@[simp] theorem takeTurn_pad (s : State) : (takeTurn s).pad = s.pad := rfl
@[simp] theorem takeTurn_errPos (s : State) : (takeTurn s).errPos = s.errPos := rfl
@[simp] theorem takeTurn_errAux (s : State) : (takeTurn s).errAux = s.errAux := rfl
@[simp] theorem takeTurn_nLeaf (s : State) : (takeTurn s).nLeaf = s.nLeaf := rfl
@[simp] theorem takeTurn_nNode (s : State) : (takeTurn s).nNode = s.nNode := rfl
@[simp] theorem takeTurn_root (s : State) : (takeTurn s).root = s.root := rfl
@[simp] theorem takeTurn_fSel (s : State) : (takeTurn s).fSel = s.fSel := rfl
@[simp] theorem takeTurn_cbSel (s : State) : (takeTurn s).cbSel = s.cbSel := rfl
@[simp] theorem takeTurn_nSel (s : State) : (takeTurn s).nSel = s.nSel := rfl
@[simp] theorem takeTurn_freq (s : State) : (takeTurn s).freq = s.freq := rfl
@[simp] theorem takeTurn_nodes (s : State) : (takeTurn s).nodes = s.nodes := rfl
@[simp] theorem takeTurn_cbLen (s : State) : (takeTurn s).cbLen = s.cbLen := rfl
@[simp] theorem takeTurn_cbCode (s : State) : (takeTurn s).cbCode = s.cbCode := rfl
@[simp] theorem takeTurn_inMem (s : State) : (takeTurn s).inMem = s.inMem := rfl
@[simp] theorem takeTurn_outMem (s : State) : (takeTurn s).outMem = s.outMem := rfl
@[simp] theorem takeTurn_reply (s : State) : (takeTurn s).reply = s.reply := rfl
@[simp] theorem takeTurn_draws (s : State) : (takeTurn s).draws = s.draws + 1 := rfl
@[simp] theorem takeTurn_inputs (s : State) : (takeTurn s).inputs = s.inputs.tail := rfl

/-! ### Clearing the counts -/

@[simp] theorem clearCounts_params (s : State) : (clearCounts s).params = s.params := rfl
@[simp] theorem clearCounts_ie (s : State) : (clearCounts s).ie = s.ie := rfl
@[simp] theorem clearCounts_done (s : State) : (clearCounts s).done = s.done := rfl
@[simp] theorem clearCounts_ovr (s : State) : (clearCounts s).ovr = s.ovr := rfl
@[simp] theorem clearCounts_treeValid (s : State) : (clearCounts s).treeValid = s.treeValid := rfl
@[simp] theorem clearCounts_err (s : State) : (clearCounts s).err = s.err := rfl
@[simp] theorem clearCounts_lastOp (s : State) : (clearCounts s).lastOp = s.lastOp := rfl
@[simp] theorem clearCounts_pending (s : State) : (clearCounts s).pending = s.pending := rfl
@[simp] theorem clearCounts_inLen (s : State) : (clearCounts s).inLen = s.inLen := rfl
@[simp] theorem clearCounts_outLen (s : State) : (clearCounts s).outLen = s.outLen := rfl
@[simp] theorem clearCounts_pad (s : State) : (clearCounts s).pad = s.pad := rfl
@[simp] theorem clearCounts_errPos (s : State) : (clearCounts s).errPos = s.errPos := rfl
@[simp] theorem clearCounts_errAux (s : State) : (clearCounts s).errAux = s.errAux := rfl
@[simp] theorem clearCounts_nLeaf (s : State) : (clearCounts s).nLeaf = s.nLeaf := rfl
@[simp] theorem clearCounts_nNode (s : State) : (clearCounts s).nNode = s.nNode := rfl
@[simp] theorem clearCounts_root (s : State) : (clearCounts s).root = s.root := rfl
@[simp] theorem clearCounts_fSel (s : State) : (clearCounts s).fSel = s.fSel := rfl
@[simp] theorem clearCounts_cbSel (s : State) : (clearCounts s).cbSel = s.cbSel := rfl
@[simp] theorem clearCounts_nSel (s : State) : (clearCounts s).nSel = s.nSel := rfl
@[simp] theorem clearCounts_freq (s : State) : (clearCounts s).freq = Table.all 0 := rfl
@[simp] theorem clearCounts_nodes (s : State) : (clearCounts s).nodes = s.nodes := rfl
@[simp] theorem clearCounts_cbLen (s : State) : (clearCounts s).cbLen = s.cbLen := rfl
@[simp] theorem clearCounts_cbCode (s : State) : (clearCounts s).cbCode = s.cbCode := rfl
@[simp] theorem clearCounts_inMem (s : State) : (clearCounts s).inMem = s.inMem := rfl
@[simp] theorem clearCounts_outMem (s : State) : (clearCounts s).outMem = s.outMem := rfl
@[simp] theorem clearCounts_reply (s : State) : (clearCounts s).reply = s.reply := rfl
@[simp] theorem clearCounts_draws (s : State) : (clearCounts s).draws = s.draws := rfl
@[simp] theorem clearCounts_inputs (s : State) : (clearCounts s).inputs = s.inputs := rfl

/-! ### Clearing the codebook -/

@[simp] theorem clearCodebook_params (s : State) : (clearCodebook s).params = s.params := rfl
@[simp] theorem clearCodebook_ie (s : State) : (clearCodebook s).ie = s.ie := rfl
@[simp] theorem clearCodebook_done (s : State) : (clearCodebook s).done = s.done := rfl
@[simp] theorem clearCodebook_ovr (s : State) : (clearCodebook s).ovr = s.ovr := rfl
@[simp] theorem clearCodebook_treeValid (s : State) : (clearCodebook s).treeValid = s.treeValid := rfl
@[simp] theorem clearCodebook_err (s : State) : (clearCodebook s).err = s.err := rfl
@[simp] theorem clearCodebook_lastOp (s : State) : (clearCodebook s).lastOp = s.lastOp := rfl
@[simp] theorem clearCodebook_pending (s : State) : (clearCodebook s).pending = s.pending := rfl
@[simp] theorem clearCodebook_inLen (s : State) : (clearCodebook s).inLen = s.inLen := rfl
@[simp] theorem clearCodebook_outLen (s : State) : (clearCodebook s).outLen = s.outLen := rfl
@[simp] theorem clearCodebook_pad (s : State) : (clearCodebook s).pad = s.pad := rfl
@[simp] theorem clearCodebook_errPos (s : State) : (clearCodebook s).errPos = s.errPos := rfl
@[simp] theorem clearCodebook_errAux (s : State) : (clearCodebook s).errAux = s.errAux := rfl
@[simp] theorem clearCodebook_nLeaf (s : State) : (clearCodebook s).nLeaf = s.nLeaf := rfl
@[simp] theorem clearCodebook_nNode (s : State) : (clearCodebook s).nNode = s.nNode := rfl
@[simp] theorem clearCodebook_root (s : State) : (clearCodebook s).root = s.root := rfl
@[simp] theorem clearCodebook_fSel (s : State) : (clearCodebook s).fSel = s.fSel := rfl
@[simp] theorem clearCodebook_cbSel (s : State) : (clearCodebook s).cbSel = s.cbSel := rfl
@[simp] theorem clearCodebook_nSel (s : State) : (clearCodebook s).nSel = s.nSel := rfl
@[simp] theorem clearCodebook_freq (s : State) : (clearCodebook s).freq = s.freq := rfl
@[simp] theorem clearCodebook_nodes (s : State) : (clearCodebook s).nodes = s.nodes := rfl
@[simp] theorem clearCodebook_cbLen (s : State) : (clearCodebook s).cbLen = Table.all 0 := rfl
@[simp] theorem clearCodebook_cbCode (s : State) : (clearCodebook s).cbCode = Table.all 0 := rfl
@[simp] theorem clearCodebook_inMem (s : State) : (clearCodebook s).inMem = s.inMem := rfl
@[simp] theorem clearCodebook_outMem (s : State) : (clearCodebook s).outMem = s.outMem := rfl
@[simp] theorem clearCodebook_reply (s : State) : (clearCodebook s).reply = s.reply := rfl
@[simp] theorem clearCodebook_draws (s : State) : (clearCodebook s).draws = s.draws := rfl
@[simp] theorem clearCodebook_inputs (s : State) : (clearCodebook s).inputs = s.inputs := rfl

/-! ### Writing one code -/

@[simp] theorem setCode_params (b : Byte) (c : BitString) (s : State) : (setCode b c s).params = s.params := rfl
@[simp] theorem setCode_ie (b : Byte) (c : BitString) (s : State) : (setCode b c s).ie = s.ie := rfl
@[simp] theorem setCode_done (b : Byte) (c : BitString) (s : State) : (setCode b c s).done = s.done := rfl
@[simp] theorem setCode_ovr (b : Byte) (c : BitString) (s : State) : (setCode b c s).ovr = s.ovr := rfl
@[simp] theorem setCode_treeValid (b : Byte) (c : BitString) (s : State) : (setCode b c s).treeValid = s.treeValid := rfl
@[simp] theorem setCode_err (b : Byte) (c : BitString) (s : State) : (setCode b c s).err = s.err := rfl
@[simp] theorem setCode_lastOp (b : Byte) (c : BitString) (s : State) : (setCode b c s).lastOp = s.lastOp := rfl
@[simp] theorem setCode_pending (b : Byte) (c : BitString) (s : State) : (setCode b c s).pending = s.pending := rfl
@[simp] theorem setCode_inLen (b : Byte) (c : BitString) (s : State) : (setCode b c s).inLen = s.inLen := rfl
@[simp] theorem setCode_outLen (b : Byte) (c : BitString) (s : State) : (setCode b c s).outLen = s.outLen := rfl
@[simp] theorem setCode_pad (b : Byte) (c : BitString) (s : State) : (setCode b c s).pad = s.pad := rfl
@[simp] theorem setCode_errPos (b : Byte) (c : BitString) (s : State) : (setCode b c s).errPos = s.errPos := rfl
@[simp] theorem setCode_errAux (b : Byte) (c : BitString) (s : State) : (setCode b c s).errAux = s.errAux := rfl
@[simp] theorem setCode_nLeaf (b : Byte) (c : BitString) (s : State) : (setCode b c s).nLeaf = s.nLeaf := rfl
@[simp] theorem setCode_nNode (b : Byte) (c : BitString) (s : State) : (setCode b c s).nNode = s.nNode := rfl
@[simp] theorem setCode_root (b : Byte) (c : BitString) (s : State) : (setCode b c s).root = s.root := rfl
@[simp] theorem setCode_fSel (b : Byte) (c : BitString) (s : State) : (setCode b c s).fSel = s.fSel := rfl
@[simp] theorem setCode_cbSel (b : Byte) (c : BitString) (s : State) : (setCode b c s).cbSel = s.cbSel := rfl
@[simp] theorem setCode_nSel (b : Byte) (c : BitString) (s : State) : (setCode b c s).nSel = s.nSel := rfl
@[simp] theorem setCode_freq (b : Byte) (c : BitString) (s : State) : (setCode b c s).freq = s.freq := rfl
@[simp] theorem setCode_nodes (b : Byte) (c : BitString) (s : State) : (setCode b c s).nodes = s.nodes := rfl
@[simp] theorem setCode_cbLen (b : Byte) (c : BitString) (s : State) : (setCode b c s).cbLen = s.cbLen.put b (BitVec.ofNat 8 c.length) := rfl
@[simp] theorem setCode_cbCode (b : Byte) (c : BitString) (s : State) : (setCode b c s).cbCode = s.cbCode.put b (BitVec.ofNat 255 (valOf c)) := rfl
@[simp] theorem setCode_inMem (b : Byte) (c : BitString) (s : State) : (setCode b c s).inMem = s.inMem := rfl
@[simp] theorem setCode_outMem (b : Byte) (c : BitString) (s : State) : (setCode b c s).outMem = s.outMem := rfl
@[simp] theorem setCode_reply (b : Byte) (c : BitString) (s : State) : (setCode b c s).reply = s.reply := rfl
@[simp] theorem setCode_draws (b : Byte) (c : BitString) (s : State) : (setCode b c s).draws = s.draws := rfl
@[simp] theorem setCode_inputs (b : Byte) (c : BitString) (s : State) : (setCode b c s).inputs = s.inputs := rfl

/-! ### Dropping the tree -/

@[simp] theorem dropTree_params (s : State) : (dropTree s).params = s.params := rfl
@[simp] theorem dropTree_ie (s : State) : (dropTree s).ie = s.ie := rfl
@[simp] theorem dropTree_done (s : State) : (dropTree s).done = s.done := rfl
@[simp] theorem dropTree_ovr (s : State) : (dropTree s).ovr = s.ovr := rfl
@[simp] theorem dropTree_treeValid (s : State) : (dropTree s).treeValid = false := rfl
@[simp] theorem dropTree_err (s : State) : (dropTree s).err = s.err := rfl
@[simp] theorem dropTree_lastOp (s : State) : (dropTree s).lastOp = s.lastOp := rfl
@[simp] theorem dropTree_pending (s : State) : (dropTree s).pending = s.pending := rfl
@[simp] theorem dropTree_inLen (s : State) : (dropTree s).inLen = s.inLen := rfl
@[simp] theorem dropTree_outLen (s : State) : (dropTree s).outLen = s.outLen := rfl
@[simp] theorem dropTree_pad (s : State) : (dropTree s).pad = s.pad := rfl
@[simp] theorem dropTree_errPos (s : State) : (dropTree s).errPos = s.errPos := rfl
@[simp] theorem dropTree_errAux (s : State) : (dropTree s).errAux = s.errAux := rfl
@[simp] theorem dropTree_nLeaf (s : State) : (dropTree s).nLeaf = 0 := rfl
@[simp] theorem dropTree_nNode (s : State) : (dropTree s).nNode = 0 := rfl
@[simp] theorem dropTree_root (s : State) : (dropTree s).root = 0 := rfl
@[simp] theorem dropTree_fSel (s : State) : (dropTree s).fSel = s.fSel := rfl
@[simp] theorem dropTree_cbSel (s : State) : (dropTree s).cbSel = s.cbSel := rfl
@[simp] theorem dropTree_nSel (s : State) : (dropTree s).nSel = s.nSel := rfl
@[simp] theorem dropTree_freq (s : State) : (dropTree s).freq = s.freq := rfl
@[simp] theorem dropTree_nodes (s : State) : (dropTree s).nodes = [] := rfl
@[simp] theorem dropTree_cbLen (s : State) : (dropTree s).cbLen = s.cbLen := rfl
@[simp] theorem dropTree_cbCode (s : State) : (dropTree s).cbCode = s.cbCode := rfl
@[simp] theorem dropTree_inMem (s : State) : (dropTree s).inMem = s.inMem := rfl
@[simp] theorem dropTree_outMem (s : State) : (dropTree s).outMem = s.outMem := rfl
@[simp] theorem dropTree_reply (s : State) : (dropTree s).reply = s.reply := rfl
@[simp] theorem dropTree_draws (s : State) : (dropTree s).draws = s.draws := rfl
@[simp] theorem dropTree_inputs (s : State) : (dropTree s).inputs = s.inputs := rfl

/-! ### Hardware reset -/

@[simp] theorem hardReset_params (s : State) : (hardReset s).params = s.params := rfl
@[simp] theorem hardReset_ie (s : State) : (hardReset s).ie = false := rfl
@[simp] theorem hardReset_done (s : State) : (hardReset s).done = false := rfl
@[simp] theorem hardReset_ovr (s : State) : (hardReset s).ovr = false := rfl
@[simp] theorem hardReset_treeValid (s : State) : (hardReset s).treeValid = false := rfl
@[simp] theorem hardReset_err (s : State) : (hardReset s).err = .noError := rfl
@[simp] theorem hardReset_lastOp (s : State) : (hardReset s).lastOp = 0 := rfl
@[simp] theorem hardReset_pending (s : State) : (hardReset s).pending = none := rfl
@[simp] theorem hardReset_inLen (s : State) : (hardReset s).inLen = 0 := rfl
@[simp] theorem hardReset_outLen (s : State) : (hardReset s).outLen = 0 := rfl
@[simp] theorem hardReset_pad (s : State) : (hardReset s).pad = 0 := rfl
@[simp] theorem hardReset_errPos (s : State) : (hardReset s).errPos = 0 := rfl
@[simp] theorem hardReset_errAux (s : State) : (hardReset s).errAux = 0 := rfl
@[simp] theorem hardReset_nLeaf (s : State) : (hardReset s).nLeaf = 0 := rfl
@[simp] theorem hardReset_nNode (s : State) : (hardReset s).nNode = 0 := rfl
@[simp] theorem hardReset_root (s : State) : (hardReset s).root = 0 := rfl
@[simp] theorem hardReset_fSel (s : State) : (hardReset s).fSel = 0 := rfl
@[simp] theorem hardReset_cbSel (s : State) : (hardReset s).cbSel = 0 := rfl
@[simp] theorem hardReset_nSel (s : State) : (hardReset s).nSel = 0 := rfl
@[simp] theorem hardReset_freq (s : State) : (hardReset s).freq = Table.all 0 := rfl
@[simp] theorem hardReset_nodes (s : State) : (hardReset s).nodes = [] := rfl
@[simp] theorem hardReset_cbLen (s : State) : (hardReset s).cbLen = Table.all 0 := rfl
@[simp] theorem hardReset_cbCode (s : State) : (hardReset s).cbCode = Table.all 0 := rfl
@[simp] theorem hardReset_inMem (s : State) : (hardReset s).inMem = Memory.unwritten := rfl
@[simp] theorem hardReset_outMem (s : State) : (hardReset s).outMem = Memory.unwritten := rfl
@[simp] theorem hardReset_reply (s : State) : (hardReset s).reply = s.reply := rfl
@[simp] theorem hardReset_draws (s : State) : (hardReset s).draws = s.draws := rfl
@[simp] theorem hardReset_inputs (s : State) : (hardReset s).inputs = s.inputs := rfl

/-! ### Soft reset -/

@[simp] theorem softReset_params (s : State) : (softReset s).params = s.params := rfl
@[simp] theorem softReset_ie (s : State) : (softReset s).ie = false := rfl
@[simp] theorem softReset_done (s : State) : (softReset s).done = false := rfl
@[simp] theorem softReset_ovr (s : State) : (softReset s).ovr = false := rfl
@[simp] theorem softReset_treeValid (s : State) : (softReset s).treeValid = false := rfl
@[simp] theorem softReset_err (s : State) : (softReset s).err = .noError := rfl
@[simp] theorem softReset_lastOp (s : State) : (softReset s).lastOp = 0 := rfl
@[simp] theorem softReset_pending (s : State) : (softReset s).pending = none := rfl
@[simp] theorem softReset_inLen (s : State) : (softReset s).inLen = 0 := rfl
@[simp] theorem softReset_outLen (s : State) : (softReset s).outLen = 0 := rfl
@[simp] theorem softReset_pad (s : State) : (softReset s).pad = 0 := rfl
@[simp] theorem softReset_errPos (s : State) : (softReset s).errPos = 0 := rfl
@[simp] theorem softReset_errAux (s : State) : (softReset s).errAux = 0 := rfl
@[simp] theorem softReset_nLeaf (s : State) : (softReset s).nLeaf = 0 := rfl
@[simp] theorem softReset_nNode (s : State) : (softReset s).nNode = 0 := rfl
@[simp] theorem softReset_root (s : State) : (softReset s).root = 0 := rfl
@[simp] theorem softReset_fSel (s : State) : (softReset s).fSel = 0 := rfl
@[simp] theorem softReset_cbSel (s : State) : (softReset s).cbSel = 0 := rfl
@[simp] theorem softReset_nSel (s : State) : (softReset s).nSel = 0 := rfl
@[simp] theorem softReset_freq (s : State) : (softReset s).freq = Table.all 0 := rfl
@[simp] theorem softReset_nodes (s : State) : (softReset s).nodes = [] := rfl
@[simp] theorem softReset_cbLen (s : State) : (softReset s).cbLen = Table.all 0 := rfl
@[simp] theorem softReset_cbCode (s : State) : (softReset s).cbCode = Table.all 0 := rfl
@[simp] theorem softReset_inMem (s : State) : (softReset s).inMem = s.inMem := rfl
@[simp] theorem softReset_outMem (s : State) : (softReset s).outMem = if s.runsOutput then Memory.scramble s.draws else s.outMem := rfl
@[simp] theorem softReset_reply (s : State) : (softReset s).reply = s.reply := rfl
@[simp] theorem softReset_draws (s : State) : (softReset s).draws = s.draws := rfl
@[simp] theorem softReset_inputs (s : State) : (softReset s).inputs = s.inputs := rfl

/-! ### The two ways to end a command, by completion -/

theorem finish_eq (s : State) : finish s = complete { code := .noError, pos := 0, aux := 0 } s := rfl

theorem raise_eq (e : CmdError) (s : State) : raise e s = complete e s := rfl

theorem raiseNoOutput_eq (e : CmdError) (s : State) :
    raiseNoOutput e s = complete e { s with outLen := 0, outMem := Memory.scramble s.draws } := rfl

/-- BUSY after a completion is 0, whatever ended the command. -/
@[simp] theorem complete_busy (e : CmdError) (s : State) : (complete e s).busy = false := rfl

@[simp] theorem accept_busy (w : Word) (s : State) : (accept w s).busy = true := rfl

@[simp] theorem hardReset_busy (s : State) : (hardReset s).busy = false := rfl

@[simp] theorem softReset_busy (s : State) : (softReset s).busy = false := rfl

@[simp] theorem takeTurn_busy (s : State) : (takeTurn s).busy = s.busy := rfl

/-- A machine is busy exactly when a command word is pending. -/
theorem busy_iff_pending (s : State) : s.busy = true ↔ ∃ w, s.pending = some w := by
  unfold State.busy
  exact Option.isSome_iff_exists

theorem idle_iff_no_pending (s : State) : s.busy = false ↔ s.pending = none := by
  unfold State.busy
  cases s.pending <;> simp

end Sys2Proof.Machine
end

