-- ==== Sys2Proof/Laws/Operands.lean ====
section
/-! SUPPORT. Laws of the commands' operands: the checks of IN_LEN, the input bytes, and the codes of the codebook. -/

namespace Sys2Proof.Machine

/-- What the checks of IN_LEN can answer. -/
theorem inputError_cases (s : State) :
    (s.inLen = 0 ∧ inputError s = some emptyInputError) ∨
    (s.inLen ≠ 0 ∧ s.params.inSize < s.inLen.toNat ∧
      inputError s = some { code := .badParameter, pos := 0x010, aux := s.inLen }) ∨
    (s.inLen ≠ 0 ∧ s.inLen.toNat ≤ s.params.inSize ∧ inputError s = none) := by
  unfold inputError
  by_cases h0 : s.inLen = 0
  · simp [h0]
  · by_cases h1 : s.inLen.toNat > s.params.inSize
    · exact Or.inr (Or.inl ⟨h0, h1, by rw [if_neg h0, if_pos h1]⟩)
    · exact Or.inr (Or.inr ⟨h0, Nat.not_lt.1 h1, by rw [if_neg h0, if_neg h1]⟩)

theorem inputError_none (s : State) (h0 : s.inLen ≠ 0) (h1 : s.inLen.toNat ≤ s.params.inSize) :
    inputError s = none := by
  rcases inputError_cases s with h | h | h
  · exact absurd h.1 h0
  · omega
  · exact h.2.2

theorem inputError_zero (s : State) (h0 : s.inLen = 0) : inputError s = some emptyInputError := by
  simp [inputError, h0]

theorem inputError_large (s : State) (h1 : s.params.inSize < s.inLen.toNat) :
    inputError s = some { code := .badParameter, pos := 0x010, aux := s.inLen } := by
  rcases inputError_cases s with h | h | h
  · rw [h.1] at h1; simp at h1
  · exact h.2.2
  · omega

/-- An error of the input check is one of the two of 10_state.md rule R34. -/
theorem inputError_code (s : State) (e : CmdError) (h : inputError s = some e) :
    e.code = .emptyInput ∨ e.code = .badParameter := by
  rcases inputError_cases s with h' | h' | h'
  · rw [h'.2] at h; cases h; exact Or.inl rfl
  · rw [h'.2.2] at h; cases h; exact Or.inr rfl
  · rw [h'.2.2] at h; cases h

@[simp] theorem length_inputBytes (s : State) : (inputBytes s).length = s.inLen.toNat := by
  simp [inputBytes]

@[simp] theorem length_codeOf (s : State) (b : Byte) : (codeOf s b).length = (s.cbLen.at b).toNat := by
  simp [codeOf]

theorem isCoded_iff (s : State) (b : Byte) : isCoded s b = true ↔ 0 < (codeOf s b).length := by
  rw [length_codeOf]
  unfold isCoded
  rw [decide_eq_true_eq]
  constructor
  · intro h
    have : (s.cbLen.at b).toNat ≠ 0 := fun e => h (BitVec.eq_of_toNat_eq (by simpa using e))
    omega
  · intro h e
    rw [e] at h
    simp at h

theorem codeOf_ne_nil (s : State) (b : Byte) (h : isCoded s b = true) : codeOf s b ≠ [] :=
  List.ne_nil_of_length_pos ((isCoded_iff s b).1 h)

theorem codeOf_length_le (s : State) (b : Byte) : (codeOf s b).length ≤ 255 := by
  rw [length_codeOf]
  have := (s.cbLen.at b).isLt
  omega

@[simp] theorem mem_codedSymbols (s : State) (b : Byte) : b ∈ codedSymbols s ↔ isCoded s b = true := by
  simp [codedSymbols]

theorem codedSymbols_ascend (s : State) : (codedSymbols s).Pairwise (fun a b => a.toNat < b.toNat) :=
  allSymbols_ascend.filter _

theorem mem_codebookOf (s : State) (b : Byte) (c : BitString) :
    (b, c) ∈ codebookOf s ↔ isCoded s b = true ∧ c = codeOf s b := by
  unfold codebookOf
  rw [List.mem_map]
  constructor
  · rintro ⟨x, hx, e⟩
    cases e
    exact ⟨(mem_codedSymbols s b).1 hx, rfl⟩
  · rintro ⟨h, rfl⟩
    exact ⟨b, (mem_codedSymbols s b).2 h, rfl⟩

/-- The codes depend on the codebook tables alone. -/
theorem codeOf_congr (s t : State) (hl : t.cbLen = s.cbLen) (hc : t.cbCode = s.cbCode) : codeOf t = codeOf s := by
  funext b
  simp [codeOf, hl, hc]

theorem isCoded_congr (s t : State) (hl : t.cbLen = s.cbLen) : isCoded t = isCoded s := by
  funext b
  simp [isCoded, hl]

theorem codebookOf_congr (s t : State) (hl : t.cbLen = s.cbLen) (hc : t.cbCode = s.cbCode) :
    codebookOf t = codebookOf s := by
  unfold codebookOf codedSymbols
  rw [codeOf_congr s t hl hc, isCoded_congr s t hl]

/-- A code that was just written is read back, if its length is legal. -/
theorem codeOf_setCode_same (b : Byte) (c : BitString) (s : State) (h : c.length ≤ 255) :
    codeOf (setCode b c s) b = c := by
  have hv : valOf c < 2 ^ 255 := lt_of_lt_of_le (valOf_lt c) (Nat.pow_le_pow_right (by norm_num) h)
  unfold codeOf
  simp only [setCode_cbLen, setCode_cbCode, table_at_put_same, BitVec.toNat_ofNat]
  rw [Nat.mod_eq_of_lt hv, Nat.mod_eq_of_lt (by omega)]
  exact strOf_valOf c

/-- Writing one code leaves every other symbol's entries. -/
theorem setCode_other (b x : Byte) (c : BitString) (s : State) (h : x ≠ b) :
    (setCode b c s).cbLen.at x = s.cbLen.at x ∧ (setCode b c s).cbCode.at x = s.cbCode.at x := by
  simp [table_at_put_other _ _ _ _ h]

end Sys2Proof.Machine
end

