-- ==== Sys2Proof/Laws/Codebook.lean ====
section
/-! SUPPORT. What GENCODE and CBCLR can answer, and what the walk of a tree finds: every leaf once, by its one path from
the root. -/

namespace Sys2Proof.Machine

/-- Everything GENCODE can answer. -/
theorem execGencode_cases (s : State) :
    (s.treeValid = false ∧ execGencode s = .next (complete { code := .noTree, pos := 0, aux := 0 } s)) ∨
    (s.treeValid = true ∧ execGencode s = .next (complete { code := .noError, pos := 0, aux := 0 }
      (writeCodes (treeCodes s.nodes s.root.toNat) (clearCodebook s)))) := by
  unfold execGencode
  cases h : s.treeValid
  · exact Or.inl ⟨rfl, by simp [raise_eq]⟩
  · exact Or.inr ⟨rfl, by simp [finish_eq]⟩

/-- Everything CBCLR can answer. -/
theorem execCbclr_eq (s : State) :
    execCbclr s = .next (complete { code := .noError, pos := 0, aux := 0 } (clearCodebook s)) := rfl

/-! ### Paths -/

theorem follow_nil (nodes : List Node) (k : Nat) : follow nodes k [] = some k := rfl

theorem follow_cons_leaf (nodes : List Node) (k : Nat) (b : Bool) (p : BitString) (h : (nodeAt nodes k).leaf = true) :
    follow nodes k (b :: p) = none := by
  simp [follow, h]

theorem follow_cons_join (nodes : List Node) (k : Nat) (b : Bool) (p : BitString)
    (h : (nodeAt nodes k).leaf = false) :
    follow nodes k (b :: p) =
      follow nodes (if b then (nodeAt nodes k).right.toNat else (nodeAt nodes k).left.toNat) p := by
  cases b <;> simp [follow, h]

/-- Following a path and then another is following both. -/
theorem follow_append (nodes : List Node) (p r : BitString) :
    ∀ k, follow nodes k (p ++ r) = (follow nodes k p).bind fun j => follow nodes j r := by
  induction p with
  | nil => intro k; simp [follow_nil]
  | cons b p ih =>
    intro k
    rw [List.cons_append]
    cases h : (nodeAt nodes k).leaf
    · rw [follow_cons_join _ _ _ _ h, follow_cons_join _ _ _ _ h, ih]
    · rw [follow_cons_leaf _ _ _ _ h, follow_cons_leaf _ _ _ _ h]; rfl

/-- No path goes on from a leaf. -/
theorem follow_leaf (nodes : List Node) (k j : Nat) (p : BitString) (h : (nodeAt nodes k).leaf = true)
    (hf : follow nodes k p = some j) : p = [] ∧ j = k := by
  cases p with
  | nil => rw [follow_nil] at hf; cases hf; exact ⟨rfl, rfl⟩
  | cons b p => rw [follow_cons_leaf _ _ _ _ h] at hf; cases hf

variable {nodes : List Node} {n : Nat}

/-- Every node of a tree is a leaf or an internal node, by its index. -/
theorem TreeShape.leaf_iff (ht : TreeShape nodes n) {k : Nat} (hk : k < 2 * n - 1) :
    (nodeAt nodes k).leaf = true ↔ k < n := by
  constructor
  · intro h
    by_contra hn
    rw [ht.joinsAfter k hk (by omega)] at h
    cases h
  · exact ht.leavesFirst k

/-- The child of an internal node along one edge: below it, and in the tree. -/
theorem TreeShape.child_lt (ht : TreeShape nodes n) {k : Nat} (hk : k < 2 * n - 1) (hnk : n ≤ k) (b : Bool) :
    (if b then (nodeAt nodes k).right.toNat else (nodeAt nodes k).left.toNat) < k := by
  have := ht.childBelow k hk hnk
  cases b <;> simp <;> omega

/-- A path from node `k` ends at or below it, and has at most as many edges as there are internal nodes up to `k`. -/
theorem TreeShape.follow_bound (ht : TreeShape nodes n) (p : BitString) :
    ∀ k j, k < 2 * n - 1 → follow nodes k p = some j → j ≤ k ∧ p.length ≤ k + 1 - n := by
  induction p with
  | nil => intro k j _ h; rw [follow_nil] at h; cases h; simp
  | cons b p ih =>
    intro k j hk h
    cases hl : (nodeAt nodes k).leaf
    · have hnk : n ≤ k := by
        by_contra hc
        rw [(ht.leaf_iff hk).2 (by omega)] at hl
        cases hl
      rw [follow_cons_join _ _ _ _ hl] at h
      have hlt := ht.child_lt hk hnk b
      have := ih _ j (by omega) h
      refine ⟨by omega, ?_⟩
      rw [List.length_cons]
      omega
    · rw [follow_cons_leaf _ _ _ _ hl] at h; cases h

/-- The path to a node along its last edge: the edge comes from its parent. -/
theorem follow_concat (nodes : List Node) (k j : Nat) (p : BitString) (b : Bool)
    (h : follow nodes k (p ++ [b]) = some j) :
    ∃ m, follow nodes k p = some m ∧ (nodeAt nodes m).leaf = false ∧
      (if b then (nodeAt nodes m).right.toNat else (nodeAt nodes m).left.toNat) = j := by
  rw [follow_append] at h
  cases hm : follow nodes k p with
  | none => rw [hm] at h; cases h
  | some m =>
    rw [hm] at h
    simp only [Option.bind_some] at h
    cases hl : (nodeAt nodes m).leaf
    · rw [follow_cons_join _ _ _ _ hl, follow_nil] at h
      exact ⟨m, rfl, hl, by simpa using h⟩
    · rw [follow_cons_leaf _ _ _ _ hl] at h; cases h

/-- A node is reached from the root by at most one path. -/
theorem TreeShape.path_unique (ht : TreeShape nodes n) (p : BitString) :
    ∀ (q : BitString) (j : Nat), follow nodes (2 * n - 2) p = some j → follow nodes (2 * n - 2) q = some j → p = q := by
  have hn := ht.leafCount.1
  induction p using List.reverseRecOn with
  | nil =>
    intro q j hp hq
    rw [follow_nil] at hp
    cases hp
    rcases List.eq_nil_or_concat q with rfl | ⟨q', b, rfl⟩
    · rfl
    · rw [List.concat_eq_append] at hq
      obtain ⟨m, hm, hml, hmc⟩ := follow_concat _ _ _ _ _ hq
      have hb := ht.follow_bound q' _ m (by omega) hm
      have hnm : n ≤ m := by
        by_contra hc
        rw [(ht.leaf_iff (by omega : m < 2 * n - 1)).2 (by omega)] at hml
        cases hml
      have := ht.child_lt (by omega : m < 2 * n - 1) hnm b
      omega
  | append_singleton p b ih =>
    intro q j hp hq
    obtain ⟨m, hm, hml, hmc⟩ := follow_concat _ _ _ _ _ hp
    have hbm := ht.follow_bound p _ m (by omega) hm
    have hnm : n ≤ m := by
      by_contra hc
      rw [(ht.leaf_iff (by omega : m < 2 * n - 1)).2 (by omega)] at hml
      cases hml
    have hjm := ht.child_lt (by omega : m < 2 * n - 1) hnm b
    rcases List.eq_nil_or_concat q with rfl | ⟨q', c, rfl⟩
    · rw [follow_nil] at hq
      cases hq
      omega
    · rw [List.concat_eq_append] at hq ⊢
      obtain ⟨m', hm', hml', hmc'⟩ := follow_concat _ _ _ _ _ hq
      have hbm' := ht.follow_bound q' _ m' (by omega) hm'
      have hnm' : n ≤ m' := by
        by_contra hc
        rw [(ht.leaf_iff (by omega : m' < 2 * n - 1)).2 (by omega)] at hml'
        cases hml'
      have hj : j < 2 * n - 2 := by omega
      obtain ⟨k, hk, hnk, -, huniq⟩ := ht.oneParent j hj
      have hcm : isChild nodes j m := by
        cases b
        · exact Or.inl (by simpa using hmc)
        · exact Or.inr (by simpa using hmc)
      have hcm' : isChild nodes j m' := by
        cases c
        · exact Or.inl (by simpa using hmc')
        · exact Or.inr (by simpa using hmc')
      have e1 := huniq m (by omega) hnm hcm
      have e2 := huniq m' (by omega) hnm' hcm'
      subst e1
      subst e2
      have hp' := ih q' _ hm hm'
      have hlr := (ht.childBelow _ hk hnk).2.2
      have hbc : b = c := by
        cases b <;> cases c <;> try rfl
        · simp at hmc hmc'
          exact absurd (BitVec.eq_of_toNat_eq (hmc.trans hmc'.symm)) hlr
        · simp at hmc hmc'
          exact absurd (BitVec.eq_of_toNat_eq (hmc'.trans hmc.symm)) hlr
      rw [hp', hbc]

/-- Every node of a tree is reached from the root. -/
theorem TreeShape.path_exists (ht : TreeShape nodes n) :
    ∀ d j, d = 2 * n - 2 - j → j ≤ 2 * n - 2 → ∃ p, follow nodes (2 * n - 2) p = some j := by
  intro d
  induction d using Nat.strong_induction_on with
  | _ d ih =>
    intro j hd hj
    by_cases hroot : j = 2 * n - 2
    · exact ⟨[], by rw [hroot]; rfl⟩
    · obtain ⟨k, hk, hnk, hc, -⟩ := ht.oneParent j (by omega)
      have hb := ht.childBelow k hk hnk
      have hjk : j < k := by rcases hc with hc | hc <;> omega
      obtain ⟨p, hp⟩ := ih (2 * n - 2 - k) (by omega) k rfl (by omega)
      have hl := ht.joinsAfter k hk hnk
      rcases hc with hc | hc
      · refine ⟨p ++ [false], ?_⟩
        rw [follow_append, hp]
        simp [follow, hl, hc]
      · refine ⟨p ++ [true], ?_⟩
        rw [follow_append, hp]
        simp [follow, hl, hc]

/-- Different leaves have different symbols. -/
theorem TreeShape.sym_inj (ht : TreeShape nodes n) {i j : Nat} (hi : i < n) (hj : j < n)
    (h : (nodeAt nodes i).sym = (nodeAt nodes j).sym) : i = j := by
  rcases Nat.lt_trichotomy i j with hij | hij | hij
  · have := ht.symsRise j hj i hij; rw [h] at this; omega
  · exact hij
  · have := ht.symsRise i hi j hij; rw [h] at this; omega

/-! ### The walk -/

/-- The walk finds exactly the leaves that paths from its node reach, each with its path. -/
theorem TreeShape.mem_leafPaths (ht : TreeShape nodes n) :
    ∀ (fuel k : Nat) (p : BitString) (b : Byte) (c : BitString), k < fuel → k < 2 * n - 1 →
      ((b, c) ∈ leafPaths nodes fuel k p ↔
        ∃ r j, c = p ++ r ∧ follow nodes k r = some j ∧ (nodeAt nodes j).leaf = true ∧ (nodeAt nodes j).sym = b) := by
  intro fuel
  induction fuel with
  | zero => intro k p b c h; omega
  | succ fuel ih =>
    intro k p b c hf hk
    rw [leafPaths]
    cases hl : (nodeAt nodes k).leaf
    · have hnk : n ≤ k := by
        by_contra hc
        rw [(ht.leaf_iff hk).2 (by omega)] at hl
        cases hl
      have hb := ht.childBelow k hk hnk
      simp only [Bool.false_eq_true, if_false, List.mem_append]
      rw [ih _ _ _ _ (by omega) (by omega), ih _ _ _ _ (by omega) (by omega)]
      constructor
      · rintro (⟨r, j, hc, hr, hj, hs⟩ | ⟨r, j, hc, hr, hj, hs⟩)
        · exact ⟨false :: r, j, by simpa using hc, by rw [follow_cons_join _ _ _ _ hl]; simpa using hr, hj, hs⟩
        · exact ⟨true :: r, j, by simpa using hc, by rw [follow_cons_join _ _ _ _ hl]; simpa using hr, hj, hs⟩
      · rintro ⟨r, j, hc, hr, hj, hs⟩
        cases r with
        | nil => rw [follow_nil] at hr; cases hr; rw [hl] at hj; cases hj
        | cons x r =>
          rw [follow_cons_join _ _ _ _ hl] at hr
          cases x
          · exact Or.inl ⟨r, j, by simpa using hc, by simpa using hr, hj, hs⟩
          · exact Or.inr ⟨r, j, by simpa using hc, by simpa using hr, hj, hs⟩
    · simp only [if_true, List.mem_singleton, Prod.mk.injEq]
      constructor
      · rintro ⟨rfl, rfl⟩
        exact ⟨[], k, by simp, follow_nil _ _, hl, rfl⟩
      · rintro ⟨r, j, hc, hr, hj, hs⟩
        obtain ⟨rfl, rfl⟩ := follow_leaf _ _ _ _ hl hr
        exact ⟨hs.symm, by simpa using hc⟩

/-- The codes of a tree with at least two leaves: each leaf's symbol with its path from the root. -/
theorem TreeShape.mem_treeCodes (ht : TreeShape nodes n) (h2 : 2 ≤ n) (b : Byte) (c : BitString) :
    (b, c) ∈ treeCodes nodes (2 * n - 2) ↔
      ∃ j < n, follow nodes (2 * n - 2) c = some j ∧ (nodeAt nodes j).sym = b := by
  have hl : (nodeAt nodes (2 * n - 2)).leaf = false := ht.joinsAfter _ (by omega) (by omega)
  rw [treeCodes, hl]
  simp only [Bool.false_eq_true, if_false]
  rw [ht.mem_leafPaths _ _ _ _ _ (by rw [ht.nodeCount]; omega) (by omega)]
  constructor
  · rintro ⟨r, j, hc, hr, hj, hs⟩
    have hb := ht.follow_bound _ _ _ (by omega) hr
    refine ⟨j, (ht.leaf_iff (by omega)).1 hj, ?_, hs⟩
    rw [hc]; simpa using hr
  · rintro ⟨j, hj, hr, hs⟩
    exact ⟨c, j, by simp, hr, ht.leavesFirst j hj, hs⟩

/-- A path to a leaf of a tree with at least two leaves has 1 to 255 edges. -/
theorem TreeShape.path_length (ht : TreeShape nodes n) (h2 : 2 ≤ n) {c : BitString} {j : Nat} (hj : j < n)
    (hf : follow nodes (2 * n - 2) c = some j) : 1 ≤ c.length ∧ c.length ≤ 255 := by
  have hb := ht.follow_bound _ _ _ (by omega) hf
  have := ht.leafCount.2
  refine ⟨?_, by omega⟩
  cases c with
  | nil => rw [follow_nil] at hf; cases hf; omega
  | cons x c => simp

/-! ### Writing the codes -/

/-- Every field but the codebook tables stays while codes are written. -/
theorem writeCodes_fields (codes : List (Byte × BitString)) :
    ∀ s : State, writeCodes codes s = { s with cbLen := (writeCodes codes s).cbLen, cbCode := (writeCodes codes s).cbCode } := by
  induction codes with
  | nil => intro s; rfl
  | cons c cs ih =>
    intro s
    have h := ih (setCode c.1 c.2 s)
    have he : writeCodes (c :: cs) s = writeCodes cs (setCode c.1 c.2 s) := rfl
    rw [he]
    exact h

/-- GENCODE writes nothing but the codebook tables. -/
theorem generated_fields (s : State) : writeCodes (treeCodes s.nodes s.root.toNat) (clearCodebook s) = { s with
    cbLen := (writeCodes (treeCodes s.nodes s.root.toNat) (clearCodebook s)).cbLen,
    cbCode := (writeCodes (treeCodes s.nodes s.root.toNat) (clearCodebook s)).cbCode } := by
  conv_lhs => rw [writeCodes_fields]
  rfl

/-- A symbol that no code of the list names keeps its entries. -/
theorem writeCodes_other (codes : List (Byte × BitString)) :
    ∀ (s : State) (x : Byte), (∀ e ∈ codes, e.1 ≠ x) →
      (writeCodes codes s).cbLen.at x = s.cbLen.at x ∧ (writeCodes codes s).cbCode.at x = s.cbCode.at x := by
  induction codes with
  | nil => intro s x _; exact ⟨rfl, rfl⟩
  | cons c cs ih =>
    intro s x h
    have he : writeCodes (c :: cs) s = writeCodes cs (setCode c.1 c.2 s) := rfl
    rw [he]
    obtain ⟨h1, h2⟩ := ih (setCode c.1 c.2 s) x fun e hm => h e (List.mem_cons_of_mem _ hm)
    obtain ⟨h3, h4⟩ := setCode_other c.1 x c.2 s (Ne.symm (h c List.mem_cons_self))
    exact ⟨h1.trans h3, h2.trans h4⟩

/-- A symbol whose entries in the list all name one code ends with that code. -/
theorem writeCodes_same (codes : List (Byte × BitString)) :
    ∀ (s : State) (x : Byte) (c : BitString), (x, c) ∈ codes → (∀ e ∈ codes, e.1 = x → e.2 = c) →
      (writeCodes codes s).cbLen.at x = BitVec.ofNat 8 c.length ∧
      (writeCodes codes s).cbCode.at x = BitVec.ofNat 255 (valOf c) := by
  induction codes with
  | nil => intro s x c h; simp at h
  | cons d ds ih =>
    intro s x c hm hall
    have he : writeCodes (d :: ds) s = writeCodes ds (setCode d.1 d.2 s) := rfl
    rw [he]
    by_cases hin : (x, c) ∈ ds
    · exact ih _ x c hin fun e hm' => hall e (List.mem_cons_of_mem _ hm')
    · have hd : d = (x, c) := by
        rcases List.mem_cons.1 hm with h | h
        · exact h.symm
        · exact absurd h hin
      subst hd
      obtain ⟨h1, h2⟩ := writeCodes_other ds (setCode x c s) x (by
        intro e hm' hx
        have := hall e (List.mem_cons_of_mem _ hm') hx
        apply hin
        rw [← this, ← hx]
        exact hm')
      rw [h1, h2]
      simp

/-! ### Completeness -/

/-- The codes found below a node fill its share: each level halves it. -/
theorem TreeShape.kraft_leafPaths (ht : TreeShape nodes n) :
    ∀ (fuel k : Nat) (p : BitString), k < fuel → k < 2 * n - 1 → p.length + (k + 1 - n) ≤ 255 →
      ((leafPaths nodes fuel k p).map fun e => 2 ^ (255 - e.2.length)).sum = 2 ^ (255 - p.length) := by
  intro fuel
  induction fuel with
  | zero => intro k p h; omega
  | succ fuel ih =>
    intro k p hf hk hlen
    rw [leafPaths]
    cases hl : (nodeAt nodes k).leaf
    · have hnk : n ≤ k := by
        by_contra hc
        rw [(ht.leaf_iff hk).2 (by omega)] at hl
        cases hl
      have hb := ht.childBelow k hk hnk
      simp only [Bool.false_eq_true, if_false, List.map_append, List.sum_append]
      rw [ih _ _ (by omega) (by omega) (by simp; omega), ih _ _ (by omega) (by omega) (by simp; omega)]
      simp only [List.length_append, List.length_singleton]
      have : 255 - p.length = (255 - (p.length + 1)) + 1 := by omega
      rw [this, pow_succ]
      omega
    · simp

/-- The walk finds no symbol twice. -/
theorem TreeShape.leafPaths_nodup (ht : TreeShape nodes n) :
    ∀ (fuel k : Nat) (p q : BitString), k < fuel → k < 2 * n - 1 → follow nodes (2 * n - 2) q = some k →
      ((leafPaths nodes fuel k p).map Prod.fst).Nodup := by
  intro fuel
  induction fuel with
  | zero => intro k p q h; omega
  | succ fuel ih =>
    intro k p q hf hk hq
    rw [leafPaths]
    cases hl : (nodeAt nodes k).leaf
    · have hnk : n ≤ k := by
        by_contra hc
        rw [(ht.leaf_iff hk).2 (by omega)] at hl
        cases hl
      have hb := ht.childBelow k hk hnk
      have hql : follow nodes (2 * n - 2) (q ++ [false]) = some (nodeAt nodes k).left.toNat := by
        rw [follow_append, hq]; simp [follow, hl]
      have hqr : follow nodes (2 * n - 2) (q ++ [true]) = some (nodeAt nodes k).right.toNat := by
        rw [follow_append, hq]; simp [follow, hl]
      simp only [Bool.false_eq_true, if_false, List.map_append]
      rw [List.nodup_append]
      refine ⟨ih _ _ _ (by omega) (by omega) hql, ih _ _ _ (by omega) (by omega) hqr, ?_⟩
      intro x hx y hy hxy
      subst hxy
      obtain ⟨⟨x1, c⟩, hc, hx1⟩ := List.mem_map.1 hx
      obtain ⟨⟨x2, d⟩, hd, hx2⟩ := List.mem_map.1 hy
      simp only at hx1 hx2
      subst hx1
      subst hx2
      obtain ⟨r, j, -, hr, hj, hs⟩ := (ht.mem_leafPaths _ _ _ _ _ (by omega) (by omega)).1 hc
      obtain ⟨r', j', -, hr', hj', hs'⟩ := (ht.mem_leafPaths _ _ _ _ _ (by omega) (by omega)).1 hd
      have hjb := ht.follow_bound _ _ _ (by omega) hr
      have hjb' := ht.follow_bound _ _ _ (by omega) hr'
      have hjj : j = j' := ht.sym_inj ((ht.leaf_iff (by omega)).1 hj) ((ht.leaf_iff (by omega)).1 hj')
        (hs.trans hs'.symm)
      subst hjj
      have e := ht.path_unique (q ++ [false] ++ r) (q ++ [true] ++ r') j
        (by rw [follow_append, hql]; exact hr) (by rw [follow_append, hqr]; exact hr')
      simp only [List.append_assoc] at e
      have := List.append_cancel_left e
      simp at this
    · simp

/-- Every long enough bit string begins with a path to a leaf. -/
theorem TreeShape.path_prefix (ht : TreeShape nodes n) :
    ∀ (k : Nat) (bits : BitString), k < 2 * n - 1 → k + 1 - n ≤ bits.length →
      ∃ r j, r <+: bits ∧ follow nodes k r = some j ∧ j < n := by
  intro k
  induction k using Nat.strong_induction_on with
  | _ k ih =>
    intro bits hk hlen
    by_cases hkn : k < n
    · exact ⟨[], k, List.nil_prefix, follow_nil _ _, hkn⟩
    · have hl := ht.joinsAfter k hk (by omega)
      cases bits with
      | nil => simp at hlen; omega
      | cons b bits =>
        have hlt := ht.child_lt hk (by omega) b
        simp only [List.length_cons] at hlen
        obtain ⟨r, j, hr, hf, hj⟩ := ih _ hlt bits (by omega) (by omega)
        exact ⟨b :: r, j, by simpa using hr, by rw [follow_cons_join _ _ _ _ hl]; exact hf, hj⟩

end Sys2Proof.Machine
end

