-- ==== Sys2Proof/Laws/Frequency.lean ====
section
/-! SUPPORT. What FREQ and FCLR can answer, and what the counting loop computes. -/

namespace Sys2Proof.Machine

/-- Everything FREQ can answer. -/
theorem execFreq_cases (s : State) :
    (∃ e, inputError s = some e ∧ execFreq s = .next (complete e s)) ∨
    (inputError s = none ∧ execFreq s = .next (complete { code := .noError, pos := 0, aux := 0 }
      { s with freq := countBytes (inputBytes s) })) := by
  unfold execFreq
  cases h : inputError s with
  | some e => exact Or.inl ⟨e, rfl, rfl⟩
  | none => exact Or.inr ⟨rfl, rfl⟩

/-- Everything FCLR can answer. -/
theorem execFclr_eq (s : State) :
    execFclr s = .next (complete { code := .noError, pos := 0, aux := 0 } (clearCounts s)) := rfl

theorem countLoop_at (bs : List Byte) :
    ∀ (t : Table Count) (b : Byte),
      ((bs.foldl (fun t b => t.put b (t.at b + 1)) t).at b).toNat = ((t.at b).toNat + bs.count b) % 2 ^ 32 := by
  induction bs with
  | nil => intro t b; simp [Nat.mod_eq_of_lt (t.at b).isLt]
  | cons c bs ih =>
    intro t b
    rw [List.foldl_cons, ih, table_at_put]
    by_cases h : b = c
    · subst h
      simp only [if_true, List.count_cons_self]
      rw [BitVec.toNat_add]
      simp
      omega
    · simp [h, List.count_cons_of_ne (Ne.symm h)]

/-- 40_frequency_tree.md rule R101: the loop counts the occurrences of each byte value. -/
theorem countBytes_at (bs : List Byte) (b : Byte) (h : bs.length < 2 ^ 32) :
    ((countBytes bs).at b).toNat = bs.count b := by
  unfold countBytes
  rw [countLoop_at]
  have := List.count_le_length (a := b) (l := bs)
  simp
  omega

/-- The occurrences of all the symbols of a list without repeats that holds them all sum to the length. -/
theorem sum_counts (syms : List Byte) (hn : syms.Nodup) (hm : ∀ b : Byte, b ∈ syms) (bs : List Byte) :
    (syms.map fun b => bs.count b).sum = bs.length := by
  induction bs with
  | nil => simp
  | cons c bs ih =>
    have hone : (syms.map fun b => if c = b then 1 else 0).sum = 1 := by
      have h1 : (syms.map fun b => if c = b then 1 else 0).sum = syms.count c := by
        clear hn hm ih
        induction syms with
        | nil => rfl
        | cons x xs ih =>
          rw [List.map_cons, List.sum_cons, ih, List.count_cons]
          by_cases h : x = c
          · subst h; simp [Nat.add_comm]
          · have : ¬ c = x := fun e => h e.symm
            simp [h, this]
      rw [h1]
      exact List.count_eq_one_of_mem hn (hm c)
    have hsplit : (syms.map fun b => (c :: bs).count b) =
        syms.map (fun b => bs.count b + if c = b then 1 else 0) := by
      apply List.map_congr_left
      intro b _
      rw [List.count_cons]
      by_cases h : c = b <;> simp [h]
    rw [hsplit, List.sum_map_add, ih, hone, List.length_cons]

end Sys2Proof.Machine
end

