-- ==== Sys2Proof/Laws/Pack.lean ====
section
/-! SUPPORT. What PACK can answer, and what its encoding loop computes. -/

namespace Sys2Proof.Machine

/-- Everything PACK can answer. -/
theorem execPack_cases (s : State) :
    (∃ e, packBits s = .error e ∧ execPack s = .next (complete e
      { s with outLen := 0, outMem := Memory.scramble s.draws })) ∨
    (∃ bits, packBits s = .ok bits ∧ execPack s = .next (complete { code := .noError, pos := 0, aux := 0 } { s with
      outMem := s.outMem.writeBytes 0 (bytesOfBits (padded bits))
      outLen := BitVec.ofNat 32 (bytesFor bits.length)
      pad    := BitVec.ofNat 32 (paddingOf bits.length) })) := by
  unfold execPack
  cases h : packBits s with
  | error e => exact Or.inl ⟨e, rfl, rfl⟩
  | ok bits =>
    refine Or.inr ⟨bits, rfl, ?_⟩
    have : (padded bits).length / 8 = bytesFor bits.length := by rw [length_padded]; omega
    simp only [this]
    rfl

@[simp] theorem encoded_nil (s : State) : encoded s [] = [] := rfl

@[simp] theorem encoded_cons (s : State) (b : Byte) (bs : List Byte) :
    encoded s (b :: bs) = codeOf s b ++ encoded s bs := by simp [encoded]

theorem encoded_append (s : State) (xs ys : List Byte) : encoded s (xs ++ ys) = encoded s xs ++ encoded s ys := by
  simp [encoded]

theorem encoded_congr (s t : State) (hl : t.cbLen = s.cbLen) (hc : t.cbCode = s.cbCode) : encoded t = encoded s := by
  funext bs
  simp [encoded, codeOf_congr s t hl hc]

theorem bytesFor_mono {a b : Nat} (h : a ≤ b) : bytesFor a ≤ bytesFor b := by
  unfold bytesFor; omega

/-- The loop succeeds exactly on coded bytes whose codes fit, and gives their codes. -/
theorem encodeFrom_ok (s : State) (bytes : List Byte) :
    ∀ (i len : Nat) (bits : BitString), encodeFrom s i len bytes = .ok bits ↔
      (∀ b ∈ bytes, isCoded s b = true) ∧ bits = encoded s bytes ∧
        (bytes ≠ [] → bytesFor (len + bits.length) ≤ s.params.outSize) := by
  induction bytes with
  | nil =>
    intro i len bits
    rw [encodeFrom, encoded_nil]
    constructor
    · intro h
      cases h
      exact ⟨fun b hb => absurd hb List.not_mem_nil, rfl, fun h => absurd rfl h⟩
    · rintro ⟨-, rfl, -⟩
      rfl
  | cons b rest ih =>
    intro i len bits
    rw [encodeFrom]
    by_cases hc : isCoded s b = true
    · rw [if_pos hc]
      by_cases ho : bytesFor (len + (codeOf s b).length) > s.params.outSize
      · rw [if_pos ho]
        constructor
        · intro h; cases h
        · rintro ⟨-, hb, hf⟩
          have := hf (by simp)
          rw [hb, encoded_cons, List.length_append] at this
          have hm := bytesFor_mono (show len + (codeOf s b).length ≤
            len + ((codeOf s b).length + (encoded s rest).length) by omega)
          omega
      · rw [if_neg ho]
        cases hr : encodeFrom s (i + 1) (len + (codeOf s b).length) rest with
        | error e =>
          simp only
          constructor
          · intro h; cases h
          · rintro ⟨hall, hb, hf⟩
            have := (ih (i + 1) (len + (codeOf s b).length) (encoded s rest)).2
              ⟨fun x hx => hall x (List.mem_cons_of_mem _ hx), rfl, by
                intro _
                have := hf (by simp)
                rw [hb, encoded_cons, List.length_append] at this
                rwa [Nat.add_assoc]⟩
            rw [hr] at this
            cases this
        | ok more =>
          have hmore := (ih _ _ _).1 hr
          simp only [Except.ok.injEq]
          constructor
          · intro h
            subst h
            refine ⟨?_, by rw [encoded_cons, hmore.2.1], ?_⟩
            · intro x hx
              rcases List.mem_cons.1 hx with rfl | hx
              · exact hc
              · exact hmore.1 x hx
            · intro _
              rw [List.length_append, ← Nat.add_assoc]
              by_cases hrest : rest = []
              · have : more = [] := by rw [hmore.2.1, hrest]; rfl
                rw [this, List.length_nil, Nat.add_zero]; omega
              · exact hmore.2.2 hrest
          · rintro ⟨-, hb, -⟩
            rw [hb, encoded_cons, hmore.2.1]
    · rw [if_neg hc]
      constructor
      · intro h; cases h
      · rintro ⟨hall, -, -⟩
        exact absurd (hall b List.mem_cons_self) hc

/-- Past a part of the input whose bytes are coded and whose codes fit, the loop goes on behind it. -/
theorem encodeFrom_skip (s : State) (before : List Byte) :
    ∀ (i len : Nat) (rest : List Byte), (∀ b ∈ before, isCoded s b = true) →
      bytesFor (len + (encoded s before).length) ≤ s.params.outSize →
      ∀ e, encodeFrom s (i + before.length) (len + (encoded s before).length) rest = .error e →
        encodeFrom s i len (before ++ rest) = .error e := by
  induction before with
  | nil => intro i len rest _ _ e h; simpa using h
  | cons b before ih =>
    intro i len rest hall hfit e h
    rw [List.cons_append, encodeFrom, if_pos (hall b List.mem_cons_self)]
    rw [encoded_cons, List.length_append] at hfit h
    have hm := bytesFor_mono (show len + (codeOf s b).length ≤
      len + ((codeOf s b).length + (encoded s before).length) by omega)
    rw [if_neg (by omega)]
    have := ih (i + 1) (len + (codeOf s b).length) rest (fun x hx => hall x (List.mem_cons_of_mem _ hx))
      (by rwa [Nat.add_assoc]) e (by
        rw [List.length_cons] at h
        rw [show i + 1 + before.length = i + (before.length + 1) by omega, Nat.add_assoc]
        exact h)
    rw [this]

/-- The codes of the errors that the loop can report. -/
theorem encodeFrom_error (s : State) (bytes : List Byte) :
    ∀ (i len : Nat) (e : CmdError), encodeFrom s i len bytes = .error e →
      e.code = .codebookIncomplete ∨ e.code = .outputOverflow := by
  induction bytes with
  | nil => intro i len e h; cases h
  | cons b rest ih =>
    intro i len e h
    rw [encodeFrom] at h
    split at h
    · split at h
      · cases h; exact Or.inr rfl
      · split at h
        · cases h
        · next e' he => cases h; exact ih _ _ _ he
    · cases h; exact Or.inl rfl

/-- Coded bytes give no CODEBOOK_INCOMPLETE. -/
theorem encodeFrom_coded_error (s : State) (bytes : List Byte) :
    ∀ (i len : Nat) (e : CmdError), (∀ b ∈ bytes, isCoded s b = true) → encodeFrom s i len bytes = .error e →
      e.code = .outputOverflow := by
  induction bytes with
  | nil => intro i len e _ h; cases h
  | cons b rest ih =>
    intro i len e hall h
    rw [encodeFrom, if_pos (hall b List.mem_cons_self)] at h
    split at h
    · cases h; rfl
    · split at h
      · cases h
      · next e' he => cases h; exact ih _ _ _ (fun x hx => hall x (List.mem_cons_of_mem _ hx)) he

/-- A successful PACK: its bits are the codes of the input, and the output fits. -/
theorem packBits_ok (s : State) (bits : BitString) (h : packBits s = .ok bits) :
    s.inLen ≠ 0 ∧ s.inLen.toNat ≤ s.params.inSize ∧ (∀ b ∈ inputBytes s, isCoded s b = true) ∧
      bits = encoded s (inputBytes s) ∧ bytesFor bits.length ≤ s.params.outSize := by
  unfold packBits at h
  rcases inputError_cases s with hc | hc | hc
  · rw [hc.2] at h; cases h
  · rw [hc.2.2] at h; cases h
  · rw [hc.2.2] at h
    obtain ⟨h1, h2, h3⟩ := (encodeFrom_ok s _ _ _ _).1 h
    refine ⟨hc.1, hc.2.1, h1, h2, ?_⟩
    have hne : inputBytes s ≠ [] := by
      intro e
      have := congrArg List.length e
      simp only [length_inputBytes, List.length_nil] at this
      exact hc.1 (BitVec.eq_of_toNat_eq (by simpa using this))
    simpa using h3 hne

/-- Every error of PACK. -/
theorem packBits_error (s : State) (e : CmdError) (h : packBits s = .error e) :
    e.code ∈ [.emptyInput, .badParameter, .codebookIncomplete, .outputOverflow] := by
  unfold packBits at h
  cases hi : inputError s with
  | some e' =>
    rw [hi] at h
    cases h
    rcases inputError_code s e hi with h | h <;> simp [h]
  | none =>
    rw [hi] at h
    rcases encodeFrom_error s _ _ _ _ h with h | h <;> simp [h]

/-- The loop reads the state only through the codes and OUT_SIZE. -/
theorem encodeFrom_congr (s t : State) (hp : t.params = s.params) (hi : isCoded t = isCoded s)
    (hc : codeOf t = codeOf s) (bytes : List Byte) :
    ∀ i len, encodeFrom t i len bytes = encodeFrom s i len bytes := by
  induction bytes with
  | nil => intro i len; rfl
  | cons b rest ih =>
    intro i len
    rw [encodeFrom, encodeFrom, hi, hc, hp, ih]

/-- The input checks read the state only through IN_LEN and IN_SIZE. -/
theorem inputError_congr (s t : State) (hp : t.params = s.params) (hl : t.inLen = s.inLen) :
    inputError t = inputError s := by
  rw [inputError, inputError, hp, hl]

theorem packBits_congr (s t : State) (hp : t.params = s.params) (hl : t.inLen = s.inLen)
    (hb : inputBytes t = inputBytes s) (hi : isCoded t = isCoded s) (hc : codeOf t = codeOf s) :
    packBits t = packBits s := by
  rw [packBits, packBits, inputError_congr s t hp hl, hb, encodeFrom_congr s t hp hi hc]

end Sys2Proof.Machine
end

