-- ==== Sys2Proof/Laws/PerInstr.lean ====
section
/-! SUPPORT. Statements made for each command: `WordShape`, the shape of its word (30_encoding.md rules R80, R82). -/

namespace Sys2Proof.Laws.WordShape

/-- The word of a command is well formed, is not zero, and no shorter row of the opcode table loses a bit of it. -/
def Statement (i : Instr) : Prop :=
  commandWordWf (encode i) = true ∧ encode i ≠ 0 ∧ tableWord 32 (encode i).toNat = encode i

theorem freq : Statement .freq := by unfold Statement; decide
theorem build : Statement .build := by unfold Statement; decide
theorem gencode : Statement .gencode := by unfold Statement; decide
theorem pack : Statement .pack := by unfold Statement; decide
theorem unpack : Statement .unpack := by unfold Statement; decide
theorem fclr : Statement .fclr := by unfold Statement; decide
theorem cbclr : Statement .cbclr := by unfold Statement; decide

end Sys2Proof.Laws.WordShape
end

