-- ==== Sys2Proof/Laws/Registers.lean ====
section
/-! SUPPORT. The bits of STATUS, of NODE_INFO and of the code windows. -/

namespace Sys2Proof.Machine

/-- The fields of STATUS (10_state.md rule R26). -/
theorem statusWord_fields (s : State) :
    (statusWord s).getLsbD 0 = s.busy ∧ (statusWord s).getLsbD 1 = s.done ∧ (statusWord s).getLsbD 2 = s.ovr ∧
    (statusWord s).getLsbD 3 = s.treeValid ∧ (statusWord s).extractLsb' 4 4 = 0 ∧
    (statusWord s).extractLsb' 8 4 = s.err.number ∧ (statusWord s).extractLsb' 12 4 = s.lastOp ∧
    (statusWord s).extractLsb' 16 16 = 0 := by
  have four : ∀ i < 4, i = 0 ∨ i = 1 ∨ i = 2 ∨ i = 3 := by omega
  unfold statusWord
  refine ⟨?_, ?_, ?_, ?_, ?_, ?_, ?_, ?_⟩
  iterate 4 · simp only [BitVec.getLsbD_append, bit]; simp
  iterate 3
    · apply BitVec.eq_of_getLsbD_eq
      intro i hi
      rcases four i hi with rfl | rfl | rfl | rfl <;>
        simp only [BitVec.getLsbD_append, bit, BitVec.getLsbD_extractLsb'] <;> simp
  · apply BitVec.eq_of_getLsbD_eq
    intro i hi
    have h1 : ¬ (16 + i < 1) := by omega
    have h2 : ¬ (16 + i - 1 < 1) := by omega
    have h3 : ¬ (16 + i - 1 - 1 < 1) := by omega
    have h4 : ¬ (16 + i - 1 - 1 - 1 < 1) := by omega
    have h5 : ¬ (16 + i - 1 - 1 - 1 - 1 < 4) := by omega
    have h6 : ¬ (16 + i - 1 - 1 - 1 - 1 - 4 < 4) := by omega
    have h7 : ¬ (16 + i - 1 - 1 - 1 - 1 - 4 - 4 < 4) := by omega
    simp only [BitVec.getLsbD_append, bit, BitVec.getLsbD_extractLsb', h1, h2, h3, h4, h5, h6, h7]
    simp

/-- The register of a code window (10_state.md rule R47). -/
theorem regAt_cbCode (k : Nat) (hk : k < 8) : regAt (0x040 + 4 * k) = .cbCode ⟨k, hk⟩ := by
  have : k = 0 ∨ k = 1 ∨ k = 2 ∨ k = 3 ∨ k = 4 ∨ k = 5 ∨ k = 6 ∨ k = 7 := by omega
  rcases this with rfl | rfl | rfl | rfl | rfl | rfl | rfl | rfl <;> rfl

/-- A read of a code window shows its 32 bits of the code; bit 255 reads 0. -/
theorem codeWindow_bit (c : CodeBits) (k j : Nat) (hk : k < 8) (hj : j < 32) :
    ((c.setWidth 256).extractLsb' (32 * k) 32).getLsbD j = c.getLsbD (32 * k + j) := by
  simp only [BitVec.getLsbD_extractLsb', BitVec.getLsbD_setWidth, hj]
  have : 32 * k + j < 256 := by omega
  simp [this]

/-- A write of a code window replaces its 32 bits of the code and no other. -/
theorem putCodeWord_bit (c : CodeBits) (k : Nat) (v : Word) (j : Nat) (hj : j < 255) :
    (putCodeWord c k v).getLsbD j =
      if 32 * k ≤ j ∧ j < 32 * k + 32 then v.getLsbD (j - 32 * k) else c.getLsbD j := by
  have hmask : (0xFFFFFFFF : BitVec 256).getLsbD (j - 32 * k) = decide (j - 32 * k < 32) := by
    have : (0xFFFFFFFF : BitVec 256) = BitVec.setWidth 256 (BitVec.allOnes 32) := by decide
    rw [this, BitVec.getLsbD_setWidth, BitVec.getLsbD_allOnes]
    by_cases h : j - 32 * k < 32 <;> simp [h]; omega
  unfold putCodeWord
  simp only [BitVec.getLsbD_setWidth, BitVec.getLsbD_or, BitVec.getLsbD_and, BitVec.getLsbD_not,
    BitVec.getLsbD_shiftLeft]
  rw [hmask]
  by_cases h1 : j < 32 * k
  · simp [h1, hj, show ¬ 32 * k ≤ j by omega, show j < 256 by omega]
  · by_cases h2 : j < 32 * k + 32
    · simp [h1, h2, hj, show 32 * k ≤ j by omega, show j < 256 by omega, show j - 32 * k < 32 by omega]
      intro; omega
    · have : v.getLsbD (j - 32 * k) = false := BitVec.getLsbD_of_ge _ _ (by omega)
      simp [h1, h2, hj, show 32 * k ≤ j by omega, show j < 256 by omega, show ¬ j - 32 * k < 32 by omega, this]

end Sys2Proof.Machine
end

