-- ==== Sys2Proof/Laws/Step.lean ====
section
/-! SUPPORT. Everything a command step and a step of the machine can do. -/

namespace Sys2Proof.Machine

/-- Everything the Core's turn can do: nothing when idle, the command of a defined word, or ILLEGAL_COMMAND. -/
theorem commandStep_cases (s : State) :
    (s.pending = none ∧ commandStep s = .next s) ∨
    (∃ w i, s.pending = some w ∧ decode w = .command i ∧ commandStep s = exec i s) ∨
    (∃ w r, s.pending = some w ∧ decode w = .illegal r ∧
      commandStep s = .next (complete { code := .illegalCommand, pos := 0, aux := w } s)) := by
  unfold commandStep
  cases hp : s.pending with
  | none => exact Or.inl ⟨rfl, rfl⟩
  | some w =>
    cases hd : decode w with
    | command i => exact Or.inr (Or.inl ⟨w, i, rfl, hd, by simp only [hd]⟩)
    | illegal r => exact Or.inr (Or.inr ⟨w, r, rfl, hd, by simp only [hd]; rfl⟩)

/-- Everything a step that is made can be. -/
theorem step_cases {s t : State} (h : step s = .next t) :
    (s.inputs = [] ∧ s.busy = false ∧ t = s) ∨
    (coreNext s ∧ (s.inputs = [] → s.busy = true) ∧ commandStep (takeTurn s) = .next t) ∨
    (∃ a, hostNext s a ∧ hostAccess a (takeTurn s) = .next t) ∨
    ((∃ rest, s.inputs = .hardReset :: rest) ∧ t = hardReset (takeTurn s)) := by
  unfold step nextMove at h
  split at h
  · next hi =>
    by_cases hb : s.busy = true
    · rw [if_pos hb] at h
      exact Or.inr (Or.inl ⟨Or.inl hi, fun _ => hb, h⟩)
    · rw [if_neg hb] at h
      cases h
      exact Or.inl ⟨hi, by simpa using hb, rfl⟩
  · next a rest hi => exact Or.inr (Or.inr (Or.inl ⟨a, ⟨rest, hi⟩, h⟩))
  · next rest hi => exact Or.inr (Or.inl ⟨Or.inr ⟨rest, hi⟩, fun e => by simp [e] at hi, h⟩)
  · next rest hi => cases h; exact Or.inr (Or.inr (Or.inr ⟨⟨rest, hi⟩, rfl⟩))

/-- The word of a command decodes to it. -/
theorem decode_iff (w : Word) (i : Instr) : decode w = .command i ↔ encode i = w := by
  constructor
  · intro h
    unfold decode at h
    split at h
    · cases h
    · next hr =>
      have hr : rsvField w = 0 := by simpa using hr
      have hw : w = (0 : BitVec 28) ++ opField w := by
        have hsplit : w = rsvField w ++ opField w := by
          apply BitVec.eq_of_getLsbD_eq
          intro j hj
          simp only [rsvField, opField, BitVec.getLsbD_append, BitVec.getLsbD_extractLsb']
          by_cases h4 : j < 4
          · simp [h4]
          · have : j - 4 < 28 := by omega
            simp [h4, this, show 4 + (j - 4) = j by omega]
        rw [hr] at hsplit
        exact hsplit
      have hop : ∀ op : BitVec 4, ∀ j, opcodeInstr op.toNat = some j → j.opcode = op := by decide
      cases ho : opcodeInstr (opField w).toNat with
      | none => rw [ho] at h; cases h
      | some j =>
        rw [ho] at h
        cases h
        rw [encode, hop _ _ ho]
        exact hw.symm
  · rintro rfl
    cases i <;> decide

theorem decodeInstr_iff (w : Word) (i : Instr) : decodeInstr w = some i ↔ decode w = .command i := by
  unfold decodeInstr
  cases h : decode w <;> simp

/-- A word is well formed exactly when it decodes. -/
theorem commandWordWf_iff (w : Word) : commandWordWf w = true ↔ ∃ i, encode i = w := by
  constructor
  · intro h
    simp only [commandWordWf, Bool.and_eq_true, decide_eq_true_eq] at h
    obtain ⟨⟨h1, h2⟩, h3⟩ := h
    have hr : rsvField w = 0 := h1
    have key : ∀ op : BitVec 4, 1 ≤ op.toNat → op.toNat ≤ 7 → (opcodeInstr op.toNat).isSome = true := by decide
    obtain ⟨i, hi⟩ := Option.isSome_iff_exists.1 (key (opField w) h2 h3)
    exact ⟨i, (decode_iff w i).1 (by simp [decode, hr, hi])⟩
  · rintro ⟨i, rfl⟩
    cases i <;> decide

theorem run_zero (s : State) : Host.Core.run Sys2Proof.core 0 s = .next s := rfl

theorem host_run_succ (M : Host.Core) (k : Nat) (s t : M.State) (h : M.step s = .next t) :
    M.run (k + 1) s = M.run k t := by
  simp [Host.Core.run, h]

/-- A run of one step more. -/
theorem run_succ (k : Nat) (s t : State) (h : step s = .next t) :
    Host.Core.run Sys2Proof.core (k + 1) s = Host.Core.run Sys2Proof.core k t :=
  host_run_succ Sys2Proof.core k s t h

/-! ### The end of a run -/

/-- The run goes on while the host has an access to make. -/
theorem not_runEnded_of_host {s : State} {a : HostAccess} (h : .host a ∈ s.inputs) : ¬ s.runEnded := by
  intro he
  have := he.1 _ h
  simp [isHostMove] at this

/-- The run goes on while a command runs. -/
theorem not_runEnded_of_busy {s : State} (h : s.busy = true) : ¬ s.runEnded := by
  intro he
  rw [he.2] at h
  cases h

/-- Before its end a run makes one step and ends as the rest of it does. -/
theorem runEndsWith_succ {k : Nat} {s t u : State} (h : step s = .next u) (hs : ¬ s.runEnded)
    (hu : runEndsWith k u t) : runEndsWith (k + 1) s t := by
  refine ⟨(run_succ k s u h).trans hu.1, hu.2.1, ?_⟩
  intro j hj v hv
  cases j with
  | zero => cases hv; exact hs
  | succ j => exact hu.2.2 j (by omega) v ((run_succ j s u h).symm.trans hv)

/-- A state in which the run has ended is its end. -/
theorem runEndsWith_zero {s : State} (h : s.runEnded) : runEndsWith 0 s s :=
  ⟨rfl, h, fun j hj => absurd hj (Nat.not_lt_zero j)⟩

end Sys2Proof.Machine
end

