-- ==== Sys2Proof/Laws/Tree.lean ====
section
/-! SUPPORT. What BUILD can answer, and the invariant of its merge loop: after each merge the queue holds exactly the
nodes without a parent, and every internal node was made of the two least nodes queued at its time. -/

namespace Sys2Proof.Machine

/-- Everything BUILD can answer. -/
theorem execBuild_cases (s : State) :
    (leavesOf s.freq = [] ∧ execBuild s = .next (complete emptyInputError (dropTree s))) ∨
    (leavesOf s.freq ≠ [] ∧ execBuild s = .next (complete { code := .noError, pos := 0, aux := 0 } { s with
      treeValid := true
      nodes     := (treeOf s.freq).1
      root      := BitVec.ofNat 9 (rootOf (treeOf s.freq).2)
      nLeaf     := BitVec.ofNat 9 (leavesOf s.freq).length
      nNode     := BitVec.ofNat 10 (treeOf s.freq).1.length })) := by
  unfold execBuild
  by_cases h : leavesOf s.freq = []
  · exact Or.inl ⟨h, by rw [if_pos h]; rfl⟩
  · exact Or.inr ⟨h, by rw [if_neg h]; rfl⟩

/-! ### The removal order -/

theorem before_iff (x y : Queued) :
    x.before y = true ↔ x.freq.toNat < y.freq.toNat ∨ (x.freq.toNat = y.freq.toNat ∧ x.idx < y.idx) := by
  simp [Queued.before, BitVec.lt_def, BitVec.toNat_inj]

theorem leastOf_mem (xs : List Queued) : ∀ x, leastOf x xs ∈ x :: xs := by
  induction xs with
  | nil => intro x; simp [leastOf]
  | cons y ys ih =>
    intro x
    have := ih (if y.before x then y else x)
    rw [leastOf]
    rcases List.mem_cons.1 this with h | h
    · rw [h]; split <;> simp
    · exact List.mem_cons_of_mem _ (List.mem_cons_of_mem _ h)

/-- No entry comes before the least one. -/
theorem leastOf_least (xs : List Queued) : ∀ x, ∀ y ∈ x :: xs, y.before (leastOf x xs) = false := by
  induction xs with
  | nil =>
    intro x y hy
    rw [List.mem_singleton.1 hy, leastOf, Bool.eq_false_iff, Ne, before_iff]
    omega
  | cons z zs ih =>
    intro x y hy
    rw [leastOf]
    have hhead := ih (if z.before x then z else x) (if z.before x then z else x) (by simp)
    rcases List.mem_cons.1 hy with rfl | hy
    · by_cases h : z.before y = true
      · simp only [h, if_true] at hhead ⊢
        rw [Bool.eq_false_iff, Ne, before_iff] at hhead ⊢
        rw [before_iff] at h
        omega
      · simpa [h] using hhead
    · rcases List.mem_cons.1 hy with rfl | hy
      · by_cases h : y.before x = true
        · simpa [h] using hhead
        · simp only [h, Bool.false_eq_true, if_false] at hhead ⊢
          rw [before_iff] at h
          rw [Bool.eq_false_iff, Ne, before_iff] at hhead ⊢
          omega
      · exact ih _ y (List.mem_cons_of_mem _ hy)

/-- What taking the least entry gives. -/
theorem takeLeast_spec (q : List Queued) (h : q ≠ []) :
    ∃ x, x ∈ q ∧ takeLeast q = some (x, q.erase x) ∧ ∀ y ∈ q, y.before x = false := by
  cases q with
  | nil => exact absurd rfl h
  | cons x xs => exact ⟨leastOf x xs, leastOf_mem xs x, rfl, leastOf_least xs x⟩

/-! ### The arena -/

theorem nodeAt_append_left (nodes : List Node) (x : Node) (k : Nat) (h : k < nodes.length) :
    nodeAt (nodes ++ [x]) k = nodeAt nodes k := by
  simp [nodeAt, List.getElem?_append_left h]

theorem nodeAt_append_last (nodes : List Node) (x : Node) : nodeAt (nodes ++ [x]) nodes.length = x := by
  simp [nodeAt]

theorem nodeAt_of_getElem? (nodes : List Node) (k : Nat) (x : Node) (h : nodes[k]? = some x) : nodeAt nodes k = x := by
  simp [nodeAt, h]

theorem isChild_append_left (nodes : List Node) (x : Node) (j k : Nat) (h : k < nodes.length) :
    isChild (nodes ++ [x]) j k ↔ isChild nodes j k := by
  simp [isChild, nodeAt_append_left nodes x k h]

theorem queuedAt_append (nodes : List Node) (x : Node) (n k j : Nat) (h : k ≤ nodes.length) :
    queuedAt (nodes ++ [x]) n k j ↔ queuedAt nodes n k j := by
  unfold queuedAt
  refine and_congr_right fun _ => forall_congr' fun m => ?_
  refine forall_congr' fun hm => ?_
  rw [isChild_append_left _ _ _ _ (by omega)]

theorem removedBefore_append (nodes : List Node) (x : Node) (i j : Nat) (hi : i < nodes.length)
    (hj : j < nodes.length) : removedBefore (nodes ++ [x]) i j ↔ removedBefore nodes i j := by
  simp [removedBefore, nodeAt_append_left nodes x i hi, nodeAt_append_left nodes x j hj]

/-- An internal node as the greedy merge makes it (40_frequency_tree.md rules R104 to R107). -/
def GreedyJoin (nodes : List Node) (n k : Nat) : Prop :=
  (nodeAt nodes k).leaf = false ∧
  ∃ i j, (nodeAt nodes k).left.toNat = i ∧ (nodeAt nodes k).right.toNat = j ∧ i ≠ j ∧
    queuedAt nodes n k i ∧ queuedAt nodes n k j ∧
    (∀ m, queuedAt nodes n k m → m ≠ i → removedBefore nodes i m) ∧
    (∀ m, queuedAt nodes n k m → m ≠ i → m ≠ j → removedBefore nodes j m) ∧
    (nodeAt nodes k).freq.toNat = (nodeAt nodes i).freq.toNat + (nodeAt nodes j).freq.toNat

theorem greedyJoin_append (nodes : List Node) (x : Node) (n k : Nat) (h : k < nodes.length)
    (hg : GreedyJoin nodes n k) : GreedyJoin (nodes ++ [x]) n k := by
  obtain ⟨hl, i, j, h1, h2, h3, h4, h5, h6, h7, h8⟩ := hg
  have hi : i < nodes.length := by have := h4.1; omega
  have hj : j < nodes.length := by have := h5.1; omega
  refine ⟨?_, i, j, ?_, ?_, h3, ?_, ?_, ?_, ?_, ?_⟩
  · rwa [nodeAt_append_left _ _ _ h]
  · rwa [nodeAt_append_left _ _ _ h]
  · rwa [nodeAt_append_left _ _ _ h]
  · rwa [queuedAt_append _ _ _ _ _ (by omega)]
  · rwa [queuedAt_append _ _ _ _ _ (by omega)]
  · intro m hm hne
    rw [queuedAt_append _ _ _ _ _ (by omega)] at hm
    have hml : m < nodes.length := by have := hm.1; omega
    rw [removedBefore_append _ _ _ _ hi hml]
    exact h6 m hm hne
  · intro m hm hne hne'
    rw [queuedAt_append _ _ _ _ _ (by omega)] at hm
    have hml : m < nodes.length := by have := hm.1; omega
    rw [removedBefore_append _ _ _ _ hj hml]
    exact h7 m hm hne hne'
  · rw [nodeAt_append_left _ _ _ h, nodeAt_append_left _ _ _ hi, nodeAt_append_left _ _ _ hj]
    exact h8

/-- The invariant of the merge loop over `n` leaves whose counts sum to `total`. -/
structure MergeInv (n total : Nat) (nodes : List Node) (q : List Queued) : Prop where
  leaves  : n ≤ nodes.length
  lengths : q.length + nodes.length = 2 * n
  nodup   : (q.map Queued.idx).Nodup
  members : ∀ j, j ∈ q.map Queued.idx ↔ queuedAt nodes n nodes.length j
  freqs   : ∀ e ∈ q, (nodeAt nodes e.idx).freq = e.freq
  sum     : (q.map fun e => e.freq.toNat).sum = total
  joins   : ∀ k < nodes.length, n ≤ k → GreedyJoin nodes n k

theorem MergeInv.idx_lt {n total : Nat} {nodes : List Node} {q : List Queued} (h : MergeInv n total nodes q)
    {e : Queued} (he : e ∈ q) : e.idx < nodes.length :=
  ((h.members e.idx).1 (List.mem_map_of_mem he)).1

/-- In a queue without repeated indices, an entry with another index is another entry, and conversely. -/
theorem eq_of_idx_eq {q : List Queued} (hn : (q.map Queued.idx).Nodup) {x y : Queued} (hx : x ∈ q) (hy : y ∈ q)
    (h : x.idx = y.idx) : x = y :=
  List.inj_on_of_nodup_map hn hx hy h

/-- One merge keeps the invariant. -/
theorem merge_keeps {n total : Nat} {nodes : List Node} {q : List Queued} (hinv : MergeInv n total nodes q)
    (hn : n ≤ 256) (ht : total < 2 ^ 40) (hlen : 2 ≤ q.length) :
    ∃ x y, takeLeast q = some (x, q.erase x) ∧ takeLeast (q.erase x) = some (y, (q.erase x).erase y) ∧
      MergeInv n total (nodes ++ [joinNode x y])
        ((q.erase x).erase y ++ [{ freq := x.freq + y.freq, idx := nodes.length }]) := by
  obtain ⟨x, hx, hxt, hxl⟩ := takeLeast_spec q (by intro e; rw [e] at hlen; simp at hlen)
  have hqx : (q.erase x).length = q.length - 1 := List.length_erase_of_mem hx
  obtain ⟨y, hy, hyt, hyl⟩ := takeLeast_spec (q.erase x) (by intro e; rw [e] at hqx; simp at hqx; omega)
  refine ⟨x, y, hxt, hyt, ?_⟩
  have hqn : q.Nodup := hinv.nodup.of_map
  have hyq : y ∈ q := List.mem_of_mem_erase hy
  have hyx : y ≠ x := fun e => by
    rw [e] at hy
    exact (List.Nodup.not_mem_erase hqn) hy
  have hqy : ((q.erase x).erase y).length = q.length - 2 := by
    rw [List.length_erase_of_mem hy, hqx]; omega
  have hmem2 : ∀ e, e ∈ (q.erase x).erase y ↔ e ∈ q ∧ e ≠ x ∧ e ≠ y := by
    intro e
    rw [(hqn.erase x).mem_erase_iff, hqn.mem_erase_iff]
    tauto
  have hxi : x.idx < nodes.length := hinv.idx_lt hx
  have hyi : y.idx < nodes.length := hinv.idx_lt hyq
  have hxy : x.idx ≠ y.idx := fun e => hyx (eq_of_idx_eq hinv.nodup hx hyq e).symm
  have hbound : nodes.length < 512 := by have := hinv.lengths; omega
  have hlx : (joinNode x y).left.toNat = x.idx := by simp [joinNode]; omega
  have hly : (joinNode x y).right.toNat = y.idx := by simp [joinNode]; omega
  have hsum : x.freq.toNat + y.freq.toNat + (((q.erase x).erase y).map fun e => e.freq.toNat).sum = total := by
    have h1 : ((x :: q.erase x).map fun e => e.freq.toNat).sum = (q.map fun e => e.freq.toNat).sum :=
      ((List.perm_cons_erase hx).symm.map _).sum_eq
    have h2 : ((y :: (q.erase x).erase y).map fun e => e.freq.toNat).sum =
        ((q.erase x).map fun e => e.freq.toNat).sum :=
      ((List.perm_cons_erase hy).symm.map _).sum_eq
    rw [List.map_cons, List.sum_cons] at h1 h2
    rw [← hinv.sum, ← h1, ← h2]
    omega
  have hfsum : (x.freq + y.freq).toNat = x.freq.toNat + y.freq.toNat := by
    rw [BitVec.toNat_add]
    exact Nat.mod_eq_of_lt (by omega)
  -- node k is the new one exactly at the end; the children of the new node are x and y
  have hchild : ∀ j, isChild (nodes ++ [joinNode x y]) j nodes.length ↔ x.idx = j ∨ y.idx = j := by
    intro j
    simp only [isChild, nodeAt_append_last, hlx, hly]
  have hq : ∀ j, queuedAt nodes n nodes.length j ↔ ∃ e ∈ q, e.idx = j := by
    intro j
    rw [← hinv.members j, List.mem_map]
  refine ⟨?_, ?_, ?_, ?_, ?_, ?_, ?_⟩
  · simp; have := hinv.leaves; omega
  · simp [hqy]; have := hinv.lengths; omega
  · rw [List.map_append, List.nodup_append]
    refine ⟨((hinv.nodup.sublist ((List.erase_sublist.trans List.erase_sublist).map _))), by simp, ?_⟩
    intro a ha b hb
    simp only [List.map_cons, List.map_nil, List.mem_singleton] at hb
    rw [List.mem_map] at ha
    obtain ⟨e, he, rfl⟩ := ha
    have := hinv.idx_lt ((hmem2 e).1 he).1
    omega
  · intro j
    rw [List.map_append, List.mem_append]
    simp only [List.map_cons, List.map_nil, List.mem_singleton, List.length_append, List.length_singleton]
    constructor
    · rintro (h | h)
      · rw [List.mem_map] at h
        obtain ⟨e, he, rfl⟩ := h
        obtain ⟨heq, hne1, hne2⟩ := (hmem2 e).1 he
        have hqa := (hq e.idx).2 ⟨e, heq, rfl⟩
        refine ⟨by have := hqa.1; omega, ?_⟩
        intro m hm hnm hc
        rcases Nat.lt_succ_iff_lt_or_eq.1 hm with hm' | hm'
        · rw [isChild_append_left _ _ _ _ hm'] at hc
          exact hqa.2 m hm' hnm hc
        · rw [hm', hchild] at hc
          rcases hc with hc | hc
          · exact hne1 (eq_of_idx_eq hinv.nodup heq hx hc.symm)
          · exact hne2 (eq_of_idx_eq hinv.nodup heq hyq hc.symm)
      · subst h
        refine ⟨by omega, ?_⟩
        intro m hm hnm hc
        rcases Nat.lt_succ_iff_lt_or_eq.1 hm with hm' | hm'
        · rw [isChild_append_left _ _ _ _ hm'] at hc
          obtain ⟨-, i, j, h1, h2, -, h4, h5, -⟩ := hinv.joins m hm' hnm
          have := h4.1
          have := h5.1
          rcases hc with hc | hc <;> omega
        · rw [hm', hchild] at hc
          omega
    · rintro ⟨hj, hnp⟩
      rcases Nat.lt_succ_iff_lt_or_eq.1 hj with hj' | hj'
      · left
        have hqa : queuedAt nodes n nodes.length j := by
          refine ⟨hj', ?_⟩
          intro m hm hnm hc
          exact hnp m (by omega) hnm ((isChild_append_left _ _ _ _ hm).2 hc)
        obtain ⟨e, he, rfl⟩ := (hq j).1 hqa
        have hnew := hnp nodes.length (by omega) hinv.leaves
        rw [hchild] at hnew
        refine List.mem_map_of_mem ((hmem2 e).2 ⟨he, ?_, ?_⟩)
        · rintro rfl; exact hnew (Or.inl rfl)
        · rintro rfl; exact hnew (Or.inr rfl)
      · right; exact hj'
  · intro e he
    rw [List.mem_append] at he
    rcases he with he | he
    · have heq := ((hmem2 e).1 he).1
      rw [nodeAt_append_left _ _ _ (hinv.idx_lt heq)]
      exact hinv.freqs e heq
    · rw [List.mem_singleton.1 he, nodeAt_append_last]
      rfl
  · rw [List.map_append, List.sum_append]
    simp only [List.map_cons, List.map_nil, List.sum_cons, List.sum_nil, hfsum]
    omega
  · intro k hk hnk
    simp only [List.length_append, List.length_singleton] at hk
    rcases Nat.lt_succ_iff_lt_or_eq.1 hk with hk' | hk'
    · exact greedyJoin_append _ _ _ _ hk' (hinv.joins k hk' hnk)
    · subst hk'
      have hqk : ∀ j, queuedAt (nodes ++ [joinNode x y]) n nodes.length j ↔ ∃ e ∈ q, e.idx = j := by
        intro j
        rw [queuedAt_append _ _ _ _ _ (le_refl _), hq]
      have hfx : (nodeAt (nodes ++ [joinNode x y]) x.idx).freq = x.freq := by
        rw [nodeAt_append_left _ _ _ hxi, hinv.freqs x hx]
      have hfy : (nodeAt (nodes ++ [joinNode x y]) y.idx).freq = y.freq := by
        rw [nodeAt_append_left _ _ _ hyi, hinv.freqs y hyq]
      refine ⟨by rw [nodeAt_append_last]; rfl, x.idx, y.idx, by rw [nodeAt_append_last, hlx],
        by rw [nodeAt_append_last, hly], hxy, (hqk _).2 ⟨x, hx, rfl⟩, (hqk _).2 ⟨y, hyq, rfl⟩, ?_, ?_, ?_⟩
      · intro m hm hne
        obtain ⟨e, he, rfl⟩ := (hqk m).1 hm
        have hfe : (nodeAt (nodes ++ [joinNode x y]) e.idx).freq = e.freq := by
          rw [nodeAt_append_left _ _ _ (hinv.idx_lt he), hinv.freqs e he]
        have := hxl e he
        rw [Bool.eq_false_iff, Ne, before_iff] at this
        unfold removedBefore
        rw [hfx, hfe]
        omega
      · intro m hm hne hne'
        obtain ⟨e, he, rfl⟩ := (hqk m).1 hm
        have hfe : (nodeAt (nodes ++ [joinNode x y]) e.idx).freq = e.freq := by
          rw [nodeAt_append_left _ _ _ (hinv.idx_lt he), hinv.freqs e he]
        have := hyl e (hqn.mem_erase_iff.2 ⟨fun h => hne (by rw [h]), he⟩)
        rw [Bool.eq_false_iff, Ne, before_iff] at this
        unfold removedBefore
        rw [hfy, hfe]
        omega
      · rw [nodeAt_append_last, hfx, hfy]
        exact hfsum

/-- The loop ends with one queued node and keeps the invariant. -/
theorem mergeLoop_spec {n total : Nat} (hn : n ≤ 256) (ht : total < 2 ^ 40) :
    ∀ (fuel : Nat) (nodes : List Node) (q : List Queued), MergeInv n total nodes q → 1 ≤ q.length →
      q.length ≤ fuel + 1 →
      MergeInv n total (mergeLoop fuel q nodes).1 (mergeLoop fuel q nodes).2 ∧
      (mergeLoop fuel q nodes).2.length = 1 ∧ ∃ more, (mergeLoop fuel q nodes).1 = nodes ++ more := by
  intro fuel
  induction fuel with
  | zero =>
    intro nodes q hinv h1 h2
    exact ⟨hinv, by simp [mergeLoop]; omega, [], by simp [mergeLoop]⟩
  | succ fuel ih =>
    intro nodes q hinv h1 h2
    by_cases hone : q.length = 1
    · match q, hone with
      | [x], _ =>
        have : mergeLoop (fuel + 1) [x] nodes = (nodes, [x]) := by
          simp [mergeLoop, takeLeast, leastOf]
        rw [this]
        exact ⟨hinv, rfl, [], by simp⟩
    · obtain ⟨x, y, hx, hy, hinv'⟩ := merge_keeps hinv hn ht (by omega)
      have hstep : mergeLoop (fuel + 1) q nodes =
          mergeLoop fuel ((q.erase x).erase y ++ [{ freq := x.freq + y.freq, idx := nodes.length }])
            (nodes ++ [joinNode x y]) := by
        simp [mergeLoop, hx, hy]
      rw [hstep]
      have hl := hinv'.lengths
      have hl0 := hinv.lengths
      simp only [List.length_append, List.length_singleton] at hl
      obtain ⟨a, b, more, hm⟩ := ih _ _ hinv' (by simp) (by simp; omega)
      exact ⟨a, b, [joinNode x y] ++ more, by rw [hm]; simp⟩

/-! ### The leaves -/

@[simp] theorem length_leavesOf (freq : Table Count) : (leavesOf freq).length = distinctCount freq := by
  simp [leavesOf, distinctCount, distinctSymbols]

theorem distinctCount_le (freq : Table Count) : distinctCount freq ≤ 256 := by
  unfold distinctCount distinctSymbols
  exact le_trans (List.length_filter_le _ _) (by simp)

theorem mem_distinctSymbols (freq : Table Count) (b : Byte) : b ∈ distinctSymbols freq ↔ freq.at b ≠ 0 := by
  simp [distinctSymbols]

theorem distinctSymbols_ascend (freq : Table Count) :
    (distinctSymbols freq).Pairwise (fun a b => a.toNat < b.toNat) :=
  allSymbols_ascend.filter _

theorem leavesOf_getElem? (freq : Table Count) (k : Nat) :
    (leavesOf freq)[k]? = ((distinctSymbols freq)[k]?).map fun b => leafNode b (freq.at b) := by
  simp [leavesOf, distinctSymbols]

/-- The leaves' frequencies sum to the sum of all counts. -/
theorem leaves_sum (freq : Table Count) :
    ((leavesOf freq).map fun n => n.freq.toNat).sum = (allSymbols.map fun b => (freq.at b).toNat).sum := by
  unfold leavesOf
  rw [List.map_map]
  have h : ∀ l : List Byte,
      ((l.filter fun b => decide (freq.at b ≠ 0)).map ((fun n : Node => n.freq.toNat) ∘
        fun b => leafNode b (freq.at b))).sum = (l.map fun b => (freq.at b).toNat).sum := by
    intro l
    induction l with
    | nil => rfl
    | cons b l ih =>
      by_cases hb : freq.at b = 0
      · simp only [List.filter_cons, hb, ne_eq, not_true_eq_false, decide_false, Bool.false_eq_true, if_false,
          List.map_cons, List.sum_cons]
        rw [ih]
        simp
      · simp only [List.filter_cons, ne_eq, hb, not_false_eq_true, decide_true, if_true, List.map_cons,
          List.sum_cons]
        rw [ih]
        have hlt := (freq.at b).isLt
        simp [leafNode]
        omega
  exact h allSymbols

/-- 256 counts below 2^32 sum below 2^40 (40_frequency_tree.md rule R106). -/
theorem total_lt (freq : Table Count) : (allSymbols.map fun b => (freq.at b).toNat).sum < 2 ^ 40 := by
  have h : ∀ l : List Byte, (l.map fun b => (freq.at b).toNat).sum ≤ l.length * (2 ^ 32 - 1) := by
    intro l
    induction l with
    | nil => simp
    | cons b l ih =>
      have hlt := (freq.at b).isLt
      simp only [List.map_cons, List.sum_cons, List.length_cons]
      omega
  have := h allSymbols
  simp only [length_allSymbols] at this
  omega

/-- The loop's invariant holds at its start. -/
theorem mergeInv_start (freq : Table Count) :
    MergeInv (distinctCount freq) (allSymbols.map fun b => (freq.at b).toNat).sum (leavesOf freq)
      (queueOf (leavesOf freq)) := by
  have hidx : (queueOf (leavesOf freq)).map Queued.idx = List.range (distinctCount freq) := by
    simp [queueOf, Function.comp_def]
  refine ⟨by simp, by simp [queueOf]; omega, ?_, ?_, ?_, ?_, ?_⟩
  · rw [hidx]; exact List.nodup_range
  · intro j
    rw [hidx, List.mem_range]
    unfold queuedAt
    rw [length_leavesOf]
    constructor
    · intro h; exact ⟨h, fun m hm hnm => by omega⟩
    · exact fun h => h.1
  · intro e he
    simp only [queueOf, List.mem_map] at he
    obtain ⟨k, -, rfl⟩ := he
    rfl
  · rw [← leaves_sum]
    unfold queueOf
    rw [List.map_map]
    congr 1
    apply List.ext_getElem
    · simp
    · intro i h1 h2
      simp only [List.getElem_map, List.getElem_range, Function.comp]
      simp only [List.length_map] at h2
      rw [nodeAt_of_getElem? _ _ _ (List.getElem?_eq_getElem h2)]
  · intro k hk hnk
    rw [length_leavesOf] at hk
    omega

/-- What the tree builder leaves: the invariant, one queued node, and the leaves in front. -/
theorem treeOf_spec (freq : Table Count) (h : 1 ≤ distinctCount freq) :
    MergeInv (distinctCount freq) (allSymbols.map fun b => (freq.at b).toNat).sum (treeOf freq).1 (treeOf freq).2 ∧
    (treeOf freq).2.length = 1 ∧ ∃ more, (treeOf freq).1 = leavesOf freq ++ more := by
  unfold treeOf
  refine mergeLoop_spec (distinctCount_le freq) (total_lt freq) _ _ _ (mergeInv_start freq) ?_ ?_
  · simp [queueOf]; exact h
  · simp [queueOf]

theorem length_treeOf (freq : Table Count) (h : 1 ≤ distinctCount freq) :
    (treeOf freq).1.length = 2 * distinctCount freq - 1 := by
  obtain ⟨hinv, hone, -⟩ := treeOf_spec freq h
  have := hinv.lengths
  omega

/-- The node that is left is the last one made. -/
theorem rootOf_treeOf (freq : Table Count) (h : 1 ≤ distinctCount freq) :
    rootOf (treeOf freq).2 = 2 * distinctCount freq - 2 ∧
    ∃ e, (treeOf freq).2 = [e] ∧ e.idx = 2 * distinctCount freq - 2 := by
  obtain ⟨hinv, hone, -⟩ := treeOf_spec freq h
  have hlen := length_treeOf freq h
  obtain ⟨e, he⟩ := List.length_eq_one_iff.1 hone
  have hlast : queuedAt (treeOf freq).1 (distinctCount freq) (treeOf freq).1.length (2 * distinctCount freq - 2) := by
    refine ⟨by omega, ?_⟩
    intro m hm hnm hc
    obtain ⟨-, i, j, h1, h2, -, h4, h5, -⟩ := hinv.joins m hm hnm
    have := h4.1
    have := h5.1
    rcases hc with hc | hc <;> omega
  have hmem := (hinv.members _).2 hlast
  rw [he] at hmem
  simp only [List.map_cons, List.map_nil, List.mem_singleton] at hmem
  have hidx : e.idx = 2 * distinctCount freq - 2 := hmem.symm
  exact ⟨by rw [he]; exact hidx, e, he, hidx⟩

/-- The leaves stand in front, in ascending order of symbol (40_frequency_tree.md rule R108). -/
theorem treeOf_leaf (freq : Table Count) (h : 1 ≤ distinctCount freq) (k : Nat) (b : Byte)
    (hb : (distinctSymbols freq)[k]? = some b) : (treeOf freq).1[k]? = some (leafNode b (freq.at b)) := by
  obtain ⟨-, -, more, hm⟩ := treeOf_spec freq h
  have hl := leavesOf_getElem? freq k
  rw [hb] at hl
  rw [hm, List.getElem?_append_left, hl]
  · rfl
  · exact (List.getElem?_eq_some_iff.1 hl).1

/-- The tree builder's arena has the properties of 10_state.md rule R44. -/
theorem treeOf_shape (freq : Table Count) (h : 1 ≤ distinctCount freq) :
    TreeShape (treeOf freq).1 (distinctCount freq) := by
  obtain ⟨hinv, hone, -⟩ := treeOf_spec freq h
  have hlen := length_treeOf freq h
  obtain ⟨-, e, he, hei⟩ := rootOf_treeOf freq h
  have hleaf : ∀ k < distinctCount freq, ∃ b, (distinctSymbols freq)[k]? = some b ∧
      nodeAt (treeOf freq).1 k = leafNode b (freq.at b) := by
    intro k hk
    have hk' : k < (distinctSymbols freq).length := hk
    refine ⟨_, List.getElem?_eq_getElem hk', ?_⟩
    exact nodeAt_of_getElem? _ _ _ (treeOf_leaf freq h k _ (List.getElem?_eq_getElem hk'))
  refine ⟨⟨h, distinctCount_le freq⟩, hlen, ?_, ?_, ?_, ?_, ?_, ?_⟩
  · intro k hk
    obtain ⟨b, -, hb⟩ := hleaf k hk
    rw [hb]; rfl
  · intro k hk j hj
    obtain ⟨b, hb, hb'⟩ := hleaf k hk
    obtain ⟨c, hc, hc'⟩ := hleaf j (by omega)
    rw [hb', hc']
    obtain ⟨hk1, hk2⟩ := List.getElem?_eq_some_iff.1 hb
    obtain ⟨hj1, hj2⟩ := List.getElem?_eq_some_iff.1 hc
    have := (List.pairwise_iff_getElem.1 (distinctSymbols_ascend freq)) j k hj1 hk1 hj
    rw [hj2, hk2] at this
    exact this
  · intro k hk hnk
    exact (hinv.joins k (by omega) hnk).1
  · intro k hk hnk
    obtain ⟨-, i, j, h1, h2, h3, h4, h5, -⟩ := hinv.joins k (by omega) hnk
    refine ⟨by have := h4.1; omega, by have := h5.1; omega, ?_⟩
    intro e
    rw [e] at h1
    exact h3 (h1.symm.trans h2)
  · intro j hj
    have hnq : ¬ queuedAt (treeOf freq).1 (distinctCount freq) (treeOf freq).1.length j := by
      intro hq
      have := (hinv.members j).2 hq
      rw [he] at this
      simp only [List.map_cons, List.map_nil, List.mem_singleton] at this
      omega
    have : ∃ k < (treeOf freq).1.length, distinctCount freq ≤ k ∧ isChild (treeOf freq).1 j k := by
      by_contra hcon
      push Not at hcon
      exact hnq ⟨by omega, fun m hm hnm => hcon m hm hnm⟩
    obtain ⟨k, hk, hnk, hc⟩ := this
    have huniq : ∀ a b, a < (treeOf freq).1.length → b < (treeOf freq).1.length → distinctCount freq ≤ a →
        distinctCount freq ≤ b → isChild (treeOf freq).1 j a → isChild (treeOf freq).1 j b → ¬ a < b := by
      intro a b ha hb hna hnb hca hcb hab
      obtain ⟨-, i, i', h1, h2, -, h4, h5, -⟩ := hinv.joins b hb hnb
      rcases hcb with hcb | hcb
      · have hij : i = j := h1.symm.trans hcb
        subst hij
        exact h4.2 a hab hna hca
      · have hij : i' = j := h2.symm.trans hcb
        subst hij
        exact h5.2 a hab hna hca
    refine ⟨k, by omega, hnk, hc, ?_⟩
    intro m hm hnm hcm
    have h1 := huniq m k (by omega) hk hnm hnk hcm hc
    have h2 := huniq k m hk (by omega) hnk hnm hc hcm
    omega
  · intro k hk hnk
    obtain ⟨-, i, j, h1, h2, -, -, -, -, -, h8⟩ := hinv.joins k (by omega) hnk
    rw [h8, h1, h2]

end Sys2Proof.Machine
end

