-- ==== Sys2Proof/Laws/Unpack.lean ====
section
/-! SUPPORT. What UNPACK can answer, what its prefix check finds, and what its decoding loop does on a stream of codes. -/

namespace Sys2Proof.Machine

/-- Everything UNPACK can answer. -/
theorem execUnpack_cases (s : State) :
    (∃ e, unpackBytes s = .error e ∧ execUnpack s = .next (complete e
      { s with outLen := 0, outMem := Memory.scramble s.draws })) ∨
    (∃ bytes, unpackBytes s = .ok bytes ∧ execUnpack s = .next (complete { code := .noError, pos := 0, aux := 0 }
      { s with outMem := s.outMem.writeBytes 0 bytes, outLen := BitVec.ofNat 32 bytes.length })) := by
  unfold execUnpack
  cases h : unpackBytes s with
  | error e => exact Or.inl ⟨e, rfl, rfl⟩
  | ok bytes => exact Or.inr ⟨bytes, rfl, rfl⟩

/-! ### The prefix check -/

/-- Two entries of which one code is a prefix of the other. -/
def entriesClash (x y : Byte × BitString) : Prop := x.2 <+: y.2 ∨ y.2 <+: x.2

theorem clash_test (c : BitString) (e : Byte × BitString) :
    (prefixOf c e.2 || prefixOf e.2 c) = true ↔ c <+: e.2 ∨ e.2 <+: c := by
  simp [prefixOf_iff]

/-- The check finds nothing exactly when no two entries clash. -/
theorem ambiguousPair_none (cb : List (Byte × BitString)) :
    ambiguousPair cb = none ↔ cb.Pairwise fun x y => ¬ entriesClash x y := by
  induction cb with
  | nil => simp [ambiguousPair]
  | cons x rest ih =>
    obtain ⟨a, ca⟩ := x
    rw [ambiguousPair, List.pairwise_cons]
    cases hf : rest.find? fun e => prefixOf ca e.2 || prefixOf e.2 ca with
    | some e =>
      have hmem := List.mem_of_find?_eq_some hf
      have hcl := (clash_test ca e).1 (by simpa using List.find?_some hf)
      simp only [reduceCtorEq, false_iff, not_and]
      intro h
      exact absurd hcl (h e hmem)
    | none =>
      simp only [ih]
      rw [List.find?_eq_none] at hf
      constructor
      · intro h
        exact ⟨fun e he hc => hf e he ((clash_test ca e).2 hc), h⟩
      · exact fun h => h.2

/-- What the check finds is a clash, and every clash whose symbols both stand in an ascending codebook comes no earlier
in the order of pairs. -/
theorem ambiguousPair_some (cb : List (Byte × BitString)) (hasc : cb.Pairwise fun x y => x.1.toNat < y.1.toNat)
    (a b : Byte) (h : ambiguousPair cb = some (a, b)) :
    ∃ ca cb', (a, ca) ∈ cb ∧ (b, cb') ∈ cb ∧ a.toNat < b.toNat ∧ (ca <+: cb' ∨ cb' <+: ca) ∧
      ∀ x ∈ cb, ∀ y ∈ cb, x.1.toNat < y.1.toNat → entriesClash x y →
        a.toNat < x.1.toNat ∨ (a = x.1 ∧ b.toNat ≤ y.1.toNat) := by
  induction cb with
  | nil => simp [ambiguousPair] at h
  | cons x rest ih =>
    obtain ⟨a0, c0⟩ := x
    rw [List.pairwise_cons] at hasc
    rw [ambiguousPair] at h
    cases hf : rest.find? fun e => prefixOf c0 e.2 || prefixOf e.2 c0 with
    | some e =>
      obtain ⟨b0, cb0⟩ := e
      rw [hf] at h
      simp only [Option.some.injEq, Prod.mk.injEq] at h
      obtain ⟨rfl, rfl⟩ := h
      have hmem := List.mem_of_find?_eq_some hf
      have hcl := (clash_test c0 (b0, cb0)).1 (by simpa using List.find?_some hf)
      refine ⟨c0, cb0, by simp, List.mem_cons_of_mem _ hmem, hasc.1 _ hmem, hcl, ?_⟩
      intro x hx y hy hxy hc
      rcases List.mem_cons.1 hx with rfl | hx
      · right
        refine ⟨rfl, ?_⟩
        have hy' : y ∈ rest := by
          rcases List.mem_cons.1 hy with rfl | hy
          · exact absurd hxy (lt_irrefl _)
          · exact hy
        rw [List.find?_eq_some_iff_append] at hf
        obtain ⟨-, as, bs, hrest, hnone⟩ := hf
        rw [hrest, List.mem_append] at hy'
        rcases hy' with hy' | hy'
        · have := hnone y hy'
          rw [Bool.not_eq_true'] at this
          exact absurd ((clash_test c0 y).2 hc) (by rw [this]; simp)
        · rcases List.mem_cons.1 hy' with rfl | hy'
          · exact le_refl _
          · have hp := hasc.2
            rw [hrest, List.pairwise_append] at hp
            exact le_of_lt ((List.pairwise_cons.1 hp.2.1).1 y hy')
      · left
        exact hasc.1 x hx
    | none =>
      rw [hf] at h
      obtain ⟨ca, cb', h1, h2, h3, h4, h5⟩ := ih hasc.2 h
      refine ⟨ca, cb', List.mem_cons_of_mem _ h1, List.mem_cons_of_mem _ h2, h3, h4, ?_⟩
      intro x hx y hy hxy hc
      have hy' : y ∈ rest := by
        rcases List.mem_cons.1 hy with rfl | hy
        · rcases List.mem_cons.1 hx with rfl | hx
          · exact absurd hxy (lt_irrefl _)
          · have := hasc.1 x hx
            simp only at hxy this
            omega
        · exact hy
      rcases List.mem_cons.1 hx with rfl | hx
      · rw [List.find?_eq_none] at hf
        exact absurd ((clash_test c0 y).2 hc) (hf y hy')
      · exact h5 x hx y hy' hxy hc

theorem codebookOf_ascend (s : State) : (codebookOf s).Pairwise fun x y => x.1.toNat < y.1.toNat := by
  unfold codebookOf
  rw [List.pairwise_map]
  exact codedSymbols_ascend s

/-- A prefix-free codebook passes the check, and only a prefix-free one does. -/
theorem ambiguousPair_codebookOf (s : State) : ambiguousPair (codebookOf s) = none ↔ s.prefixFree := by
  rw [ambiguousPair_none]
  constructor
  · intro h a b ha hb hab hp
    have hsym : ∀ x y, x ∈ codebookOf s → y ∈ codebookOf s → x.1.toNat < y.1.toNat → ¬ entriesClash x y := by
      intro x y hx hy hxy
      obtain ⟨i, hi, rfl⟩ := List.getElem_of_mem hx
      obtain ⟨j, hj, rfl⟩ := List.getElem_of_mem hy
      rcases Nat.lt_trichotomy i j with hij | hij | hij
      · exact (List.pairwise_iff_getElem.1 h) i j hi hj hij
      · subst hij; exact absurd hxy (lt_irrefl _)
      · have := (List.pairwise_iff_getElem.1 (codebookOf_ascend s)) j i hj hi hij
        omega
    have hma := (mem_codebookOf s a (codeOf s a)).2 ⟨ha, rfl⟩
    have hmb := (mem_codebookOf s b (codeOf s b)).2 ⟨hb, rfl⟩
    rcases Nat.lt_trichotomy a.toNat b.toNat with hlt | heq | hlt
    · exact hsym _ _ hma hmb hlt (Or.inl hp)
    · exact hab (BitVec.eq_of_toNat_eq heq)
    · exact hsym _ _ hmb hma hlt (Or.inr hp)
  · intro h
    refine (codebookOf_ascend s).imp_of_mem ?_
    rintro ⟨a, ca⟩ ⟨b, cb⟩ ha hb hlt hc
    obtain ⟨ha1, rfl⟩ := (mem_codebookOf s _ _).1 ha
    obtain ⟨hb1, rfl⟩ := (mem_codebookOf s _ _).1 hb
    have hne : a ≠ b := fun e => by subst e; simp at hlt
    rcases hc with hc | hc
    · exact h a b ha1 hb1 hne hc
    · exact h b a hb1 ha1 (Ne.symm hne) hc

/-! ### The decoding loop -/

theorem foldl_max_ge (cb : List (Byte × BitString)) :
    ∀ m, m ≤ cb.foldl (fun m e => max m e.2.length) m ∧
      ∀ e ∈ cb, e.2.length ≤ cb.foldl (fun m e => max m e.2.length) m := by
  induction cb with
  | nil => intro m; simp
  | cons x rest ih =>
    intro m
    rw [List.foldl_cons]
    obtain ⟨h1, h2⟩ := ih (max m x.2.length)
    refine ⟨le_trans (le_max_left _ _) h1, ?_⟩
    intro e he
    rcases List.mem_cons.1 he with rfl | he
    · exact le_trans (le_max_right _ _) h1
    · exact h2 e he

/-- No code is longer than the longest. -/
theorem length_le_longestCode (cb : List (Byte × BitString)) (e : Byte × BitString) (he : e ∈ cb) :
    e.2.length ≤ longestCode cb := (foldl_max_ge cb 0).2 e he

theorem matchCode_none (cb : List (Byte × BitString)) (c : BitString) :
    matchCode cb c = none ↔ ∀ e ∈ cb, e.2 ≠ c := by
  simp [matchCode]

theorem matchCode_some (cb : List (Byte × BitString)) (c : BitString) (b : Byte) (h : matchCode cb c = some b) :
    (b, c) ∈ cb := by
  unfold matchCode at h
  rw [Option.map_eq_some_iff] at h
  obtain ⟨e, he, rfl⟩ := h
  have hm := List.mem_of_find?_eq_some he
  have hc : e.2 = c := by simpa using List.find?_some he
  subst hc
  exact hm

variable {s : State}

/-- In a prefix-free codebook a code matches its own symbol. -/
theorem matchCode_codeOf (hp : s.prefixFree) (b : Byte) (hb : isCoded s b = true) :
    matchCode (codebookOf s) (codeOf s b) = some b := by
  cases h : matchCode (codebookOf s) (codeOf s b) with
  | none =>
    rw [matchCode_none] at h
    exact absurd rfl (h _ ((mem_codebookOf s b _).2 ⟨hb, rfl⟩))
  | some x =>
    obtain ⟨hx, he⟩ := (mem_codebookOf s _ _).1 (matchCode_some _ _ _ h)
    by_cases hxb : b = x
    · rw [hxb]
    · exact absurd (he ▸ List.prefix_refl _) (hp b x hb hx hxb)

/-- In a prefix-free codebook no strict part of a code from its start matches. -/
theorem matchCode_part (hp : s.prefixFree) (b : Byte) (hb : isCoded s b = true) (c : BitString)
    (hc : c <+: codeOf s b) (hne : c ≠ codeOf s b) : matchCode (codebookOf s) c = none := by
  rw [matchCode_none]
  rintro ⟨x, cx⟩ hx rfl
  obtain ⟨hxc, rfl⟩ := (mem_codebookOf s _ _).1 hx
  by_cases hxb : x = b
  · exact hne (by rw [hxb])
  · exact hp x b hxc hb hxb hc

/-- The loop reads a strict part of a code into the candidate. -/
theorem decodeFrom_part (hp : s.prefixFree) (outSize : Nat) (b : Byte) (hb : isCoded s b = true) (part : BitString) :
    ∀ (t : Nat) (cand : BitString) (start count : Nat) (rest : BitString), cand ++ part <+: codeOf s b →
      cand ++ part ≠ codeOf s b →
      decodeFrom (codebookOf s) outSize t cand start count (part ++ rest) =
        decodeFrom (codebookOf s) outSize (t + part.length) (cand ++ part) start count rest := by
  induction part with
  | nil => intro t cand start count rest _ _; simp
  | cons x part ih =>
    intro t cand start count rest hpre hne
    have hassoc : cand ++ x :: part = (cand ++ [x]) ++ part := by simp
    rw [hassoc] at hpre hne
    have hpre1 : cand ++ [x] <+: codeOf s b := (List.prefix_append _ _).trans hpre
    have hlen := hpre.length_le
    have hlt : ((cand ++ [x]) ++ part).length < (codeOf s b).length :=
      lt_of_le_of_ne hlen fun e => hne (hpre.eq_of_length e)
    have hne1 : cand ++ [x] ≠ codeOf s b := fun e => by
      rw [← e] at hlt
      simp only [List.length_append] at hlt
      omega
    rw [List.cons_append, decodeFrom, matchCode_part hp b hb _ hpre1 hne1]
    have hlong := length_le_longestCode (codebookOf s) (b, codeOf s b) ((mem_codebookOf s b _).2 ⟨hb, rfl⟩)
    simp only at hlong
    have hM : (cand ++ [x]).length ≠ longestCode (codebookOf s) := by
      simp only [List.length_append] at hlt ⊢
      omega
    simp only [hM, if_false]
    rw [ih _ _ _ _ _ hpre hne, hassoc]
    congr 1
    simp only [List.length_cons]
    omega

/-- The loop reads one whole code and emits its symbol. -/
theorem decodeFrom_code (hp : s.prefixFree) (outSize : Nat) (b : Byte) (hb : isCoded s b = true) (t start count : Nat)
    (rest : BitString) :
    decodeFrom (codebookOf s) outSize t [] start count (codeOf s b ++ rest) =
      if count = outSize then .error (unpackOverflow start outSize)
      else
        match decodeFrom (codebookOf s) outSize (t + (codeOf s b).length) [] (t + (codeOf s b).length) (count + 1) rest with
        | .ok bytes => .ok (b :: bytes)
        | .error e => .error e := by
  rcases List.eq_nil_or_concat (codeOf s b) with he | ⟨init, x, he⟩
  · exact absurd he (codeOf_ne_nil s b hb)
  · rw [List.concat_eq_append] at he
    have hpre : [] ++ init <+: codeOf s b := by rw [he]; exact List.prefix_append _ _
    have hne : [] ++ init ≠ codeOf s b := by
      rw [he]
      intro e
      have := congrArg List.length e
      simp at this
    conv_lhs => rw [he, List.append_assoc]
    rw [decodeFrom_part hp outSize b hb init t [] start count _ hpre hne]
    rw [List.singleton_append, decodeFrom, List.nil_append, ← he, matchCode_codeOf hp b hb]
    have hl : t + init.length + 1 = t + (codeOf s b).length := by
      rw [he, List.length_append, List.length_singleton]; omega
    generalize t + init.length + 1 = n at hl ⊢
    subst hl
    rfl

/-- The loop decodes a concatenation of codes that fits the output, and goes on behind it. -/
theorem decodeFrom_codes (hp : s.prefixFree) (outSize : Nat) (bytes : List Byte) :
    ∀ (t count : Nat) (rest : BitString), (∀ b ∈ bytes, isCoded s b = true) → count + bytes.length ≤ outSize →
      decodeFrom (codebookOf s) outSize t [] t count (encoded s bytes ++ rest) =
        match decodeFrom (codebookOf s) outSize (t + (encoded s bytes).length) [] (t + (encoded s bytes).length)
            (count + bytes.length) rest with
        | .ok more => .ok (bytes ++ more)
        | .error e => .error e := by
  induction bytes with
  | nil =>
    intro t count rest _ _
    simp only [encoded_nil, List.nil_append, List.length_nil, Nat.add_zero]
    cases decodeFrom (codebookOf s) outSize t [] t count rest <;> rfl
  | cons b bytes ih =>
    intro t count rest hall hfit
    simp only [List.length_cons] at hfit
    rw [encoded_cons, List.append_assoc, decodeFrom_code hp outSize b (hall b List.mem_cons_self),
      if_neg (by omega), ih _ _ _ (fun x hx => hall x (List.mem_cons_of_mem _ hx)) (by omega)]
    rw [List.length_append, ← Nat.add_assoc, List.length_cons,
      show count + 1 + bytes.length = count + (bytes.length + 1) by omega]
    cases decodeFrom (codebookOf s) outSize (t + (codeOf s b).length + (encoded s bytes).length) []
      (t + (codeOf s b).length + (encoded s bytes).length) (count + (bytes.length + 1)) rest <;> rfl

/-- What the loop emits is no longer than what the output still takes. -/
theorem decodeFrom_length (cb : List (Byte × BitString)) (outSize : Nat) (bits : BitString) :
    ∀ (t : Nat) (cand : BitString) (start count : Nat) (bytes : List Byte), count ≤ outSize →
      decodeFrom cb outSize t cand start count bits = .ok bytes → count + bytes.length ≤ outSize := by
  induction bits with
  | nil =>
    intro t cand start count bytes hc h
    rw [decodeFrom] at h
    split at h
    · cases h; simpa using hc
    · cases h
  | cons x bits ih =>
    intro t cand start count bytes hc h
    rw [decodeFrom] at h
    split at h
    · split at h
      · cases h
      · split at h
        · next more hm =>
          cases h
          have := ih _ _ _ _ _ (by omega) hm
          simp only [List.length_cons]
          omega
        · cases h
    · split at h
      · cases h
      · exact ih _ _ _ _ _ hc h

/-- The codes of the errors that the loop can report. -/
theorem decodeFrom_error (cb : List (Byte × BitString)) (outSize : Nat) (bits : BitString) :
    ∀ (t : Nat) (cand : BitString) (start count : Nat) (e : CmdError),
      decodeFrom cb outSize t cand start count bits = .error e →
      e.code = .corruptBitstream ∨ e.code = .outputOverflow := by
  induction bits with
  | nil =>
    intro t cand start count e h
    rw [decodeFrom] at h
    split at h
    · cases h
    · cases h; exact Or.inl rfl
  | cons x bits ih =>
    intro t cand start count e h
    rw [decodeFrom] at h
    split at h
    · split at h
      · cases h; exact Or.inr rfl
      · split at h
        · cases h
        · next e' he => cases h; exact ih _ _ _ _ _ he
    · split at h
      · cases h; exact Or.inl rfl
      · exact ih _ _ _ _ _ h

theorem codebookOf_ne_nil (b : Byte) (hb : isCoded s b = true) : codebookOf s ≠ [] :=
  List.ne_nil_of_mem ((mem_codebookOf s b _).2 ⟨hb, rfl⟩)

theorem codebookOf_nil (h : ∀ b, s.cbLen.at b = 0) : codebookOf s = [] := by
  rw [List.eq_nil_iff_forall_not_mem]
  rintro ⟨b, c⟩ hm
  have := ((mem_codebookOf s b c).1 hm).1
  simp [isCoded, h] at this

/-- With legal parameters and a non-empty prefix-free codebook UNPACK comes to its loop. -/
theorem unpackBytes_loop (h0 : s.inLen ≠ 0) (h1 : s.inLen.toNat ≤ s.params.inSize) (h2 : s.pad.toNat ≤ 7)
    (h3 : codebookOf s ≠ []) (hp : s.prefixFree) :
    unpackBytes s = decodeFrom (codebookOf s) s.params.outSize 0 [] 0 0 (unpaddedStream s) := by
  unfold unpackBytes
  rw [inputError_none s h0 h1]
  simp only [show ¬ s.pad.toNat > 7 by omega, if_false, h3]
  rw [(ambiguousPair_codebookOf s).2 hp]

/-- Every error of UNPACK. -/
theorem unpackBytes_error (s : State) (e : CmdError) (h : unpackBytes s = .error e) :
    e.code ∈ [.emptyInput, .badParameter, .codebookIncomplete, .ambiguousCodebook, .corruptBitstream,
      .outputOverflow] := by
  unfold unpackBytes at h
  cases hi : inputError s with
  | some e' =>
    rw [hi] at h
    cases h
    rcases inputError_code s e hi with h | h <;> simp [h]
  | none =>
    rw [hi] at h
    simp only at h
    split at h
    · cases h; simp
    · split at h
      · cases h; simp
      · split at h
        · cases h; simp
        · rcases decodeFrom_error _ _ _ _ _ _ _ _ h with h | h <;> simp [h]

/-- A successful UNPACK writes at most OUT_SIZE bytes. -/
theorem unpackBytes_length (s : State) (bytes : List Byte) (h : unpackBytes s = .ok bytes) :
    bytes.length ≤ s.params.outSize := by
  unfold unpackBytes at h
  cases hi : inputError s with
  | some e' => rw [hi] at h; cases h
  | none =>
    rw [hi] at h
    simp only at h
    split at h
    · cases h
    · split at h
      · cases h
      · split at h
        · cases h
        · have := decodeFrom_length _ _ _ _ _ _ _ _ (Nat.zero_le _) h
          omega

/-- UNPACK reads the state only through IN_LEN, PAD, the sizes, the unpadded stream and the codes. -/
theorem unpackBytes_congr (s t : State) (hp : t.params = s.params) (hl : t.inLen = s.inLen) (hd : t.pad = s.pad)
    (hb : unpaddedStream t = unpaddedStream s) (hc : codebookOf t = codebookOf s) : unpackBytes t = unpackBytes s := by
  rw [unpackBytes, unpackBytes, inputError_congr s t hp hl, hd, hb, hc, hp]

/-- A strict part of a code at the end of the stream is corrupt. -/
theorem decodeFrom_tail (hp : s.prefixFree) (outSize : Nat) (b : Byte) (hb : isCoded s b = true) (t count : Nat)
    (tail : BitString) (h0 : tail ≠ []) (h1 : tail <+: codeOf s b) (h2 : tail ≠ codeOf s b) :
    decodeFrom (codebookOf s) outSize t [] t count tail = .error (corruptError t count) := by
  have := decodeFrom_part hp outSize b hb tail t [] t count [] (by simpa using h1) (by simpa using h2)
  rw [List.append_nil, List.nil_append] at this
  rw [this, decodeFrom, if_neg h0]

end Sys2Proof.Machine
end

