-- ==== Sys2Proof/Tests/Slice0.lean ====
section
/-! SUPPORT. Tests of the model against the words, the examples and the vectors of the spec, and, for each statement of
Certificates/Slice0/Obligations.lean that has hypotheses, a state and operands that meet all of them. The expected
results come from the rule or the vector that each comment names. -/

namespace Sys2Proof.Machine.Slice0

-- One theorem after the other: a kernel evaluation waits for all that stands before it, and each that waits holds a thread.
set_option Elab.async false

/-! ### Well-formedness: an ill-formed term for each check -/

theorem test_params_default_wf : Params.default.wf = true := by decide
theorem test_params_inSize_zero : ({ Params.default with inSize := 0 } : Params).wf = false := by decide
theorem test_params_inSize_large : ({ Params.default with inSize := 2 ^ 24 + 1 } : Params).wf = false := by decide
theorem test_params_outSize_zero : ({ Params.default with outSize := 0 } : Params).wf = false := by decide
theorem test_params_outSize_large : ({ Params.default with outSize := 2 ^ 24 + 1 } : Params).wf = false := by decide
/-- IN_SIZE = 256 needs nine count bits. -/
theorem test_params_cntW_small : ({ Params.default with inSize := 256, cntW := 8 } : Params).wf = false := by decide
theorem test_params_cntW_least : ({ Params.default with inSize := 255, cntW := 8 } : Params).wf = true := by decide
theorem test_params_cntW_large : ({ Params.default with cntW := 33 } : Params).wf = false := by decide
theorem test_word_reserved_bit : commandWordWf 0x00000011 = false := by decide
theorem test_word_top_bit : commandWordWf 0x80000001 = false := by decide
theorem test_word_opcode_zero : commandWordWf 0x00000000 = false := by decide
theorem test_word_opcode_eight : commandWordWf 0x00000008 = false := by decide
theorem test_access_width_8 : (HostAccess.otherWidth 0 8).wf = false := by decide
theorem test_access_width_32 : (HostAccess.otherWidth 0 32).wf = false := by decide
theorem test_access_width_16 : (HostAccess.otherWidth 0 16).wf = true := by decide
theorem test_code_empty : codeWf [] = false := by decide
theorem test_code_too_long : codeWf (List.replicate 256 true) = false := by decide +kernel
theorem test_code_longest : codeWf (List.replicate 255 true) = true := by decide +kernel
/-- 30_encoding.md rule R90: keys are decimal forms of 0 to 255 without leading zeros. -/
theorem test_key_leading_zero : decimalByte ['0', '7'] = none := by decide +kernel
theorem test_key_above : decimalByte ['2', '5', '6'] = none := by decide +kernel
theorem test_key_sign : decimalByte ['-', '1'] = none := by decide +kernel
theorem test_key_empty : decimalByte [] = none := by decide +kernel
theorem test_key_zero : decimalByte ['0'] = some 0 := by decide +kernel
theorem test_key_last : decimalByte ['2', '5', '5'] = some 255 := by decide +kernel
theorem test_text_symbol : codeTextWf ['0', '2'] = false := by decide
theorem test_text_empty : codeTextWf [] = false := by decide
theorem test_text : codeText ['1', '1', '0'] = some [true, true, false] := by decide

/-- A record of one entry. -/
def record1 (key code : List Char) (padding : Int) : CodebookRecord := { entries := [(key, code)], padding := padding }

theorem test_record : (record1 ['6', '5'] ['0'] 1).wf = true := by decide +kernel
theorem test_record_key : (record1 ['0', '6', '5'] ['0'] 1).wf = false := by decide +kernel
theorem test_record_code : (record1 ['6', '5'] [] 1).wf = false := by decide +kernel
theorem test_record_padding_negative : (record1 ['6', '5'] ['0'] (-1)).wf = false := by decide +kernel
theorem test_record_padding_large : (record1 ['6', '5'] ['0'] (2 ^ 32)).wf = false := by decide +kernel
/-- A padding of 8 or more is representable (30_encoding.md rule R90). -/
theorem test_record_padding_eight : (record1 ['6', '5'] ['0'] 8).wf = true := by decide +kernel
theorem test_record_duplicate :
    ({ entries := [(['6', '5'], ['0']), (['6', '5'], ['1'])], padding := 0 } : CodebookRecord).wf = false := by
  decide +kernel

/-! ### Decoding: the words of 30_encoding.md rule R82, bit by bit, and words of rule R85 -/

theorem test_decode_freq : decode 0b00000000000000000000000000000001 = .command .freq := by decide
theorem test_decode_build : decode 0b00000000000000000000000000000010 = .command .build := by decide
theorem test_decode_gencode : decode 0b00000000000000000000000000000011 = .command .gencode := by decide
theorem test_decode_pack : decode 0b00000000000000000000000000000100 = .command .pack := by decide
theorem test_decode_unpack : decode 0b00000000000000000000000000000101 = .command .unpack := by decide
theorem test_decode_fclr : decode 0b00000000000000000000000000000110 = .command .fclr := by decide
theorem test_decode_cbclr : decode 0b00000000000000000000000000000111 = .command .cbclr := by decide
theorem test_decode_zero : decode 0x00000000 = .illegal .reservedOpcode := by decide
theorem test_decode_eight : decode 0x00000008 = .illegal .reservedOpcode := by decide
theorem test_decode_fifteen : decode 0x0000000F = .illegal .reservedOpcode := by decide
theorem test_decode_bit4 : decode 0x00000014 = .illegal .reservedBits := by decide
theorem test_decode_bit31 : decode 0x80000004 = .illegal .reservedBits := by decide
theorem test_table_word : decodeTableWord 32 5 = some .unpack := by decide

/-! ### Small states -/

/-- What a step or a command answers, tested. -/
def answers (o : Host.Outcome State Fault Refusal) (p : State → Bool) : Bool :=
  match o with
  | .next t => p t
  | .fault _ => false
  | .refused _ => false

/-- The state after a step that is made. -/
def nextOf (o : Host.Outcome State Fault Refusal) (s : State) : State :=
  match o with
  | .next t => t
  | .fault _ => s
  | .refused _ => s

theorem next_of_answers {o : Host.Outcome State Fault Refusal} {p : State → Bool} (s : State)
    (h : answers o p = true) : o = .next (nextOf o s) ∧ p (nextOf o s) = true := by
  cases o with
  | next t => exact ⟨rfl, h⟩
  | fault e => cases h
  | refused r => cases h

/-- The state after a command. -/
def after (i : Instr) (s : State) : State := nextOf (exec i s) s

/-- An instance of 12 input bytes and 4 output bytes. -/
def small : State := { State.reset with params := { inSize := 12, outSize := 4, cntW := 32, hccBase := 0 } }

/-- A memory with the bytes `bs` from 0 on. -/
def memoryOf (bs : List Byte) : Memory := Memory.unwritten.writeBytes 0 bs

/-- `bs` loaded as the input. -/
def withInput (bs : List Byte) (s : State) : State :=
  { s with inMem := memoryOf bs, inLen := BitVec.ofNat 32 bs.length }

/-- "ABRACADABRA". -/
def abraBytes : List Byte := [0x41, 0x42, 0x52, 0x41, 0x43, 0x41, 0x44, 0x41, 0x42, 0x52, 0x41]

def abra : State := withInput abraBytes small

/-- The codebook of the example of 41_codebook.md rule R121. -/
def abraCodes (s : State) : State :=
  writeCodes [(0x41, [false]), (0x43, [true, false, false]), (0x44, [true, false, true]), (0x42, [true, true, false]),
    (0x52, [true, true, true])] s

/-- The tree of the example of 40_frequency_tree.md rule R104, written out from it. -/
def abraTree : State :=
  { small with
    freq := countBytes abraBytes, treeValid := true, nLeaf := 5, nNode := 9, root := 8
    nodes := [leafNode 0x41 5, leafNode 0x42 2, leafNode 0x43 1, leafNode 0x44 1, leafNode 0x52 2,
      { leaf := false, sym := 0, freq := 2, left := 2, right := 3 },
      { leaf := false, sym := 0, freq := 4, left := 1, right := 4 },
      { leaf := false, sym := 0, freq := 6, left := 5, right := 6 },
      { leaf := false, sym := 0, freq := 11, left := 0, right := 7 }] }

/-- A tree of two leaves. -/
def twoTree : State :=
  { small with
    treeValid := true, nLeaf := 2, nNode := 3, root := 2
    nodes := [leafNode 0x41 1, leafNode 0x42 1, { leaf := false, sym := 0, freq := 2, left := 0, right := 1 }] }

/-- The degenerate tree of "A" (40_frequency_tree.md rule R109). -/
def soleTree : State :=
  { small with treeValid := true, nLeaf := 1, nNode := 1, root := 0, nodes := [leafNode 0x41 1] }

/-- "AB" with the codes "0" and "10", and so one payload byte. -/
def pair : State := writeCodes [(0x41, [false]), (0x42, [true, false])] (withInput [0x41, 0x42] small)

/-- A state in which `w` is pending and the moves `ms` are to come. -/
def running (w : Word) (ms : List Input) : State := { small with pending := some w, lastOp := opField w, inputs := ms }

/-! ### One step of each command, against the spec's examples -/

/-- 40_frequency_tree.md rule R101, example. -/
theorem test_freq : answers (exec .freq abra) (fun t =>
    t.freq.at 0x41 == 5 && t.freq.at 0x42 == 2 && t.freq.at 0x43 == 1 && t.freq.at 0x44 == 1 && t.freq.at 0x52 == 2 &&
      t.freq.at 0x45 == 0 && t.done) = true := by decide +kernel

/-- 60_exceptions.md rule R181: IN_LEN = 13 is above IN_SIZE = 12. -/
theorem test_freq_length : answers (exec .freq { abra with inLen := 13 }) (fun t =>
    t.err == .badParameter && t.errPos == 0x010 && t.errAux == 13 && t.freq.at 0x41 == 0) = true := by decide +kernel

/-- 40_frequency_tree.md rule R104, example: 5 = (2, 3), 6 = (1, 4), 7 = (5, 6), 8 = (0, 7) with freq 11. -/
theorem test_build : answers (exec .build { small with freq := countBytes abraBytes }) (fun t =>
    t.root == 8 && t.nLeaf == 5 && t.nNode == 9 && t.treeValid &&
      (t.nodes.drop 5).map (fun n => (n.left, n.right, n.freq)) == [(2, 3, 2), (1, 4, 4), (5, 6, 6), (0, 7, 11)]) =
    true := by decide +kernel

/-- 40_frequency_tree.md rule R104: an empty table drops the old tree. -/
theorem test_build_empty : answers (exec .build { abraTree with freq := Table.all 0 }) (fun t =>
    t.err == .emptyInput && t.treeValid == false && t.nLeaf == 0 && t.nNode == 0 && t.root == 0) = true := by
  decide +kernel

/-- 41_codebook.md rule R121, example. -/
theorem test_gencode : answers (exec .gencode abraTree) (fun t =>
    codebookOf t == [(0x41, [false]), (0x42, [true, true, false]), (0x43, [true, false, false]),
      (0x44, [true, false, true]), (0x52, [true, true, true])] && t.cbCode.at 0x42 == 6) = true := by decide +kernel

/-- 41_codebook.md rule R121: NO_TREE is error 8. -/
theorem test_gencode_no_tree : answers (exec .gencode small) (fun t => t.err.number == 8 && t.errPos == 0) = true := by
  decide +kernel

/-- 42_pack.md rule R141, example. -/
theorem test_pack : answers (exec .pack (abraCodes abra)) (fun t =>
    (List.range 3).map (t.outMem.byteAt 0) == [0x6E, 0x8A, 0xDC] && t.outLen == 3 && t.pad == 1) = true := by
  decide +kernel

/-- 42_pack.md rule R143: the same with OUT_SIZE = 2 overflows at index 8, after whose code the stream has 19 bits. -/
theorem test_pack_overflow : answers (exec .pack (abraCodes { abra with params := { small.params with outSize := 2 } }))
    (fun t => t.err == .outputOverflow && t.errPos == 8 && t.errAux == 2 && t.outLen == 0) = true := by decide +kernel

/-- 43_unpack.md rule R161, example. -/
theorem test_unpack : answers (exec .unpack (abraCodes { withInput [0x6E, 0x8A, 0xDC] small with
      pad := 1, params := { small.params with outSize := 11 } })) (fun t =>
    (List.range 11).map (t.outMem.byteAt 0) == abraBytes && t.outLen == 11 && t.pad == 1) = true := by decide +kernel

/-- Vector U5: CORRUPT_BITSTREAM(12, 6). -/
theorem test_unpack_corrupt : answers (exec .unpack (abraCodes { withInput [0x6E, 0x8A] small with
      pad := 2, params := { small.params with outSize := 11 } })) (fun t =>
    t.err == .corruptBitstream && t.errPos == 12 && t.errAux == 6 && t.outLen == 0) = true := by decide +kernel

/-- 40_frequency_tree.md rule R103, example. -/
theorem test_fclr : answers (exec .fclr abraTree) (fun t => t.freq.at 0x41 == 0 && t.freq.at 0x52 == 0 && t.treeValid) =
    true := by decide +kernel

/-- 41_codebook.md rule R124, example. -/
theorem test_cbclr : answers (exec .cbclr (abraCodes abra)) (fun t => t.cbLen.at 0x41 == 0 && t.cbCode.at 0x52 == 0) =
    true := by decide +kernel

/-! ### The step, the registers and the bus -/

/-- A word placed with withFetchWord runs in the next step, from reset too: STATUS is 0x0000_6002 after FCLR. -/
theorem test_fetch_word : answers (step (State.reset.withFetchWord 32 6)) (fun t => statusWord t == 0x6002) = true := by
  decide +kernel

/-- 30_encoding.md rule R85: ILLEGAL_COMMAND(0, w) for a word with a reserved bit set. -/
theorem test_illegal : answers (step (running 0x00000104 [])) (fun t =>
    t.err == .illegalCommand && t.errAux == 0x104 && t.errPos == 0 && t.done && !t.busy) = true := by decide +kernel

/-- 20_memory.md rule R67, example: 0x4152_4241 stores "A", "B", "R", "A". -/
theorem test_lanes : answers (hostAccess (.wr32 0x01000000 0x41524241) small) (fun t =>
    (List.range 4).map (t.inMem.byteAt 0) == [0x41, 0x42, 0x52, 0x41]) = true := by decide +kernel

/-- 10_state.md rule R45 on the example of 40_frequency_tree.md rule R104: node 8 is internal over 0 and 7. -/
theorem test_node_info : answers (hostAccess (.rd32 0x064) { abraTree with nSel := 8 }) (fun t =>
    t.reply == some 0x80000E00) = true := by decide +kernel

/-- 10_state.md rule R47: bit 31 of CBCODE7 does not exist. -/
theorem test_code_window : answers (hostAccess (.wr32 0x05C 0xFFFFFFFF) small) (fun t =>
    t.cbCode.at 0 == (0x7FFFFFFF : CodeBits) <<< 224) = true := by decide +kernel

/-- 20_memory.md rules R62 to R66: refused accesses. -/
theorem test_bus_errors :
    (hostAccess (.rd8 0x008) small matches .fault (.busError 0x008 8)) ∧
    (hostAccess (.rd32 0x00A) small matches .fault (.busError 0x00A 32)) ∧
    (hostAccess (.rd32 0x1000) small matches .fault (.busError 0x1000 32)) ∧
    (hostAccess (.rd32 0x01000002) small matches .fault (.busError 0x01000002 32)) ∧
    (hostAccess (.rd8 0x0100000C) small matches .fault (.busError 0x0100000C 8)) ∧
    (hostAccess (.otherWidth 0x01000000 16) small matches .fault (.busError 0x01000000 16)) := by
  decide +kernel

/-- 70_reset_and_hazards.md rule R216: a write of IN_LEN while a command runs. -/
theorem test_breach : hostAccess (.wr32 0x010 5) (running 1 []) matches .refused (.hostDutyBreach 0x010) := by
  decide +kernel

/-- 30_encoding.md rule R90: exporting the codebook and importing the record. -/
theorem test_export : exportRecord pair = { entries := [(['6', '5'], ['0']), (['6', '6'], ['1', '0'])], padding := 0 } := by
  decide +kernel

/-- CBCLR with its wait, ten writes for each entry, and PAD. -/
theorem test_import : (importRecord (record1 ['6', '5'] ['0'] 1)).map List.length = some 14 := by decide +kernel

/-- 70_reset_and_hazards.md rule R221: a run has ended when no access is left, whatever else is to come. -/
theorem test_run_ended :
    ({ small with inputs := [.coreTurn, .hardReset] } : State).runEnded ∧
    ¬ ({ small with inputs := [.host pollAccess] } : State).runEnded ∧ ¬ (running 1 []).runEnded :=
  ⟨⟨by unfold State.hostDone; decide, rfl⟩, not_runEnded_of_host List.mem_cons_self, not_runEnded_of_busy rfl⟩

/-- 20_memory.md rule R60: an address of the host's map. -/
theorem test_offset : offsetOf { Params.default with hccBase := 0x40000000 } 0x4000000C = some 0x00C ∧
    offsetOf { Params.default with hccBase := 0x40000000 } 0x3FFFFFFF = none := by decide

/-! ### Witnesses: for each statement with hypotheses, what meets all of them -/

theorem witness_DecodeAndEncodeAgree :
    decode 0x00000007 = .command .cbclr ∧ decodeTableWord 32 0x00000007 = some .cbclr ∧
    commandWordWf 0x00000007 = true := by decide

theorem witness_CommandStepDecodesThePendingWord :
    (∀ w ∈ [(1 : Word), 2, 3, 4, 5, 6, 7, 0, 8, 0xF, 0x10, 0x80000001], (running w []).pending = some w) ∧
    (0x10 : Word).extractLsb' 4 28 ≠ 0 ∧ (0 : Word).extractLsb' 0 4 = 0 ∧ 8 ≤ ((8 : Word).extractLsb' 0 4).toNat :=
  ⟨fun _ _ => rfl, by decide, by decide, by decide⟩

theorem witness_StepRunsTheDecodedCommand :
    ((running 6 []).pending = some 6 ∧ decode 6 = .command .fclr ∧ coreNext (running 6 [])) ∧
    ((running 0x10 []).pending = some 0x10 ∧ (running 0x10 []).busy = true ∧ decodeInstr 0x10 = none ∧
      coreNext (running 0x10 [])) ∧
    (({ small with inputs := [.coreTurn] } : State).inputs = .coreTurn :: [] ∧ small.busy = false) ∧
    (coreNext (running 6 [.coreTurn])) ∧
    (running 6 [.host pollAccess]).inputs = .host pollAccess :: [] ∧
    (running 6 [.hardReset]).inputs = .hardReset :: [] ∧
    (small.inputs = [] ∧ small.busy = false) :=
  ⟨⟨rfl, by decide, Or.inl rfl⟩, ⟨rfl, rfl, by decide, Or.inl rfl⟩, ⟨rfl, rfl⟩, Or.inr ⟨[], rfl⟩, rfl, rfl, rfl, rfl⟩

/-- Of every statement about an idle machine and of every one about a busy one. -/
theorem witness_idle_and_busy : small.busy = false ∧ (running 1 []).busy = true := ⟨rfl, rfl⟩

theorem witness_CommandWriteIsAcceptedOrDropped : small.busy = false ∧ (running 1 []).busy = true := ⟨rfl, rfl⟩

/-- A command that succeeds and one that fails. -/
theorem witness_EveryCommandCompletesAndWritesItsOperands :
    (∃ t, exec .fclr small = .next t ∧ t.err = .noError) ∧ Instr.freq ≠ .build ∧ Instr.unpack ≠ .pack :=
  ⟨⟨_, rfl, rfl⟩, by decide, by decide⟩

theorem witness_ErrorsEachCommandCanReport :
    ∀ i, ∃ t, exec i small = .next t := by
  intro i
  cases i
  iterate 5
    exact ⟨_, (next_of_answers small (p := fun _ => true) (by decide +kernel)).1⟩
  iterate 2 exact ⟨_, rfl⟩

theorem witness_InterruptLevelFollowsDoneAndEnable :
    (∃ t, (running 6 []).pending = some 6 ∧ commandStep (running 6 []) = .next t) ∧
    ({ small with done := true } : State).done = true ∧ (0x00000002 : Word).getLsbD 1 = true ∧
    small.busy = false ∧ ((0x00000002 : Word).getLsbD 1 = true ∨ (0x00000002 : Word).getLsbD 0 = false) ∧
    ((0x00000000 : Word).getLsbD 1 = true ∨ (0x00000000 : Word).getLsbD 0 = false) ∧ (running 6 []).busy = true :=
  ⟨⟨_, rfl, (next_of_answers small (p := fun _ => true) (by decide +kernel)).1⟩, rfl, by decide, rfl, by decide,
    by decide, rfl⟩

/-- A step that sets DONE, one that sets BUSY and one that sets OVR. -/
theorem witness_StatusBitsAreSetOnlyByTheirEvents :
    (∃ t, step (running 6 []) = .next t ∧ (running 6 []).done = false ∧ t.done = true) ∧
    (∃ t, step { small with inputs := [.host (cmdAccess .fclr)] } = .next t ∧ small.busy = false ∧ t.busy = true) ∧
    (∃ t, step (running 6 [.host (cmdAccess .fclr)]) = .next t ∧ (running 6 []).ovr = false ∧ t.ovr = true) := by
  refine ⟨?_, ?_, ?_⟩
  · obtain ⟨h, hp⟩ := next_of_answers (o := step (running 6 [])) (p := fun t => t.done) small (by decide +kernel)
    exact ⟨_, h, rfl, hp⟩
  · obtain ⟨h, hp⟩ := next_of_answers (o := step { small with inputs := [.host (cmdAccess .fclr)] })
      (p := fun t => t.busy) small (by decide +kernel)
    exact ⟨_, h, rfl, hp⟩
  · obtain ⟨h, hp⟩ := next_of_answers (o := step (running 6 [.host (cmdAccess .fclr)])) (p := fun t => t.ovr) small
      (by decide +kernel)
    exact ⟨_, h, rfl, hp⟩

/-- A BUILD, a hardware reset and a soft reset that change the tree. -/
theorem witness_OnlyBuildAndResetChangeTheTree :
    ∀ s ∈ [{ twoTree with pending := some 0x00000002 }, { twoTree with inputs := [.hardReset] },
        { twoTree with inputs := [.host (.wr32 0x004 0x00000002)] }],
      ∃ t, step s = .next t ∧
        (t.treeValid, t.nLeaf, t.nNode, t.root, t.nodes) ≠ (s.treeValid, s.nLeaf, s.nNode, s.root, s.nodes) := by
  intro s hs
  have hv : s.treeValid = true := by
    simp only [List.mem_cons, List.not_mem_nil, or_false] at hs
    rcases hs with rfl | rfl | rfl <;> rfl
  have ha : answers (step s) (fun t => !t.treeValid) = true := by
    simp only [List.mem_cons, List.not_mem_nil, or_false] at hs
    rcases hs with rfl | rfl | rfl <;> decide +kernel
  obtain ⟨h, hp⟩ := next_of_answers s ha
  refine ⟨_, h, fun e => ?_⟩
  have := congrArg Prod.fst e
  simp only at this
  rw [hv] at this
  rw [this] at hp
  cases hp

theorem witness_BothOrdersOfAccessAndCompletion :
    (running 6 [.host (.wr32 0x00C 7), .coreTurn]).pending = some 6 ∧
    (running 6 [.host (.wr32 0x00C 7), .coreTurn]).inputs = [.host (.wr32 0x00C 7), .coreTurn] ∧
    (running 6 [.coreTurn, .host (.wr32 0x00C 7)]).inputs = [.coreTurn, .host (.wr32 0x00C 7)] ∧
    (running 6 [.host (.wr32 0x004 2), .coreTurn]).inputs = [.host (.wr32 0x004 2), .coreTurn] ∧
    (2 : Word).getLsbD 1 = true := ⟨rfl, rfl, rfl, rfl, by decide⟩

/-- Without an early poll and nothing behind; with three polls, and a Core turn and a reset behind the last access. -/
theorem witness_WaitEndsAfterTheCoresTurn :
    ((running 6 (waitMoves 0)).busy = true ∧ (running 6 (waitMoves 0)).inputs = waitMoves 0 ++ []) ∧
    ((running 6 (waitMoves 3 ++ [.coreTurn, .hardReset])).busy = true ∧
      (running 6 (waitMoves 3 ++ [.coreTurn, .hardReset])).inputs = waitMoves 3 ++ [.coreTurn, .hardReset]) ∧
    ∀ m ∈ [Input.coreTurn, .hardReset], isHostMove m = false := ⟨⟨rfl, rfl⟩, ⟨rfl, rfl⟩, by decide⟩

theorem small_legal : small.paramsLegal := by unfold State.paramsLegal; decide

/-- At the edges of the page and of the windows of `small`. -/
theorem witness_BusErrorsExactlyOnRefusedAccesses :
    small.paramsLegal ∧ busAllows small.params (.rd32 0xFFC) ∧ ¬ busAllows small.params (.rd32 0x1000) ∧
    ¬ busAllows small.params (.rd32 0x002) ∧ ¬ busAllows small.params (.rd8 0x000) ∧
    busAllows small.params (.wr8 0x0100000B 0) ∧ ¬ busAllows small.params (.wr8 0x0100000C 0) ∧
    busAllows small.params (.wr32 0x01000008 0) ∧ ¬ busAllows small.params (.wr32 0x01000009 0) ∧
    busAllows small.params (.rd8 0x02000003) ∧ ¬ busAllows small.params (.rd8 0x02000004) ∧
    ¬ busAllows small.params (.otherWidth 0x01000000 16) := by
  refine ⟨small_legal, ?_⟩
  simp only [busAllows, inWindow]
  decide

theorem witness_HostWritesRefusedExactlyOnBreachOfDuty :
    (running 1 []).paramsLegal ∧ busAllows small.params (.wr32 0x010 0) ∧ busAllows small.params (.wr32 0x00C 0) ∧
    (running 1 []).busy = true ∧ isWrite (.wr32 0x010 0) = true ∧ ¬ writableWhileBusy 0x010 ∧
    writableWhileBusy 0x00C := by
  refine ⟨small_legal, ?_⟩
  simp only [busAllows, inWindow, writableWhileBusy]
  decide

theorem witness_ReadsChangeNothing :
    small.paramsLegal ∧ busAllows small.params (.rd32 0x02000000) ∧ isWrite (.rd32 0x02000000) = false := by
  refine ⟨small_legal, ?_⟩
  simp only [busAllows, inWindow]
  decide

/-- An instance whose memories are no whole number of words. -/
def odd : State := { State.reset with params := { inSize := 13, outSize := 7, cntW := 32, hccBase := 0 } }

/-- The last words of both windows, and the last bytes of windows that do not end with a word. -/
theorem witness_MixedWidthAccessesUseLittleEndianLanes :
    (odd.paramsLegal ∧ odd.busy = false ∧ 12 < odd.params.inSize ∧ ¬ 12 + 3 < odd.params.inSize ∧
      6 < odd.params.outSize) ∧
    small.paramsLegal ∧ small.busy = false ∧ 8 % 4 = 0 ∧ 8 + 3 < small.params.inSize ∧ 0 + 3 < small.params.outSize ∧
    3 < 4 :=
  ⟨⟨by unfold State.paramsLegal; decide, rfl, by decide, by decide, by decide⟩, small_legal, rfl, by decide, by decide,
    by decide, by decide⟩

theorem witness_RegisterReadReturnsWhatWasWritten :
    small.busy = false ∧ writtenImage small.params 0x004 0xFFFFFFFD = some 1 ∧ (0xFFFFFFFD : Word).getLsbD 1 = false ∧
    writtenImage small.params 0x018 0xFFFFFFFF = some 0xFFFFFFFF ∧ (running 1 []).busy = true ∧
    writtenImage small.params 0x034 0xFFFFFFFF = some 0xFFFFFFFF ∧
    writtenImage small.params 0x05C 0xFFFFFFFF = some 0x7FFFFFFF ∧
    writtenImage small.params 0x060 0xFFFFFFFF = some 0x1FF := by decide

theorem witness_ReadOnlyAndReservedOffsetsIgnoreWrites :
    small.busy = false ∧ (0x014 : Word).toNat % 4 = 0 ∧ ¬ takesWrites 0x014 ∧ ¬ takesWrites 0xFFC ∧
    (0xFFC : Word).toNat < 0x1000 ∧ 0x07C ≤ (0x07C : Word).toNat := by
  simp only [takesWrites]
  decide

/-- The last code window. -/
theorem witness_CodebookWindowsWriteTheirOwnBits : small.busy = false ∧ 7 < 8 ∧ 31 < 32 ∧ 254 < 255 := by decide

/-- The last node is shown, the entry behind it is not, and nothing is without a tree. -/
theorem witness_NodeRegistersShowTheSelectedNode :
    (twoTree.busy = false ∧ twoTree.treeValid = true ∧ (2 : NodeIndex).toNat < twoTree.nNode.toNat ∧
      (twoTree.nodes[2]?).isSome = true) ∧
    ¬ (twoTree.treeValid = true ∧ (3 : NodeIndex).toNat < twoTree.nNode.toNat) ∧
    ¬ (small.treeValid = true ∧ small.nSel.toNat < small.nNode.toNat) := by decide

theorem witness_LdcbLoadsTheCode :
    codeWf (List.replicate 255 true) = true ∧ codeWf [false] = true ∧
    ({ small with inputs := moves (ldcb 0x41 [false]) ++ [.coreTurn] } : State).inputs =
      moves (ldcb 0x41 [false]) ++ [.coreTurn] := ⟨by decide +kernel, by decide, rfl⟩

theorem witness_HardResetClearsEverything : (running 4 [.hardReset]).inputs = .hardReset :: [] := rfl

/-- Idle, with an UNPACK to abort, and with a command that OUT_MEM does not concern. -/
theorem witness_SoftResetKeepsTheMemories :
    (0x00000003 : Word).getLsbD 1 = true ∧ (running 6 []).pending ≠ some 0x00000004 ∧
    (running 6 []).pending ≠ some 0x00000005 ∧ small.pending ≠ some 0x00000004 := by decide

theorem small_inv : small.Inv where
  paramsLegal := small_legal
  countsFit := by
    intro b
    show (Table.at (Table.all (0 : Count)) b).toNat < _
    rw [table_at_all]
    decide
  memoriesWf := ⟨rfl, rfl⟩
  outLenFits := by unfold State.outLenFits; decide
  handshakeOk := fun w hw => by cases hw
  treeWf := ⟨fun h => (by cases h), fun _ => ⟨rfl, rfl, rfl, rfl⟩⟩

theorem running_handshake : (running 6 []).handshakeOk := by
  intro w hw
  cases hw
  exact ⟨rfl, rfl, rfl, rfl, rfl⟩

/-- A step from a state that meets the invariant. -/
theorem witness_StepKeepsTheMemoriesCanonical :
    (running 6 []).paramsLegal ∧ (running 6 []).memoriesWf ∧ ∃ t, step (running 6 []) = .next t :=
  ⟨small_legal, ⟨rfl, rfl⟩, _, (next_of_answers small (p := fun _ => true) (by decide +kernel)).1⟩

theorem twoTree_shape : TreeShape twoTree.nodes 2 where
  leafCount := by decide
  nodeCount := by decide
  leavesFirst := by decide
  symsRise := by decide
  joinsAfter := by decide
  childBelow := by decide
  oneParent := by
    intro j hj
    refine ⟨2, by decide, by decide, ?_, fun m hm hnm _ => by omega⟩
    have : j = 0 ∨ j = 1 := by omega
    rcases this with rfl | rfl
    · exact Or.inl rfl
    · exact Or.inr rfl
  exactSum := by decide

theorem twoTree_wf : twoTree.treeWf := ⟨fun _ => ⟨twoTree_shape, rfl, rfl⟩, fun h => by cases h⟩

theorem soleTree_wf : soleTree.treeWf := by
  refine ⟨fun _ => ⟨⟨by decide, by decide, by decide, ?_, ?_, ?_, ?_, ?_⟩, rfl, rfl⟩, fun h => by cases h⟩
  · intro k hk j hj; have : soleTree.nLeaf.toNat = 1 := rfl; omega
  · intro k hk hnk; have : soleTree.nLeaf.toNat = 1 := rfl; omega
  · intro k hk hnk; have : soleTree.nLeaf.toNat = 1 := rfl; omega
  · intro j hj; have : soleTree.nLeaf.toNat = 1 := rfl; omega
  · intro k hk hnk; have : soleTree.nLeaf.toNat = 1 := rfl; omega

/-- An idle tree, and a GENCODE about to run on one. -/
theorem witness_StepKeepsTheTreeShape :
    twoTree.treeWf ∧ (∃ t, step twoTree = .next t) ∧ ∃ t, step { twoTree with pending := some 2 } = .next t :=
  ⟨twoTree_wf, ⟨_, rfl⟩, _, (next_of_answers small (p := fun _ => true) (by decide +kernel)).1⟩

theorem witness_StepKeepsCountsLengthsAndHandshake :
    (running 6 []).paramsLegal ∧ (∃ t, step (running 6 []) = .next t) ∧ small.countsFit ∧ small.outLenFits ∧
    (running 6 []).handshakeOk :=
  ⟨small_legal, ⟨_, (next_of_answers small (p := fun _ => true) (by decide +kernel)).1⟩, small_inv.countsFit,
    small_inv.outLenFits, running_handshake⟩

/-- IN_LEN = 0, and one more than IN_SIZE. -/
theorem witness_InputLengthIsChecked :
    small.busy = false ∧ small.inLen = 0 ∧ small.params.inSize < ({ small with inLen := 13 } : State).inLen.toNat := by
  decide

/-- IN_LEN = IN_SIZE is legal (40_frequency_tree.md rule R101). -/
theorem witness_FreqCountsEveryByteValue :
    (abra.inLen ≠ 0 ∧ abra.inLen.toNat ≤ abra.params.inSize) ∧
    ({ small with inLen := 12 } : State).inLen.toNat ≤ small.params.inSize ∧ small.inLen = 0 ∧
    small.params.inSize < ({ small with inLen := 13 } : State).inLen.toNat := by decide

theorem witness_FclrClearsEveryCount : ({ small with freq := Table.all 0 } : State).freq = Table.all 0 := rfl

theorem witness_EmptyTableAndMissingTreeAreErrors :
    (∀ b, ({ small with freq := Table.all 0 } : State).freq.at b = 0) ∧ small.treeValid = false :=
  ⟨fun b => table_at_all 0 b, rfl⟩

/-- The table of "A" and "B", one each. -/
def pairTable : Table Count := countBytes [0x41, 0x42]

theorem pairTable_symbols : distinctSymbols pairTable = [0x41, 0x42] := by decide +kernel

theorem pairTable_count : distinctCount pairTable = 2 := by rw [distinctCount, pairTable_symbols]; rfl

theorem pair_builds : ∃ t, exec .build { small with freq := pairTable } = .next t ∧ t.err = .noError := by
  rcases execBuild_cases { small with freq := pairTable } with ⟨h, -⟩ | ⟨-, h⟩
  · have := congrArg List.length h
    rw [length_leavesOf] at this
    exact absurd (pairTable_count.symm.trans this) (by decide)
  · exact ⟨_, h, rfl⟩

theorem witness_BuildInsertsTheLeavesInOrder :
    2 = distinctCount pairTable ∧ 1 ≤ 2 ∧ (distinctSymbols pairTable)[1]? = some 0x42 :=
  ⟨pairTable_count.symm, by decide, by rw [pairTable_symbols]; rfl⟩

theorem witness_BuildMakesATree : ∃ t, exec .build { small with freq := pairTable } = .next t ∧ t.err = .noError :=
  pair_builds

theorem witness_BuildMergesTheTwoLeastNodes :
    2 = distinctCount pairTable ∧ (∃ t, exec .build { small with freq := pairTable } = .next t ∧ t.err = .noError) ∧
    2 ≤ 2 ∧ 2 < 2 * 2 - 1 :=
  ⟨pairTable_count.symm, pair_builds, by decide, by decide⟩

/-- A FREQ that succeeds and a BUILD of its table. -/
theorem witness_RootFrequencyIsTheTotalCount :
    (∃ t, exec .build { small with freq := pairTable } = .next t ∧ t.err = .noError) ∧
    ∃ t u, exec .freq abra = .next t ∧ t.err = .noError ∧ exec .build t = .next u := by
  refine ⟨pair_builds, ?_⟩
  obtain ⟨h, hp⟩ := next_of_answers (o := exec .freq abra) (p := fun t => t.err == .noError) abra (by decide +kernel)
  rcases execBuild_cases (nextOf (exec .freq abra) abra) with ⟨-, hb⟩ | ⟨-, hb⟩
  · exact ⟨_, _, h, by simpa using hp, hb⟩
  · exact ⟨_, _, h, by simpa using hp, hb⟩

theorem witness_BuildDegenerateTreeAndDeterminism :
    ∀ x, ((Table.all (0 : Count)).put 0x41 3).at x ≠ 0 ↔ x = 0x41 := by
  intro x
  rw [table_at_put]
  by_cases h : x = 0x41 <;> simp [h]

theorem witness_GencodeAssignsEachLeafItsPath :
    twoTree.treeWf ∧ twoTree.treeValid = true ∧ 2 ≤ twoTree.nLeaf.toNat ∧ 1 < twoTree.nLeaf.toNat ∧
    ∀ k < twoTree.nLeaf.toNat, (nodeAt twoTree.nodes k).sym ≠ 0x43 := ⟨twoTree_wf, rfl, by decide, by decide, by decide⟩

theorem witness_GencodeGivesTheSingleLeafTheCodeZero :
    soleTree.treeWf ∧ soleTree.treeValid = true ∧ soleTree.nLeaf = 1 := ⟨soleTree_wf, rfl, rfl⟩

theorem witness_GeneratedCodebookIsPrefixFree : twoTree.treeWf ∧ twoTree.treeValid = true := ⟨twoTree_wf, rfl⟩

theorem witness_GeneratedCodebookIsComplete :
    (twoTree.treeWf ∧ twoTree.treeValid = true ∧ 2 ≤ twoTree.nLeaf.toNat ∧ ∃ t, exec .gencode twoTree = .next t) ∧
    (List.replicate 255 true).length = 255 ∧
    (soleTree.treeWf ∧ soleTree.treeValid = true ∧ soleTree.nLeaf = 1 ∧ ∃ t, exec .gencode soleTree = .next t) :=
  ⟨⟨twoTree_wf, rfl, by decide, _, rfl⟩, List.length_replicate, ⟨soleTree_wf, rfl, rfl, _, rfl⟩⟩

/-- An input and an empty codebook. -/
theorem witness_CbclrEmptiesTheCodebook :
    ∃ L C, exec .cbclr abra = .next { abra with
        cbLen := L, cbCode := C, err := .noError, errPos := 0, errAux := 0, pending := none, done := true } ∧
      ({ abra with cbLen := L } : State).cbLen = L ∧ abra.inLen ≠ 0 ∧ abra.inLen.toNat ≤ abra.params.inSize ∧
      abra.pad.toNat ≤ 7 := ⟨_, _, rfl, rfl, by decide, by decide, by decide⟩

/-! The codebook of `pair` -/

theorem pair_codes : codebookOf pair = [(0x41, [false]), (0x42, [true, false])] := by decide +kernel

theorem pair_prefixFree : pair.prefixFree := by
  rw [← ambiguousPair_codebookOf, pair_codes]
  decide

theorem pair_input : inputBytes pair = [0x41, 0x42] := by decide +kernel

theorem pair_coded : isCoded pair 0x41 = true ∧ isCoded pair 0x42 = true ∧ isCoded pair 0x43 = false := by
  decide +kernel

theorem pair_codeOf : codeOf pair 0x41 = [false] ∧ codeOf pair 0x42 = [true, false] := by decide +kernel

theorem pair_all_coded : ∀ b ∈ inputBytes pair, isCoded pair b = true := by
  rw [pair_input]
  intro b hb
  simp only [List.mem_cons, List.not_mem_nil, or_false] at hb
  rcases hb with rfl | rfl
  · exact pair_coded.1
  · exact pair_coded.2.1

theorem pair_encoded : encoded pair (inputBytes pair) = [false, true, false] := by
  rw [pair_input, encoded_cons, encoded_cons, encoded_nil, pair_codeOf.1, pair_codeOf.2]
  rfl

theorem witness_PackWritesThePaddedCodes :
    pair.paramsLegal ∧ pair.inLen ≠ 0 ∧ pair.inLen.toNat ≤ pair.params.inSize ∧
    (∀ b ∈ inputBytes pair, isCoded pair b = true) ∧ 3 = (encoded pair (inputBytes pair)).length ∧
    5 = (8 - 3 % 8) % 8 ∧ 1 = (3 + 7) / 8 ∧ 1 ≤ pair.params.outSize :=
  ⟨small_legal, by decide, by decide, pair_all_coded, by rw [pair_encoded]; rfl, by decide, by decide, by decide⟩

/-- `pair` after PACK. -/
def packed : State := after .pack pair

theorem pair_packs : exec .pack pair = .next packed ∧ packed.err = .noError ∧ packed.outLen = 1 ∧ packed.pad = 5 := by
  obtain ⟨h, hp⟩ := next_of_answers (o := exec .pack pair)
    (p := fun t => t.err == .noError && t.outLen == 1 && t.pad == 5) pair (by decide +kernel)
  simp only [Bool.and_eq_true, beq_iff_eq] at hp
  exact ⟨h, hp.1.1, hp.1.2, hp.2⟩

theorem witness_PackPaddingIsMinimal :
    pair.paramsLegal ∧ exec .pack pair = .next packed ∧ packed.err = .noError ∧
    3 = (encoded pair (inputBytes pair)).length :=
  ⟨small_legal, pair_packs.1, pair_packs.2.1, by rw [pair_encoded]; rfl⟩

/-- "ABC" with the codes of `pair`: index 2 is the first uncoded one. -/
def trio : State := { pair with inMem := memoryOf [0x41, 0x42, 0x43], inLen := 3 }

theorem trio_input : inputBytes trio = [0x41, 0x42] ++ 0x43 :: [] := by decide +kernel

theorem witness_PackStopsAtTheFirstUncodedByte :
    trio.inLen ≠ 0 ∧ trio.inLen.toNat ≤ trio.params.inSize ∧ inputBytes trio = [0x41, 0x42] ++ 0x43 :: [] ∧
    (∀ x ∈ [(0x41 : Byte), 0x42], isCoded trio x = true) ∧ isCoded trio 0x43 = false ∧
    ((encoded trio [0x41, 0x42]).length + 7) / 8 ≤ trio.params.outSize :=
  ⟨by decide, by decide, trio_input, by decide +kernel, by decide +kernel, by decide +kernel⟩

/-- Eight symbols "A" fill the one output byte, and the ninth overflows it. -/
def nine : State :=
  writeCodes [(0x41, [false])] (withInput (List.replicate 9 0x41) { small with
    params := { small.params with outSize := 1 } })

theorem nine_input : inputBytes nine = List.replicate 8 0x41 ++ 0x41 :: [] := by decide +kernel

theorem nine_code : codeOf nine 0x41 = [false] ∧ isCoded nine 0x41 = true := by decide +kernel

theorem nine_legal : nine.paramsLegal := by unfold State.paramsLegal; decide

theorem nine_eight : encoded nine (List.replicate 8 0x41) = List.replicate 8 false := by
  decide +kernel

theorem witness_PackStopsWhenTheOutputOverflows :
    (nine.paramsLegal ∧ nine.inLen ≠ 0 ∧ nine.inLen.toNat ≤ nine.params.inSize ∧
      inputBytes nine = List.replicate 8 0x41 ++ 0x41 :: [] ∧
      (∀ x ∈ List.replicate 8 (0x41 : Byte), isCoded nine x = true) ∧ isCoded nine 0x41 = true ∧
      ((encoded nine (List.replicate 8 0x41)).length + 7) / 8 ≤ nine.params.outSize ∧
      nine.params.outSize < ((encoded nine (List.replicate 8 0x41 ++ [0x41])).length + 7) / 8) ∧
    (pair.paramsLegal ∧ exec .pack pair = .next packed ∧ packed.err = .noError) := by
  refine ⟨⟨nine_legal, by decide, by decide, nine_input, ?_, nine_code.2, ?_, ?_⟩, small_legal, pair_packs.1,
    pair_packs.2.1⟩
  · intro x hx
    rw [(List.mem_replicate.1 hx).2]
    exact nine_code.2
  · rw [nine_eight]; decide
  · rw [encoded_append, nine_eight]
    rw [encoded_cons, encoded_nil, nine_code.1]
    decide

theorem witness_FailingPackAndUnpackLeaveNoResult :
    (∃ t, exec .pack small = .next t ∧ t.err ≠ .noError) ∧ ∃ t, exec .unpack small = .next t ∧ t.err ≠ .noError := by
  constructor
  · obtain ⟨h, hp⟩ := next_of_answers (o := exec .pack small) (p := fun t => t.err != .noError) small (by decide +kernel)
    exact ⟨_, h, by simpa using hp⟩
  · obtain ⟨h, hp⟩ := next_of_answers (o := exec .unpack small) (p := fun t => t.err != .noError) small
      (by decide +kernel)
    exact ⟨_, h, by simpa using hp⟩

/-- `nine` with two output bytes. -/
def nineFits : State := { nine with params := { nine.params with outSize := 2 } }

theorem witness_PackOfOneRepeatedByte :
    nineFits.paramsLegal ∧ nineFits.inLen ≠ 0 ∧ nineFits.inLen.toNat ≤ nineFits.params.inSize ∧
    codeOf nineFits 0x41 = [false] ∧ (∀ x ∈ inputBytes nineFits, x = 0x41) ∧
    (nineFits.inLen.toNat + 7) / 8 ≤ nineFits.params.outSize := by
  refine ⟨by unfold State.paramsLegal; decide, by decide, by decide, nine_code.1, ?_, by decide⟩
  have : inputBytes nineFits = List.replicate 8 0x41 ++ 0x41 :: [] := nine_input
  rw [this]
  decide

/-- PAD = 8 is the first that is refused; PAD = 7 with an empty codebook. -/
theorem witness_UnpackChecksPaddingThenCodebook :
    (abra.inLen ≠ 0 ∧ abra.inLen.toNat ≤ abra.params.inSize ∧ 7 < ({ abra with pad := 8 } : State).pad.toNat) ∧
    ({ abra with pad := 7 } : State).pad.toNat ≤ 7 ∧ ∀ b, abra.cbLen.at b = 0 :=
  ⟨by decide, by decide, fun b => table_at_all 0 b⟩

/-- "0" and "01": the codes of "A" and "B" clash. -/
def clashing : State := writeCodes [(0x41, [false]), (0x42, [false, true])] (withInput [0] small)

theorem clashing_codes : codebookOf clashing = [(0x41, [false]), (0x42, [false, true])] := by decide +kernel

theorem witness_UnpackReportsTheLeastAmbiguousPair :
    (clashing.inLen ≠ 0 ∧ clashing.inLen.toNat ≤ clashing.params.inSize ∧ clashing.pad.toNat ≤ 7) ∧
    clash clashing 0x41 0x42 ∧
    (∀ c d : Byte, clash clashing c d → (0x41 : Byte).toNat < c.toNat ∨ (0x41 = c ∧ (0x42 : Byte).toNat ≤ d.toNat)) ∧
    pair.prefixFree := by
  have hmem : ∀ b, isCoded clashing b = true → b = 0x41 ∨ b = 0x42 := by
    intro b hb
    have := (mem_codebookOf clashing b _).2 ⟨hb, rfl⟩
    rw [clashing_codes] at this
    simp only [List.mem_cons, Prod.mk.injEq, List.not_mem_nil, or_false] at this
    rcases this with h | h
    · exact Or.inl h.1
    · exact Or.inr h.1
  have hc : isCoded clashing 0x41 = true ∧ isCoded clashing 0x42 = true ∧ codeOf clashing 0x41 = [false] ∧
      codeOf clashing 0x42 = [false, true] := by decide +kernel
  refine ⟨by decide, ⟨hc.1, hc.2.1, by decide, Or.inl ?_⟩, ?_, pair_prefixFree⟩
  · rw [hc.2.2.1, hc.2.2.2]
    exact ⟨[true], rfl⟩
  · rintro c d ⟨h1, h2, h3, -⟩
    rcases hmem c h1 with rfl | rfl <;> rcases hmem d h2 with rfl | rfl <;> revert h3 <;> decide

/-- The payload 0x40 of "AB" with its five padding bits. -/
def payload : State := { pair with inMem := memoryOf [0x40], inLen := 1, pad := 5 }

theorem payload_stream : (streamBits (inputBytes payload)).take (8 * payload.inLen.toNat - payload.pad.toNat) =
    [false, true, false] := by decide +kernel

theorem payload_encoded (bs : List Byte) : encoded payload bs = encoded pair bs := rfl

theorem witness_UnpackDecodesAStreamOfCodes :
    payload.paramsLegal ∧ payload.inLen ≠ 0 ∧ payload.inLen.toNat ≤ payload.params.inSize ∧ payload.pad.toNat ≤ 7 ∧
    payload.prefixFree ∧ (∀ b ∈ [(0x41 : Byte), 0x42], isCoded payload b = true) ∧
    [(0x41 : Byte), 0x42].length ≤ payload.params.outSize ∧
    (streamBits (inputBytes payload)).take (8 * payload.inLen.toNat - payload.pad.toNat) =
      encoded payload [0x41, 0x42] := by
  refine ⟨small_legal, by decide, by decide, by decide, pair_prefixFree, ?_, by decide, ?_⟩
  · have := pair_all_coded
    rw [pair_input] at this
    exact this
  · rw [payload_stream, payload_encoded, ← pair_input, pair_encoded]

/-- An output of one byte: the code of "B" is one too many. -/
def narrow : State := { payload with params := { payload.params with outSize := 1 } }

theorem witness_UnpackStopsWhenTheOutputOverflows :
    (narrow.paramsLegal ∧ narrow.inLen ≠ 0 ∧ narrow.inLen.toNat ≤ narrow.params.inSize ∧ narrow.pad.toNat ≤ 7 ∧
      narrow.prefixFree ∧ (∀ x ∈ [(0x41 : Byte)], isCoded narrow x = true) ∧ isCoded narrow 0x42 = true ∧
      [(0x41 : Byte)].length = narrow.params.outSize ∧
      (streamBits (inputBytes narrow)).take (8 * narrow.inLen.toNat - narrow.pad.toNat) =
        encoded narrow ([0x41] ++ [0x42]) ++ []) ∧
    (payload.paramsLegal ∧ ∃ t, exec .unpack payload = .next t ∧ t.err = .noError) := by
  refine ⟨⟨by unfold State.paramsLegal; decide, by decide, by decide, by decide, pair_prefixFree, ?_, pair_coded.2.1,
    by decide, ?_⟩, small_legal, ?_⟩
  · intro x hx
    simp only [List.mem_cons, List.not_mem_nil, or_false] at hx
    rw [hx]
    exact pair_coded.1
  · rw [List.append_nil]
    have h1 : encoded narrow ([0x41] ++ [0x42]) = encoded pair [0x41, 0x42] := rfl
    rw [h1, ← pair_input, pair_encoded]
    exact payload_stream
  · obtain ⟨h, hp⟩ := next_of_answers (o := exec .unpack payload) (p := fun t => t.err == .noError) payload
      (by decide +kernel)
    exact ⟨_, h, by simpa using hp⟩

/-- 0x40 and 0x5F differ in their five padding bits alone. -/
theorem witness_UnpackIgnoresThePaddingBits :
    (streamBits (inputBytes { payload with inMem := memoryOf [0x5F] })).take
        (8 * payload.inLen.toNat - payload.pad.toNat) =
      (streamBits (inputBytes payload)).take (8 * payload.inLen.toNat - payload.pad.toNat) ∧
    ∃ t, exec .unpack payload = .next t :=
  ⟨by decide +kernel, _, (next_of_answers payload (p := fun _ => true) (by decide +kernel)).1⟩

/-- The stream 0, 1: the code of "A", then a part of the code of "B"; and 0, 1, 1: then bits that begin no code. -/
theorem witness_CorruptStreamIsReported :
    ∀ s ∈ [({ payload with pad := 6 } : State), { payload with inMem := memoryOf [0x60] }],
      s.paramsLegal ∧ s.inLen ≠ 0 ∧ s.inLen.toNat ≤ s.params.inSize ∧ s.pad.toNat ≤ 7 ∧ s.prefixFree ∧
      (∃ b, isCoded s b = true) ∧ (∀ b ∈ [(0x41 : Byte)], isCoded s b = true) ∧
      [(0x41 : Byte)].length ≤ s.params.outSize ∧
      ∃ tail, (streamBits (inputBytes s)).take (8 * s.inLen.toNat - s.pad.toNat) = encoded s [0x41] ++ tail ∧
        tail ≠ [] ∧ ∀ b, isCoded s b = true → ¬ (codeOf s b <+: tail) := by
  have hcode : ∀ b, isCoded pair b = true → codeOf pair b = [false] ∨ codeOf pair b = [true, false] := by
    intro b hb
    have := (mem_codebookOf pair b _).2 ⟨hb, rfl⟩
    rw [pair_codes] at this
    simp only [List.mem_cons, Prod.mk.injEq, List.not_mem_nil, or_false] at this
    rcases this with h | h
    · exact Or.inl h.2
    · exact Or.inr h.2
  have hA : ∀ b ∈ [(0x41 : Byte)], isCoded pair b = true := by
    intro b hb
    simp only [List.mem_cons, List.not_mem_nil, or_false] at hb
    rw [hb]
    exact pair_coded.1
  intro s hs
  simp only [List.mem_cons, List.not_mem_nil, or_false] at hs
  rcases hs with rfl | rfl
  · refine ⟨small_legal, by decide, by decide, by decide, pair_prefixFree, ⟨0x41, pair_coded.1⟩, hA, by decide, [true],
      by decide +kernel, by decide, ?_⟩
    intro b hb hp
    have hp' : codeOf pair b <+: _ := hp
    rcases hcode b hb with h | h <;> rw [h] at hp' <;> revert hp' <;> decide
  · refine ⟨small_legal, by decide, by decide, by decide, pair_prefixFree, ⟨0x41, pair_coded.1⟩, hA, by decide,
      [true, true], by decide +kernel, by decide, ?_⟩
    intro b hb hp
    have hp' : codeOf pair b <+: _ := hp
    rcases hcode b hb with h | h <;> rw [h] at hp' <;> revert hp' <;> decide

/-- The same codes with every unused bit set. -/
theorem witness_UnusedCodeBitsAreIgnored :
    ((∀ (b : Byte) (j : Nat), j < (pair.cbLen.at b).toNat → (pair.cbCode.at b).getLsbD j = (pair.cbCode.at b).getLsbD j) ∧
      exec .pack pair = .next packed) ∧
    (soleTree.treeWf ∧ soleTree.treeValid = true ∧ (∃ t, exec .gencode soleTree = .next t ∧
      (t.cbLen.at 0x41).toNat ≤ 254)) :=
  ⟨⟨fun _ _ _ => rfl, pair_packs.1⟩, soleTree_wf, rfl, _, rfl, by decide +kernel⟩

/-- A command that leaves OUT_MEM, and a PACK that writes a byte. -/
theorem witness_CommandsDoNotReadOutMem :
    (∃ t, exec .fclr small = .next t) ∧ Instr.fclr ≠ .pack ∧ Instr.fclr ≠ .unpack ∧
    exec .pack pair = .next packed ∧ packed.err = .noError ∧ 0 < packed.outLen.toNat :=
  ⟨⟨_, rfl⟩, by decide, by decide, pair_packs.1, pair_packs.2.1, by rw [pair_packs.2.2.1]; decide⟩

theorem packed_bytes (d : Nat) : (List.range packed.outLen.toNat).map (packed.outMem.byteAt d) = [0x40] := by
  rw [pair_packs.2.2.1]
  rfl

theorem payload_input : inputBytes payload = [0x40] := by decide +kernel

theorem witness_UnpackInvertsPack :
    pair.paramsLegal ∧ pair.prefixFree ∧ exec .pack pair = .next packed ∧ packed.err = .noError ∧
    payload.params = pair.params ∧ payload.cbLen = packed.cbLen ∧ payload.cbCode = packed.cbCode ∧
    payload.pad = packed.pad ∧ payload.inLen = packed.outLen ∧ payload.inLen.toNat ≤ pair.params.inSize ∧
    pair.inLen.toNat ≤ pair.params.outSize ∧
    ∀ d, inputBytes payload = (List.range packed.outLen.toNat).map (packed.outMem.byteAt d) := by
  have hb : packed.cbLen = pair.cbLen ∧ packed.cbCode = pair.cbCode := by
    have h := pair_packs.1
    rcases execPack_cases pair with ⟨e, -, h'⟩ | ⟨bits, -, h'⟩ <;> rw [exec, h'] at h <;>
      injection h with h <;> rw [← h] <;> exact ⟨rfl, rfl⟩
  refine ⟨small_legal, pair_prefixFree, pair_packs.1, pair_packs.2.1, rfl, hb.1.symm, hb.2.symm,
    pair_packs.2.2.2.symm, pair_packs.2.2.1.symm, by decide, by decide, ?_⟩
  intro d
  rw [packed_bytes, payload_input]

/-- Four symbols "B" and one "A" with the codes of `pair`: nine bits, two bytes, and a cut at bit 1, inside the first
code. -/
def five : State := { pair with inMem := memoryOf [0x42, 0x42, 0x42, 0x42, 0x41], inLen := 5 }

theorem witness_TruncatedPayload :
    (∃ t u : State, five.paramsLegal ∧ five.prefixFree ∧ exec .pack five = .next t ∧ t.err = .noError ∧
      u.params = five.params ∧ u.cbLen = t.cbLen ∧ u.cbCode = t.cbCode ∧ u.pad = t.pad ∧ 2 ≤ t.outLen.toNat ∧
      u.inLen.toNat = t.outLen.toNat - 1 ∧ u.inLen.toNat ≤ five.params.inSize ∧
      five.inLen.toNat ≤ five.params.inSize ∧
      ∀ d, inputBytes u = (List.range (t.outLen.toNat - 1)).map (t.outMem.byteAt d)) ∧
    (exec .pack pair = .next packed ∧ packed.err = .noError ∧ packed.outLen = 1 ∧
      small.inLen.toNat = packed.outLen.toNat - 1) := by
  refine ⟨?_, pair_packs.1, pair_packs.2.1, pair_packs.2.2.1, by rw [pair_packs.2.2.1]; rfl⟩
  obtain ⟨h, hp⟩ := next_of_answers (o := exec .pack five)
    (p := fun t => t.err == .noError && t.outLen == 2 && t.outMem == memoryOf [0xAA, 0x00]) five (by decide +kernel)
  generalize nextOf (exec .pack five) five = t at *
  simp only [Bool.and_eq_true, beq_iff_eq] at hp
  refine ⟨t, { t with params := five.params, inLen := 1, inMem := memoryOf [0xAA] }, small_legal, pair_prefixFree, h,
    hp.1.1, rfl, rfl, rfl, rfl, by rw [hp.1.2]; decide, by rw [hp.1.2]; rfl, ?_, by decide, ?_⟩
  · show 1 ≤ 12
    decide
  · intro d
    rw [hp.1.2, hp.2]
    rfl

theorem witness_CompressionCodesEveryInputByte : abra.inLen ≠ 0 ∧ abra.inLen.toNat ≤ abra.params.inSize := by decide

end Sys2Proof.Machine.Slice0
end

section
/-! The command step, case by case of the pending word, and the step of the machine, case by case of the next input. -/

namespace Sys2Proof.Machine

/-! ### The command step -/

theorem commandStep_of_command {s : State} {w : Word} {i : Instr} (hp : s.pending = some w)
    (hd : decode w = .command i) : commandStep s = exec i s := by
  simp only [commandStep, hp, hd]

/-- 30_encoding.md rule R85. -/
theorem commandStep_of_illegal {s : State} {w : Word} (hp : s.pending = some w) (hd : decodeInstr w = none) :
    commandStep s = .next (complete { code := .illegalCommand, pos := 0, aux := w } s) := by
  cases hw : decode w with
  | command i => rw [(decodeInstr_iff w i).2 hw] at hd; cases hd
  | illegal r => simp only [commandStep, hp, hw, raise]

theorem commandStep_of_idle {s : State} (h : s.busy = false) : commandStep s = .next s := by
  simp only [commandStep, (idle_iff_no_pending s).1 h]

/-! ### The step of the machine -/

theorem step_of_no_inputs {s : State} (hi : s.inputs = []) (hb : s.busy = false) : step s = .next s := by
  simp [step, nextMove, hi, hb]

theorem step_of_coreTurn {s : State} {rest : List Input} (hi : s.inputs = .coreTurn :: rest) :
    step s = commandStep (takeTurn s) := by
  simp only [step, nextMove, hi]

theorem step_of_host {s : State} {a : HostAccess} {rest : List Input} (hi : s.inputs = .host a :: rest) :
    step s = hostAccess a (takeTurn s) := by
  simp only [step, nextMove, hi]

theorem step_of_hardReset {s : State} {rest : List Input} (hi : s.inputs = .hardReset :: rest) :
    step s = .next (hardReset (takeTurn s)) := by
  simp only [step, nextMove, hi]

/-- A busy machine takes the command step at the Core's turn, whether the turn is listed or the list is empty
(00_scope.md rules R9, R11). -/
theorem step_of_coreNext_busy {s : State} (hn : coreNext s) (hb : s.busy = true) :
    step s = commandStep (takeTurn s) := by
  obtain hi | ⟨rest, hi⟩ := hn
  · simp only [step, nextMove, hi, hb, if_true]
  · exact step_of_coreTurn hi

/-- Taking a turn removes the input at the head of the list. -/
theorem takeTurn_of_cons {s : State} {m : Input} {rest : List Input} (hi : s.inputs = m :: rest) :
    takeTurn s = { s with inputs := rest, draws := s.draws + 1 } := by
  rw [takeTurn, hi, List.tail_cons]

/-! ### A word placed with withFetchWord -/

/-- A row of 32 bits is the word itself. -/
theorem tableWord_toNat (w : Word) : tableWord 32 w.toNat = w := by
  rw [tableWord, Nat.mod_eq_of_lt w.isLt, BitVec.ofNat_toNat, BitVec.setWidth_eq]

/-- The turn that withFetchWord puts first leaves the inputs as they were when it is taken. -/
theorem takeTurn_withFetchWord (w : Word) (s : State) :
    takeTurn (s.withFetchWord 32 w.toNat) = { accept w s with draws := s.draws + 1 } := by
  rw [State.withFetchWord, tableWord_toNat]
  rfl

theorem step_withFetchWord {w : Word} {i : Instr} (s : State) (hd : decode w = .command i) :
    step (s.withFetchWord 32 w.toNat) = exec i { accept w s with draws := s.draws + 1 } := by
  have hturn : step (s.withFetchWord 32 w.toNat) = commandStep (takeTurn (s.withFetchWord 32 w.toNat)) :=
    step_of_coreTurn rfl
  rw [hturn, takeTurn_withFetchWord]
  exact commandStep_of_command rfl hd

/-- Settles O4: a clause for each move that can come next and, at the Core's turn, for each kind of pending word. -/
theorem stepRunsTheDecodedCommand : Obligations.StepRunsTheDecodedCommand := by
  refine ⟨fun s w i hp hd hn => ?command, fun s hn hb => step_of_coreNext_busy hn hb, fun s w hp hd hn => ?illegal,
    fun s rest hi hb => ?idleTurn, fun s a rest hi => ?host, fun s rest hi => ?hardReset,
    fun s hi hb => step_of_no_inputs hi hb, fun s w i hd => step_withFetchWord s hd⟩
  case command =>
    rw [step_of_coreNext_busy hn ((busy_iff_pending s).2 ⟨w, hp⟩)]
    exact commandStep_of_command hp hd
  case illegal =>
    rw [step_of_coreNext_busy hn ((busy_iff_pending s).2 ⟨w, hp⟩)]
    exact commandStep_of_illegal hp hd
  case idleTurn =>
    rw [step_of_coreTurn hi, takeTurn_of_cons hi]
    exact commandStep_of_idle hb
  case host => rw [step_of_host hi, takeTurn_of_cons hi]
  case hardReset => rw [step_of_hardReset hi, takeTurn_of_cons hi]

end Sys2Proof.Machine
end

section
/-! What a step keeps: a property that each kind of move keeps, every step keeps; the tree registers and the arena, and
what BUILD leaves in them (10_state.md rules R30, R39 to R41, R44). -/

namespace Sys2Proof.Machine

/-! ### The parts of the state that few moves change -/

/-- What holds the tree: TREE_VALID, NLEAF, NNODE, ROOT and NODE. -/
def State.treePart (s : State) : Bool × BitVec 9 × BitVec 10 × NodeIndex × List Node :=
  (s.treeValid, s.nLeaf, s.nNode, s.root, s.nodes)

/-- What acceptance, completion and dropping write: DONE, OVR, the accepted word, the error record and LASTOP. -/
def State.handshake (s : State) : Bool × Bool × Option Word × ErrorCode × Word × Word × BitVec 4 :=
  (s.done, s.ovr, s.pending, s.err, s.errPos, s.errAux, s.lastOp)

/-! ### The moves of a step -/

/-- A host access that is made leaves everything but the memories and the read data, or it is a write of a register. -/
theorem hostAccess_memory_or_register {a : HostAccess} {s t : State} (h : hostAccess a s = .next t) :
    (∃ r i o, t = { s with reply := r, inMem := i, outMem := o }) ∨
    (∃ off v, a = .wr32 off v ∧ off.toNat < 0x1000 ∧ t = writeReg (regAt off.toNat) v s) := by
  rcases hostAccess_next a s t h with ⟨-, v, rfl⟩ | ⟨-, -, b, v, -, rfl⟩ | ⟨-, -, b, v, -, rfl⟩ |
    ⟨-, -, b, v, -, rfl⟩ | ⟨-, -, b, v, -, rfl⟩ | ⟨off, v, ha, hl, rfl, -⟩
  · exact .inl ⟨_, _, _, rfl⟩
  · exact .inl ⟨_, _, _, rfl⟩
  · exact .inl ⟨_, _, _, rfl⟩
  · exact .inl ⟨_, _, _, rfl⟩
  · exact .inl ⟨_, _, _, rfl⟩
  · exact .inr ⟨off, v, ha, hl, rfl⟩

/-- Everything a register write can do: a soft reset, the clearing of STATUS, the acceptance or the dropping of a command,
or a change that leaves the handshake, the tree, OUT_LEN and the parameters. -/
theorem writeReg_cases (r : Reg) (v : Word) (s : State) :
    (r = .ctrl ∧ v.getLsbD 1 = true ∧ writeReg r v s = softReset s) ∨
    (r = .status ∧ writeReg r v s = writeStatus v s) ∨
    (r = .cmd ∧ s.busy = true ∧ writeReg r v s = { s with ovr := true }) ∨
    (r = .cmd ∧ s.busy = false ∧ writeReg r v s = accept v s) ∨
    ((writeReg r v s).handshake = s.handshake ∧ (writeReg r v s).treePart = s.treePart ∧
      (writeReg r v s).outLen = s.outLen ∧ (writeReg r v s).params = s.params) := by
  cases r with
  | ctrl =>
    rw [writeReg, writeCtrl]
    cases v.getLsbD 1
    · exact .inr (.inr (.inr (.inr ⟨rfl, rfl, rfl, rfl⟩)))
    · exact .inl ⟨rfl, rfl, rfl⟩
  | status => exact .inr (.inl ⟨rfl, rfl⟩)
  | cmd =>
    rw [writeReg, writeCmd]
    cases s.busy
    · exact .inr (.inr (.inr (.inl ⟨rfl, rfl, rfl⟩)))
    · exact .inr (.inr (.inl ⟨rfl, rfl, rfl⟩))
  | _ => exact .inr (.inr (.inr (.inr ⟨rfl, rfl, rfl, rfl⟩)))

/-- What a command leaves of `s` in the state `u` that it completes: every command leaves IN_LEN, OVR and the parameters,
and only its own commands change the tree, the counts and OUT_LEN (30_encoding.md rule R87). -/
structure CommandFrame (i : Instr) (s u : State) : Prop where
  inLen    : u.inLen = s.inLen
  ovr      : u.ovr = s.ovr
  params   : u.params = s.params
  treePart : i ≠ .build → u.treePart = s.treePart
  freq     : i ≠ .freq → i ≠ .fclr → u.freq = s.freq
  outLen   : i ≠ .pack → i ≠ .unpack → u.outLen = s.outLen

/-- Every command ends with a completion of a state that has its frame. -/
theorem exec_completes {i : Instr} {s t : State} (h : exec i s = .next t) :
    ∃ e u, t = complete e u ∧ CommandFrame i s u := by
  cases i with
  | freq =>
    rcases execFreq_cases s with ⟨e, -, he⟩ | ⟨-, he⟩ <;> cases he.symm.trans h <;>
      exact ⟨_, _, rfl, by constructor <;> simp [State.treePart]⟩
  | build =>
    rcases execBuild_cases s with ⟨-, he⟩ | ⟨-, he⟩ <;> cases he.symm.trans h <;>
      exact ⟨_, _, rfl, by constructor <;> simp⟩
  | gencode =>
    rcases execGencode_cases s with ⟨-, he⟩ | ⟨-, he⟩ <;> cases he.symm.trans h
    · exact ⟨_, _, rfl, by constructor <;> simp⟩
    · rw [generated_fields]
      exact ⟨_, _, rfl, by constructor <;> simp [State.treePart]⟩
  | pack =>
    rcases execPack_cases s with ⟨e, -, he⟩ | ⟨bits, -, he⟩ <;> cases he.symm.trans h <;>
      exact ⟨_, _, rfl, by constructor <;> simp [State.treePart]⟩
  | unpack =>
    rcases execUnpack_cases s with ⟨e, -, he⟩ | ⟨bytes, -, he⟩ <;> cases he.symm.trans h <;>
      exact ⟨_, _, rfl, by constructor <;> simp [State.treePart]⟩
  | fclr => cases h; exact ⟨_, _, rfl, by constructor <;> simp [State.treePart]⟩
  | cbclr => cases h; exact ⟨_, _, rfl, by constructor <;> simp [State.treePart]⟩

/-- A property is kept by every step when each part of a move keeps it: the turn, the accesses to the memories and to a
register, a command, an illegal word and a hardware reset. -/
theorem step_keeps {P : State → Prop} {s t : State} (h : step s = .next t) (hs : P s)
    (turn : ∀ s, P s → P (takeTurn s))
    (memory : ∀ s r i o, P s → P { s with reply := r, inMem := i, outMem := o })
    (register : ∀ r v s, P s → P (writeReg r v s))
    (command : ∀ i s t, P s → exec i s = .next t → P t)
    (illegal : ∀ e s, P s → P (complete e s))
    (reset : ∀ s, P s → P (hardReset s)) : P t := by
  have hturn := turn s hs
  rcases step_cases h with ⟨-, -, rfl⟩ | ⟨-, -, hc⟩ | ⟨a, -, ha⟩ | ⟨-, rfl⟩
  · exact hs
  · rcases commandStep_cases (takeTurn s) with ⟨-, he⟩ | ⟨w, i, -, -, he⟩ | ⟨w, r, -, -, he⟩
    · cases he.symm.trans hc
      exact hturn
    · exact command i _ _ hturn (he.symm.trans hc)
    · cases he.symm.trans hc
      exact illegal _ _ hturn
  · rcases hostAccess_memory_or_register ha with ⟨r, i, o, rfl⟩ | ⟨off, v, -, -, rfl⟩
    · exact memory _ _ _ _ hturn
    · exact register _ _ _ hturn
  · exact reset _ hturn

/-! ### The tree registers and the arena -/

/-- The tree is well formed or not by the registers and the arena that hold it. -/
theorem treeWf_congr {s t : State} (h : t.treePart = s.treePart) : t.treeWf ↔ s.treeWf := by
  simp only [State.treePart, Prod.mk.injEq] at h
  obtain ⟨hv, hl, hn, hr, ha⟩ := h
  rw [State.treeWf, State.treeWf, hv, hl, hn, hr, ha]

/-- Without a tree the registers are 0 and the arena is empty, which is well formed. -/
theorem treeWf_of_none {s : State} (h : s.treePart = (false, 0, 0, 0, [])) : s.treeWf := by
  simp only [State.treePart, Prod.mk.injEq] at h
  obtain ⟨hv, hl, hn, hr, ha⟩ := h
  exact ⟨fun ht => absurd (hv.symm.trans ht) Bool.false_ne_true, fun _ => ⟨hl, hn, hr, ha⟩⟩

/-- Of all register writes only a soft reset changes the tree, which it clears. -/
theorem writeReg_treePart (r : Reg) (v : Word) (s : State) :
    (writeReg r v s).treePart = s.treePart ∨
    (r = .ctrl ∧ v.getLsbD 1 = true ∧ (writeReg r v s).treePart = (false, 0, 0, 0, [])) := by
  rcases writeReg_cases r v s with ⟨hr, hv, he⟩ | ⟨-, he⟩ | ⟨-, -, he⟩ | ⟨-, -, he⟩ | ⟨-, he, -, -⟩
  · exact .inr ⟨hr, hv, by rw [he]; rfl⟩
  · exact .inl (by rw [he]; rfl)
  · exact .inl (by rw [he]; rfl)
  · exact .inl (by rw [he]; rfl)
  · exact .inl he

/-- Only BUILD, of all commands, changes the tree. -/
theorem exec_treePart {i : Instr} {s t : State} (hi : i ≠ .build) (h : exec i s = .next t) :
    t.treePart = s.treePart := by
  obtain ⟨e, u, rfl, hu⟩ := exec_completes h
  exact hu.treePart hi

/-! ### What BUILD leaves -/

/-- A table has leaves exactly when it has a distinct symbol. -/
theorem one_le_distinctCount {freq : Table Count} (h : leavesOf freq ≠ []) : 1 ≤ distinctCount freq := by
  rw [← length_leavesOf]
  exact List.length_pos_iff.2 h

/-- BUILD leaves no tree after its error, and the registers and the arena of a tree after its success. -/
theorem build_treeWf {s t : State} (h : exec .build s = .next t) : t.treeWf := by
  rcases execBuild_cases s with ⟨-, he⟩ | ⟨hne, he⟩ <;> cases he.symm.trans h
  · exact treeWf_of_none rfl
  · have hpos := one_le_distinctCount hne
    have hle := distinctCount_le s.freq
    refine ⟨fun _ => ?_, fun hv => by cases hv⟩
    simp only [complete_nodes, complete_nLeaf, complete_nNode, complete_root, length_leavesOf, BitVec.toNat_ofNat,
      length_treeOf s.freq hpos, (rootOf_treeOf s.freq hpos).1]
    rw [Nat.mod_eq_of_lt (by omega : distinctCount s.freq < 2 ^ 9)]
    exact ⟨treeOf_shape s.freq hpos, Nat.mod_eq_of_lt (by omega), Nat.mod_eq_of_lt (by omega)⟩

/-- Settles O35: a BUILD that reports no error found leaves, and the arena it left is the tree builder's. -/
theorem buildMakesATree : Obligations.BuildMakesATree := by
  intro s t h herr
  rcases execBuild_cases s with ⟨-, he⟩ | ⟨hne, he⟩ <;> cases he.symm.trans h
  · cases herr
  · exact treeOf_shape s.freq (one_le_distinctCount hne)

/-- Settles O28: BUILD makes a tree or drops it, a reset drops it, and every other move leaves it. -/
theorem stepKeepsTheTreeShape : Obligations.StepKeepsTheTreeShape := by
  intro s t hs h
  refine step_keeps h hs (fun _ hs => hs) (fun _ _ _ _ hs => hs) (fun r v s hs => ?register)
    (fun i s t hs h => ?command) (fun _ _ hs => hs) (fun _ _ => treeWf_of_none rfl)
  case register =>
    obtain heq | ⟨-, -, hnone⟩ := writeReg_treePart r v s
    · exact (treeWf_congr heq).2 hs
    · exact treeWf_of_none hnone
  case command =>
    by_cases hi : i = .build
    · subst hi
      exact build_treeWf h
    · exact (treeWf_congr (exec_treePart hi h)).2 hs

end Sys2Proof.Machine
end

section
/-! The events that set DONE, BUSY and OVR and that change the tree, and the invariants of the counts, of OUT_LEN and of
the handshake (10_state.md rules R27 to R32, R35, R43; 30_encoding.md rule R83). -/

namespace Sys2Proof.Machine

/-! ### The status bits -/

/-- No host access sets DONE. -/
theorem hostAccess_done {a : HostAccess} {s t : State} (h : hostAccess a s = .next t) (ht : t.done = true) :
    s.done = true := by
  rcases hostAccess_memory_or_register h with ⟨r, i, o, rfl⟩ | ⟨off, v, -, -, rfl⟩
  · exact ht
  · rcases writeReg_cases (regAt off.toNat) v s with ⟨-, -, he⟩ | ⟨-, he⟩ | ⟨-, -, he⟩ | ⟨-, -, he⟩ | ⟨he, -, -, -⟩
    · rw [he] at ht; cases ht
    · rw [he] at ht; exact (Bool.and_eq_true_iff.1 ht).1
    · rw [he] at ht; exact ht
    · rw [he] at ht; cases ht
    · exact (congrArg Prod.fst he).symm.trans ht

/-- Of all host accesses only a CMD write in the idle state sets BUSY. -/
theorem hostAccess_busy {a : HostAccess} {s t : State} (h : hostAccess a s = .next t) (hs : s.busy = false)
    (ht : t.busy = true) : ∃ w, a = .wr32 0x00C w ∧ t.pending = some w := by
  have hidle : t.pending ≠ s.pending := fun he => by
    rw [State.busy, he, ← State.busy, hs] at ht
    cases ht
  rcases hostAccess_memory_or_register h with ⟨r, i, o, rfl⟩ | ⟨off, v, rfl, -, rfl⟩
  · exact absurd rfl hidle
  · rcases writeReg_cases (regAt off.toNat) v s with ⟨-, -, he⟩ | ⟨-, he⟩ | ⟨-, -, he⟩ | ⟨hr, -, he⟩ | ⟨he, -, -, -⟩
    · rw [he] at ht; cases ht
    · exact absurd (by rw [he]; rfl) hidle
    · exact absurd (by rw [he]) hidle
    · obtain rfl : off = 0x00C := BitVec.eq_of_toNat_eq (cmd_at _ hr)
      exact ⟨v, rfl, by rw [he]; rfl⟩
    · exact absurd (congrArg (fun x => x.2.2.1) he) hidle

/-- Of all host accesses only a CMD write that is dropped sets OVR. -/
theorem hostAccess_ovr {a : HostAccess} {s t : State} (h : hostAccess a s = .next t) (hs : s.ovr = false)
    (ht : t.ovr = true) : s.busy = true ∧ ∃ w, a = .wr32 0x00C w := by
  have hset : t.ovr ≠ s.ovr := by rw [hs, ht]; decide
  rcases hostAccess_memory_or_register h with ⟨r, i, o, rfl⟩ | ⟨off, v, rfl, -, rfl⟩
  · exact absurd rfl hset
  · rcases writeReg_cases (regAt off.toNat) v s with ⟨-, -, he⟩ | ⟨-, he⟩ | ⟨hr, hb, -⟩ | ⟨-, -, he⟩ | ⟨he, -, -, -⟩
    · rw [he] at ht; cases ht
    · rw [he] at ht; exact absurd ((Bool.and_eq_true_iff.1 ht).1.symm.trans hs) (by decide)
    · obtain rfl : off = 0x00C := BitVec.eq_of_toNat_eq (cmd_at _ hr)
      exact ⟨hb, v, rfl⟩
    · exact absurd (by rw [he]; rfl) hset
    · exact absurd (congrArg (fun x => x.2.1) he) hset

/-- A Core's turn completes a running command and leaves OVR; without one it does nothing. -/
theorem commandStep_completes {s t : State} (h : commandStep s = .next t) :
    (s.busy = false ∧ t = s) ∨ (s.busy = true ∧ t.busy = false ∧ t.ovr = s.ovr) := by
  rcases commandStep_cases s with ⟨hp, he⟩ | ⟨w, i, hp, -, he⟩ | ⟨w, r, hp, -, he⟩
  · cases he.symm.trans h
    exact .inl ⟨(idle_iff_no_pending s).2 hp, rfl⟩
  · obtain ⟨e, u, rfl, hu⟩ := exec_completes (he.symm.trans h)
    exact .inr ⟨(busy_iff_pending s).2 ⟨w, hp⟩, rfl, hu.ovr⟩
  · cases he.symm.trans h
    exact .inr ⟨(busy_iff_pending s).2 ⟨w, hp⟩, rfl, rfl⟩

/-- Settles O9: of the moves a step can be, only the one named sets each bit. -/
theorem statusBitsAreSetOnlyByTheirEvents : Obligations.StatusBitsAreSetOnlyByTheirEvents := by
  intro s t h
  rcases step_cases h with ⟨-, -, rfl⟩ | ⟨hn, -, hc⟩ | ⟨a, ⟨rest, hi⟩, ha⟩ | ⟨-, rfl⟩
  · simp +contextual
  · rcases commandStep_completes hc with ⟨-, rfl⟩ | ⟨hb, ht, ho⟩
    · simp +contextual
    · rw [takeTurn_busy] at hb
      rw [takeTurn_ovr] at ho
      simp +contextual [hn, hb, ht, ho]
  · refine ⟨fun h0 h1 => ?done, fun h0 h1 => ?busy, fun h0 h1 => ?ovr⟩
    case done => exact absurd ((hostAccess_done ha h1).symm.trans h0) (by decide)
    case busy =>
      obtain ⟨w, rfl, hp⟩ := hostAccess_busy ha h0 h1
      exact ⟨w, ⟨rest, hi⟩, hp⟩
    case ovr =>
      obtain ⟨hb, w, rfl⟩ := hostAccess_ovr ha h0 h1
      exact ⟨hb, w, rest, hi⟩
  · simp +contextual

/-! ### The events that change the tree -/

/-- Of the commands that the Core can run only BUILD changes the tree. -/
theorem commandStep_treePart {s t : State} (h : commandStep s = .next t) (ht : t.treePart ≠ s.treePart) :
    s.pending = some 0x00000002 := by
  rcases commandStep_cases s with ⟨-, he⟩ | ⟨w, i, hp, hd, he⟩ | ⟨w, r, -, -, he⟩
  · cases he.symm.trans h
    exact absurd rfl ht
  · by_cases hi : i = .build
    · rw [hp, ← (decode_iff w i).1 hd, hi]
      rfl
    · exact absurd (exec_treePart hi (he.symm.trans h)) ht
  · cases he.symm.trans h
    exact absurd rfl ht

/-- Of the host's accesses only a write of CTRL with SRST = 1 changes the tree. -/
theorem hostAccess_treePart {a : HostAccess} {s t : State} (h : hostAccess a s = .next t)
    (ht : t.treePart ≠ s.treePart) : ∃ v : Word, v.getLsbD 1 = true ∧ a = .wr32 0x004 v := by
  rcases hostAccess_memory_or_register h with ⟨r, i, o, rfl⟩ | ⟨off, v, rfl, -, rfl⟩
  · exact absurd rfl ht
  · obtain heq | ⟨hr, hv, -⟩ := writeReg_treePart (regAt off.toNat) v s
    · exact absurd heq ht
    · obtain rfl : off = 0x004 := BitVec.eq_of_toNat_eq (ctrl_at _ hr)
      exact ⟨v, hv, rfl⟩

/-- Settles O10: a clause for each of the moves that change the tree, the others leave it. -/
theorem onlyBuildAndResetChangeTheTree : Obligations.OnlyBuildAndResetChangeTheTree := by
  intro s t h ht
  rcases step_cases h with ⟨-, -, rfl⟩ | ⟨hn, -, hc⟩ | ⟨a, ⟨rest, hi⟩, ha⟩ | ⟨hr, -⟩
  · exact absurd rfl ht
  · have hp := commandStep_treePart hc ht
    exact .inl ⟨hn, hp⟩
  · obtain ⟨v, hv, rfl⟩ := hostAccess_treePart ha ht
    exact .inr (.inr ⟨v, hv, rest, hi⟩)
  · exact .inr (.inl hr)

/-! ### The counts -/

/-- A count that the host writes is cut to CNT_W bits (10_state.md rule R42). -/
theorem toNat_countField (p : Params) (v : Word) : (countField p v).toNat = v.toNat % 2 ^ p.cntW := by
  rw [countField, BitVec.toNat_ofNat]
  exact Nat.mod_eq_of_lt ((Nat.mod_le _ _).trans_lt v.isLt)

theorem countField_lt (p : Params) (v : Word) : (countField p v).toNat < 2 ^ p.cntW := by
  rw [toNat_countField]
  exact Nat.mod_lt _ (Nat.two_pow_pos _)

/-- A table of zeros fits. -/
theorem countsFit_of_zero {s : State} (h : s.freq = Table.all 0) : s.countsFit := by
  intro b
  rw [h, table_at_all]
  exact Nat.two_pow_pos _

/-- The host's write of FDATA is cut to CNT_W bits. -/
theorem writeReg_countsFit {s : State} (r : Reg) (v : Word) (hs : s.countsFit) : (writeReg r v s).countsFit := by
  cases r with
  | ctrl =>
    rw [writeReg, writeCtrl]
    cases v.getLsbD 1
    · exact hs
    · exact countsFit_of_zero rfl
  | cmd =>
    rw [writeReg, writeCmd]
    cases s.busy <;> exact hs
  | fData =>
    intro b
    simp only [writeReg, table_at_put]
    split
    · exact countField_lt s.params v
    · exact hs b
  | _ => exact hs

/-- A count is at most IN_LEN, which is at most IN_SIZE when FREQ succeeds (40_frequency_tree.md rule R101). -/
theorem freq_countsFit {s t : State} (hp : s.paramsLegal) (hs : s.countsFit) (h : exec .freq s = .next t) :
    t.countsFit := by
  obtain ⟨-, hin, -, -, hcnt, -⟩ := (params_wf_iff s.params).1 hp
  rcases execFreq_cases s with ⟨e, -, he⟩ | ⟨hnone, he⟩ <;> cases he.symm.trans h
  · exact hs
  · intro b
    have hlen : (inputBytes s).length ≤ s.params.inSize := by
      rw [length_inputBytes]
      rcases inputError_cases s with ⟨-, hc⟩ | ⟨-, -, hc⟩ | ⟨-, hle, -⟩
      · rw [hc] at hnone; cases hnone
      · rw [hc] at hnone; cases hnone
      · exact hle
    have hcount : (inputBytes s).count b ≤ s.params.inSize := List.count_le_length.trans hlen
    simp only [complete_freq, complete_params, countBytes_at (inputBytes s) b (by omega)]
    omega

/-- FREQ counts what fits, FCLR clears, and the other commands leave the counts. -/
theorem exec_countsFit {i : Instr} {s t : State} (hp : s.paramsLegal) (hs : s.countsFit)
    (h : exec i s = .next t) : t.countsFit := by
  by_cases hfreq : i = .freq
  · subst hfreq
    exact freq_countsFit hp hs h
  · by_cases hfclr : i = .fclr
    · subst hfclr
      cases h
      exact countsFit_of_zero rfl
    · obtain ⟨e, u, rfl, hu⟩ := exec_completes h
      intro b
      simpa only [complete_freq, complete_params, hu.freq hfreq hfclr, hu.params] using hs b

/-! ### OUT_LEN -/

/-- A register write leaves OUT_LEN, or clears it by a soft reset. -/
theorem writeReg_outLenFits {s : State} (r : Reg) (v : Word) (hs : s.outLenFits) : (writeReg r v s).outLenFits := by
  rcases writeReg_cases r v s with ⟨-, -, he⟩ | ⟨-, he⟩ | ⟨-, -, he⟩ | ⟨-, -, he⟩ | ⟨-, -, ho, hp⟩
  · rw [he]; exact Nat.zero_le _
  · rw [he]; exact hs
  · rw [he]; exact hs
  · rw [he]; exact hs
  · rwa [State.outLenFits, ho, hp]

/-- PACK and UNPACK write no more bytes than OUT_MEM has, and the other commands leave OUT_LEN (42_pack.md rule R143,
43_unpack.md rule R166). -/
theorem exec_outLenFits {i : Instr} {s t : State} (hs : s.outLenFits) (h : exec i s = .next t) : t.outLenFits := by
  have hfit : ∀ n ≤ s.params.outSize, (BitVec.ofNat 32 n).toNat ≤ s.params.outSize := fun n hn =>
    (Nat.mod_le _ _).trans hn
  by_cases hpack : i = .pack
  · subst hpack
    rcases execPack_cases s with ⟨e, -, he⟩ | ⟨bits, hbits, he⟩ <;> cases he.symm.trans h
    · exact Nat.zero_le _
    · obtain ⟨-, -, -, -, hle⟩ := packBits_ok s bits hbits
      exact hfit _ hle
  · by_cases hunpack : i = .unpack
    · subst hunpack
      rcases execUnpack_cases s with ⟨e, -, he⟩ | ⟨bytes, hbytes, he⟩ <;> cases he.symm.trans h
      · exact Nat.zero_le _
      · exact hfit _ (unpackBytes_length s bytes hbytes)
    · obtain ⟨e, u, rfl, hu⟩ := exec_completes h
      rwa [State.outLenFits, complete_outLen, complete_params, hu.outLen hpack hunpack, hu.params]

/-! ### The handshake -/

/-- While no command runs the handshake asks nothing. -/
theorem handshakeOk_of_idle {s : State} (h : s.pending = none) : s.handshakeOk := fun w hw => by
  rw [h] at hw
  cases hw

/-- The handshake is kept or not by the registers that take part in it. -/
theorem handshakeOk_congr {s t : State} (h : t.handshake = s.handshake) : t.handshakeOk ↔ s.handshakeOk := by
  simp only [State.handshake, Prod.mk.injEq] at h
  obtain ⟨hd, -, hp, he, hpos, haux, hl⟩ := h
  rw [State.handshakeOk, State.handshakeOk, hd, hp, he, hpos, haux, hl]

/-- An accepted command starts with the handshake of 30_encoding.md rule R83, and no other write breaks it. -/
theorem writeReg_handshakeOk {s : State} (r : Reg) (v : Word) (hs : s.handshakeOk) : (writeReg r v s).handshakeOk := by
  rcases writeReg_cases r v s with ⟨-, -, he⟩ | ⟨-, he⟩ | ⟨-, -, he⟩ | ⟨-, -, he⟩ | ⟨hh, -⟩
  · rw [he]; exact handshakeOk_of_idle rfl
  · rw [he]
    intro w hw
    obtain ⟨hd, hrest⟩ := hs w hw
    exact ⟨by simp only [writeStatus, hd, Bool.false_and], hrest⟩
  · rw [he]; exact hs
  · rw [he]
    intro w hw
    cases hw
    exact ⟨rfl, rfl, rfl, rfl, rfl⟩
  · exact (handshakeOk_congr hh).2 hs

theorem exec_handshakeOk {i : Instr} {s t : State} (h : exec i s = .next t) : t.handshakeOk := by
  obtain ⟨e, u, rfl, -⟩ := exec_completes h
  exact handshakeOk_of_idle rfl

/-! ### What every step keeps -/

theorem writeReg_params (r : Reg) (v : Word) (s : State) : (writeReg r v s).params = s.params := by
  rcases writeReg_cases r v s with ⟨-, -, he⟩ | ⟨-, he⟩ | ⟨-, -, he⟩ | ⟨-, -, he⟩ | ⟨-, -, -, hp⟩
  · rw [he]; rfl
  · rw [he]; rfl
  · rw [he]
  · rw [he]; rfl
  · exact hp

theorem exec_params {i : Instr} {s t : State} (h : exec i s = .next t) : t.params = s.params := by
  obtain ⟨e, u, rfl, hu⟩ := exec_completes h
  exact hu.params

/-- The counts fit an instance with legal parameters, which FREQ needs to keep them so. -/
def State.countsLegal (s : State) : Prop := s.paramsLegal ∧ s.countsFit

theorem writeReg_countsLegal {s : State} (r : Reg) (v : Word) (hs : s.countsLegal) : (writeReg r v s).countsLegal :=
  ⟨by rw [State.paramsLegal, writeReg_params]; exact hs.1, writeReg_countsFit r v hs.2⟩

theorem exec_countsLegal {i : Instr} {s t : State} (hs : s.countsLegal) (h : exec i s = .next t) : t.countsLegal :=
  ⟨by rw [State.paramsLegal, exec_params h]; exact hs.1, exec_countsFit hs.1 hs.2 h⟩

theorem step_countsLegal {s t : State} (hs : s.countsLegal) (h : step s = .next t) : t.countsLegal :=
  step_keeps h hs (fun _ hs => hs) (fun _ _ _ _ hs => hs) (fun r v _ hs => writeReg_countsLegal r v hs)
    (fun _ _ _ hs h => exec_countsLegal hs h) (fun _ _ hs => hs) (fun _ hs => ⟨hs.1, countsFit_of_zero rfl⟩)

theorem step_outLenFits {s t : State} (hs : s.outLenFits) (h : step s = .next t) : t.outLenFits :=
  step_keeps h hs (fun _ hs => hs) (fun _ _ _ _ hs => hs) (fun r v _ hs => writeReg_outLenFits r v hs)
    (fun _ _ _ hs h => exec_outLenFits hs h) (fun _ _ hs => hs) (fun _ _ => Nat.zero_le _)

theorem step_handshakeOk {s t : State} (hs : s.handshakeOk) (h : step s = .next t) : t.handshakeOk :=
  step_keeps h hs (fun _ hs => hs) (fun _ _ _ _ hs => hs) (fun r v _ hs => writeReg_handshakeOk r v hs)
    (fun _ _ _ _ h => exec_handshakeOk h) (fun _ _ _ => handshakeOk_of_idle rfl)
    (fun _ _ => handshakeOk_of_idle rfl)

/-- Settles O29: one invariant for each clause. -/
theorem stepKeepsCountsLengthsAndHandshake : Obligations.StepKeepsCountsLengthsAndHandshake :=
  fun _ _ hp h => ⟨fun hs => (step_countsLegal ⟨hp, hs⟩ h).2, fun hs => step_outLenFits hs h, fun hs => step_handshakeOk hs h⟩

/-- Settles O26: the reset state is idle, without a tree, and its tables and memories are empty. -/
theorem resetMeetsTheInvariant : Obligations.ResetMeetsTheInvariant where
  paramsLegal := by unfold State.paramsLegal; decide
  countsFit   := countsFit_of_zero rfl
  memoriesWf  := ⟨unwritten_wf _, unwritten_wf _⟩
  outLenFits  := Nat.zero_le _
  handshakeOk := handshakeOk_of_idle rfl
  treeWf      := treeWf_of_none rfl

end Sys2Proof.Machine
end

section
/-! The registers as the host reads and writes them (10_state.md rules R20 to R48), and the state after a hardware reset
(10_state.md rule R52). -/

namespace Sys2Proof.Machine

/-! ### A read after a write -/

/-- A host that writes a register of the page while idle and reads it back gets the register's value in the state that
the write left. -/
theorem rd32_after_wr32 {s : State} {off v img : Word} (r : Reg) (hb : s.busy = false) (h : off.toNat < 0x1000)
    (h4 : off.toNat % 4 = 0) (hr : regAt off.toNat = r) (hidle : (writeReg r v s).busy = false)
    (himg : regValue r (writeReg r v s) = img) :
    ∃ t, hostAccess (.wr32 off v) s = .next t ∧ hostAccess (.rd32 off) t = .next { t with reply := some img } :=
  ⟨_, wr32_register s off v r hb h h4 hr, by rw [rd32_register _ off r hidle h h4 hr, himg]⟩

/-- The low `k` bits of a word, as a mask and as a field that is read zero-extended. -/
theorem and_lowMask (v : Word) {k : Nat} (hk : k ≤ 32) :
    v &&& BitVec.ofNat 32 (2 ^ k - 1) = (v.setWidth k).setWidth 32 := by
  have hpow : 2 ^ k ≤ 2 ^ 32 := Nat.pow_le_pow_right (by norm_num) hk
  have hmod : v.toNat % 2 ^ k < 2 ^ 32 := (Nat.mod_le _ _).trans_lt v.isLt
  apply BitVec.eq_of_toNat_eq
  rw [BitVec.toNat_and, BitVec.toNat_ofNat, BitVec.toNat_setWidth, BitVec.toNat_setWidth, Nat.mod_eq_of_lt hmod,
    Nat.mod_eq_of_lt (by omega), Nat.and_two_pow_sub_one_eq_mod]

/-- CTRL reads its bit IE alone (10_state.md rule R25). -/
theorem ctrlWord_eq (s : State) : ctrlWord s = if s.ie then 1 else 0 := by
  rw [ctrlWord]
  cases s.ie <;> rfl

theorem writeCtrl_of_no_reset {v : Word} (s : State) (hv : v.getLsbD 1 = false) :
    writeCtrl v s = { s with ie := v.getLsbD 0 } := by
  rw [writeCtrl, hv]
  rfl

theorem ctrlWord_writeCtrl {v : Word} (s : State) (hv : v.getLsbD 1 = false) :
    ctrlWord (writeCtrl v s) = v &&& 0x00000001 := by
  rw [writeCtrl_of_no_reset s hv, ctrlWord_eq]
  apply BitVec.eq_of_getLsbD_eq
  intro j hj
  cases j with
  | zero => cases hb : v.getLsbD 0 <;> simpa using hb
  | succ j => cases v.getLsbD 0 <;> simp [BitVec.getLsbD_one]

/-- Window `k` of a code reads what was written to it, bit 255 excepted, which does not exist (10_state.md rule R47). -/
theorem codeWindow_putCodeWord (c : CodeBits) {k : Nat} (hk : k < 8) (v : Word) :
    ((putCodeWord c k v).setWidth 256).extractLsb' (32 * k) 32 = if k = 7 then v &&& 0x7FFFFFFF else v := by
  have hmask : v &&& 0x7FFFFFFF = (v.setWidth 31).setWidth 32 := and_lowMask v (by decide : 31 ≤ 32)
  apply BitVec.eq_of_getLsbD_eq
  intro j hj
  rw [codeWindow_bit _ _ _ hk hj, hmask]
  by_cases hbit : 32 * k + j < 255
  · rw [putCodeWord_bit _ _ _ _ hbit, if_pos (by omega), Nat.add_sub_cancel_left]
    split
    · simp [hj, show j < 31 by omega]
    · rfl
  · obtain ⟨rfl, rfl⟩ : k = 7 ∧ j = 31 := by omega
    simp

/-- The offset of a code window. -/
theorem codeWindow_offset {k : Nat} (hk : k < 8) : (BitVec.ofNat 32 (0x040 + 4 * k)).toNat = 0x040 + 4 * k := by
  rw [BitVec.toNat_ofNat]
  omega

/-- A code window reads back what was written to it. -/
theorem rd32_after_wr32_code {s : State} (v : Word) (k : Nat) (hb : s.busy = false) (hk : k < 8) :
    ∃ t, hostAccess (.wr32 (BitVec.ofNat 32 (0x040 + 4 * k)) v) s = .next t ∧
      hostAccess (.rd32 (BitVec.ofNat 32 (0x040 + 4 * k))) t =
        .next { t with reply := some (if k = 7 then v &&& 0x7FFFFFFF else v) } := by
  have hoff := codeWindow_offset hk
  refine rd32_after_wr32 (.cbCode ⟨k, hk⟩) hb (by omega) (by omega) (by rw [hoff, regAt_cbCode k hk]) hb ?_
  simp only [regValue, writeReg, table_at_put_same]
  exact codeWindow_putCodeWord _ hk v

/-- Settles O17: each register that keeps what is written, by its offset; then CTRL and PAD. -/
theorem registerReadReturnsWhatWasWritten : Obligations.RegisterReadReturnsWhatWasWritten := by
  refine ⟨fun s off v img hb himg hctrl => ?readBack, fun s v hv => ?ctrl,
    fun s v hb => wr32_register s 0x018 v .pad hb (by decide) (by decide) rfl⟩
  case readBack =>
    have hbyte : v &&& 0x000000FF = (v.setWidth 8).setWidth 32 := and_lowMask v (by decide : 8 ≤ 32)
    have hnine : v &&& 0x000001FF = (v.setWidth 9).setWidth 32 := and_lowMask v (by decide : 9 ≤ 32)
    unfold writtenImage at himg
    split at himg <;> cases himg
    · have hv := hctrl rfl
      refine rd32_after_wr32 .ctrl hb (by decide) (by decide) rfl ?_ (ctrlWord_writeCtrl s hv)
      rw [writeReg, writeCtrl_of_no_reset s hv]
      exact hb
    · exact rd32_after_wr32 .inLen hb (by decide) (by decide) rfl hb rfl
    · exact rd32_after_wr32 .pad hb (by decide) (by decide) rfl hb rfl
    · exact rd32_after_wr32 .fSel hb (by decide) (by decide) rfl hb hbyte.symm
    · exact rd32_after_wr32 .fData hb (by decide) (by decide) rfl hb (table_at_put_same _ _ _)
    · exact rd32_after_wr32 .cbSel hb (by decide) (by decide) rfl hb hbyte.symm
    · refine rd32_after_wr32 .cbLen hb (by decide) (by decide) rfl hb ?_
      rw [regValue, writeReg, table_at_put_same, hbyte]
    · exact rd32_after_wr32_code v 0 hb (by decide)
    · exact rd32_after_wr32_code v 1 hb (by decide)
    · exact rd32_after_wr32_code v 2 hb (by decide)
    · exact rd32_after_wr32_code v 3 hb (by decide)
    · exact rd32_after_wr32_code v 4 hb (by decide)
    · exact rd32_after_wr32_code v 5 hb (by decide)
    · exact rd32_after_wr32_code v 6 hb (by decide)
    · exact rd32_after_wr32_code v 7 hb (by decide)
    · exact rd32_after_wr32 .nSel hb (by decide) (by decide) rfl hb hnine.symm
  case ctrl =>
    rw [wr32_page_always s 0x004 v (.inl rfl), ← writeCtrl_of_no_reset s hv]
    rfl

/-! ### The windows onto the tables -/

/-- Settles O20: the selector and the window by name, and the count that a write of the window leaves. -/
theorem fdataIsAWindowOntoTheSelectedCount : Obligations.FdataIsAWindowOntoTheSelectedCount := by
  refine ⟨fun s v hb => wr32_register s 0x030 v .fSel hb (by decide) (by decide) rfl,
    fun s hb => rd32_register s 0x030 .fSel hb (by decide) (by decide) rfl,
    fun s hb => rd32_register s 0x034 .fData hb (by decide) (by decide) rfl,
    fun s v hb => ⟨s.freq.put s.fSel (countField s.params v),
      wr32_register s 0x034 v .fData hb (by decide) (by decide) rfl, ?_,
      fun b hne => table_at_put_other _ _ _ _ hne⟩, rfl⟩
  rw [table_at_put_same, toNat_countField]

/-- Settles O21: the selector and the windows by name, and the bits that a window reads and writes. -/
theorem codebookWindowsWriteTheirOwnBits : Obligations.CodebookWindowsWriteTheirOwnBits := by
  refine ⟨fun s v hb => wr32_register s 0x038 v .cbSel hb (by decide) (by decide) rfl,
    fun s hb => rd32_register s 0x038 .cbSel hb (by decide) (by decide) rfl,
    fun s hb => rd32_register s 0x03C .cbLen hb (by decide) (by decide) rfl,
    fun s v hb => ⟨s.cbLen.put s.cbSel (v.setWidth 8),
      wr32_register s 0x03C v .cbLen hb (by decide) (by decide) rfl, table_at_put_same _ _ _,
      fun b hne => table_at_put_other _ _ _ _ hne⟩,
    fun s k hb hk => ?readCode, fun s k v hb hk => ?writeCode, rfl⟩
  case readCode =>
    have hoff := codeWindow_offset hk
    exact ⟨_, rd32_register s _ (.cbCode ⟨k, hk⟩) hb (by omega) (by omega) (by rw [hoff, regAt_cbCode k hk]),
      fun j hj => codeWindow_bit _ k j hk hj⟩
  case writeCode =>
    have hoff := codeWindow_offset hk
    refine ⟨s.cbCode.put s.cbSel (putCodeWord (s.cbCode.at s.cbSel) k v),
      wr32_register s _ v (.cbCode ⟨k, hk⟩) hb (by omega) (by omega) (by rw [hoff, regAt_cbCode k hk]),
      fun j hj => ?_, fun b hne => table_at_put_other _ _ _ _ hne⟩
    rw [table_at_put_same]
    exact putCodeWord_bit _ k v j hj

/-! ### The node registers -/

/-- The fields of NODE_INFO of a node that is shown (10_state.md rule R45). -/
theorem nodeInfoWord_fields (n : Node) :
    (nodeInfoWord n).getLsbD 31 = true ∧ (nodeInfoWord n).getLsbD 30 = n.leaf ∧
    (nodeInfoWord n).extractLsb' 26 4 = 0 ∧
    (nodeInfoWord n).extractLsb' 18 8 = (if n.leaf then n.sym else 0) ∧
    (nodeInfoWord n).extractLsb' 9 9 = (if n.leaf then 0 else n.right) ∧
    (nodeInfoWord n).extractLsb' 0 9 = (if n.leaf then 0 else n.left) := by
  unfold nodeInfoWord
  refine ⟨?_, ?_, ?_, ?_, ?_, ?_⟩
  iterate 2 · simp only [BitVec.getLsbD_append, bit]; simp
  iterate 4 · simp only [BitVec.extractLsb'_append_eq_ite]; simp

/-- NSEL selects no node of a valid tree. -/
theorem nodeShown_eq_false {s : State} (h : ¬ (s.treeValid = true ∧ s.nSel.toNat < s.nNode.toNat)) :
    nodeShown s = false := by
  rw [Bool.eq_false_iff]
  simpa [nodeShown] using h

theorem nodeShown_eq_true {s : State} (h : s.treeValid = true ∧ s.nSel.toNat < s.nNode.toNat) :
    nodeShown s = true := by
  simpa [nodeShown] using h

/-- Settles O22: the three registers by name, where NSEL selects no node and where it selects one. -/
theorem nodeRegistersShowTheSelectedNode : Obligations.NodeRegistersShowTheSelectedNode := by
  refine ⟨fun s v hb => wr32_register s 0x060 v .nSel hb (by decide) (by decide) rfl, rfl, fun s hb =>
    ⟨_, _, _, rd32_register s 0x064 .nodeInfo hb (by decide) (by decide) rfl,
      rd32_register s 0x068 .nodeFreqLo hb (by decide) (by decide) rfl,
      rd32_register s 0x06C .nodeFreqHi hb (by decide) (by decide) rfl, fun h => ?hidden, fun h n hn => ?shown⟩⟩
  case hidden => simp only [regValue, nodeShown_eq_false h, Bool.false_eq_true, if_false, and_self]
  case shown =>
    have hnode : selectedNode s = n := nodeAt_of_getElem? _ _ _ hn
    obtain ⟨hvalid, hleaf, hzero, hsym, hright, hleft⟩ := nodeInfoWord_fields n
    simp only [regValue, nodeShown_eq_true h, if_true, hnode, and_true]
    exact ⟨hvalid, hleaf, hzero, hsym, hright, hleft, BitVec.setWidth_eq_extractLsb' (by decide)⟩

/-! ### Read-only registers and reserved offsets -/

/-- The registers of the map whose writes have no effect (10_state.md rule R21). -/
def readOnlyRegs : List Reg :=
  [.id, .outLen, .errPos, .errAux, .nLeaf, .nNode, .root, .nodeInfo, .nodeFreqLo, .nodeFreqHi, .cfgInSize, .cfgOutSize,
    .cfgCntW, .reserved]

theorem writeReg_readOnly {r : Reg} (h : r ∈ readOnlyRegs) (v : Word) (s : State) : writeReg r v s = s := by
  simp only [readOnlyRegs, List.mem_cons, List.not_mem_nil, or_false] at h
  rcases h with rfl | rfl | rfl | rfl | rfl | rfl | rfl | rfl | rfl | rfl | rfl | rfl | rfl | rfl <;> rfl

/-- An offset whose writes have no effect is that of a read-only register or reserved. -/
theorem regAt_readOnly {off : Nat} (h : ¬ takesWrites off) : regAt off ∈ readOnlyRegs := by
  have hmap : ∀ e ∈ registerMap, ¬ takesWrites e.1 → e.2 ∈ readOnlyRegs := by
    simp only [takesWrites]
    decide
  by_cases hr : regAt off = .reserved
  · rw [hr]
    decide
  · exact hmap _ (regAt_mem off _ rfl hr) h

/-- Settles O18: writes by the kind of the register, reads by its name. -/
theorem readOnlyAndReservedOffsetsIgnoreWrites : Obligations.ReadOnlyAndReservedOffsetsIgnoreWrites := by
  refine ⟨fun s off v hb h h4 hw => ?write, fun s off h h4 hoff => ?reserved,
    fun s => rd32_always s 0x000 .id (by decide) (by decide) rfl rfl, fun s => ?ctrl,
    fun s => ⟨rd32_always s 0x070 .cfgInSize (by decide) (by decide) rfl rfl,
      rd32_always s 0x074 .cfgOutSize (by decide) (by decide) rfl rfl,
      rd32_always s 0x078 .cfgCntW (by decide) (by decide) rfl rfl⟩,
    fun s hb => ⟨rd32_register s 0x00C .cmd hb (by decide) (by decide) rfl,
      rd32_register s 0x010 .inLen hb (by decide) (by decide) rfl,
      rd32_register s 0x014 .outLen hb (by decide) (by decide) rfl,
      rd32_register s 0x018 .pad hb (by decide) (by decide) rfl,
      rd32_register s 0x01C .errPos hb (by decide) (by decide) rfl,
      rd32_register s 0x020 .errAux hb (by decide) (by decide) rfl,
      rd32_register s 0x024 .nLeaf hb (by decide) (by decide) rfl,
      rd32_register s 0x028 .nNode hb (by decide) (by decide) rfl,
      rd32_register s 0x02C .root hb (by decide) (by decide) rfl,
      rd32_register s 0x060 .nSel hb (by decide) (by decide) rfl⟩⟩
  case write => rw [wr32_page_idle s off v h h4 hb, writeReg_readOnly (regAt_readOnly hw)]
  case reserved => exact rd32_always s off .reserved h h4 (regAt_reserved _ hoff) rfl
  case ctrl =>
    rw [← ctrlWord_eq]
    exact rd32_always s 0x004 .ctrl (by decide) (by decide) rfl rfl

/-! ### STATUS and the hardware reset -/

/-- STATUS reads its word in every state. -/
theorem rd32_status (s : State) : hostAccess (.rd32 0x008) s = .next { s with reply := some (statusWord s) } :=
  rd32_always s 0x008 .status (by decide) (by decide) rfl rfl

theorem writeStatus_eq (v : Word) (s : State) : writeStatus v s = { s with
    done := if v.getLsbD 1 then false else s.done, ovr := if v.getLsbD 2 then false else s.ovr } := by
  rw [writeStatus]
  cases v.getLsbD 1 <;> cases v.getLsbD 2 <;> simp

/-- STATUS reads 0 after a reset. -/
theorem statusWord_reset : statusWord State.reset = 0 := by decide

theorem statusWord_hardReset (s : State) : statusWord (hardReset s) = 0 := statusWord_reset

/-- Settles O19: the fields of the word that is read, the write, the code numbers, and the reset state. -/
theorem statusFieldsAndTheirClearing : Obligations.StatusFieldsAndTheirClearing := by
  refine ⟨fun s => ⟨_, rd32_status s, statusWord_fields s⟩, fun s v => ?_, by decide, rd32_status State.reset⟩
  rw [wr32_page_always s 0x008 v (.inr (.inl rfl)), ← writeStatus_eq]
  rfl

/-- Settles O24: the step is the hardware reset, whose fields are those of the reset state. -/
theorem hardResetClearsEverything : Obligations.HardResetClearsEverything := by
  intro s rest hi
  refine ⟨_, step_of_hardReset hi, rfl, rfl, rfl, rfl, rfl, rfl, rfl, rfl, rfl, rfl, rfl, rfl, rfl, rfl, rfl, rfl, rfl,
    rfl, rfl, fun b => ?_, rfl, ?_⟩
  · simp only [hardReset_freq, hardReset_cbLen, hardReset_cbCode, table_at_all, and_self]
  · rw [rd32_status, statusWord_hardReset]

end Sys2Proof.Machine
end

section
/-! IN_LEN and its checks (10_state.md rule R34), and the bits of a code above its length (10_state.md rule R46). -/

namespace Sys2Proof.Machine

/-! ### The checks of IN_LEN -/

/-- FREQ, PACK and UNPACK complete with the error that the check of IN_LEN finds (60_exceptions.md rule R181). -/
theorem exec_inputError {i : Instr} {s : State} {e : CmdError} (hi : i = .freq ∨ i = .pack ∨ i = .unpack)
    (he : inputError s = some e) :
    ∃ t, exec i s = .next t ∧ t.err = e.code ∧ t.errPos = e.pos ∧ t.errAux = e.aux := by
  rcases hi with rfl | rfl | rfl
  · rw [exec, execFreq, he]
    exact ⟨_, rfl, rfl, rfl, rfl⟩
  · have hp : packBits s = .error e := by rw [packBits, he]
    rw [exec, execPack, hp]
    exact ⟨_, rfl, rfl, rfl, rfl⟩
  · have hu : unpackBytes s = .error e := by rw [unpackBytes, he]
    rw [exec, execUnpack, hu]
    exact ⟨_, rfl, rfl, rfl, rfl⟩

/-- Settles O30: the register by name, the two errors of its check, and the frame of every command. -/
theorem inputLengthIsChecked : Obligations.InputLengthIsChecked := by
  refine ⟨rfl, fun s v hb => wr32_register s 0x010 v .inLen hb (by decide) (by decide) rfl,
    fun s hb => rd32_register s 0x010 .inLen hb (by decide) (by decide) rfl,
    fun i s hi h0 => exec_inputError hi (inputError_zero s h0),
    fun i s hi h1 => exec_inputError hi (inputError_large s h1), fun i s t h => ?_⟩
  obtain ⟨e, u, rfl, hu⟩ := exec_completes h
  exact hu.inLen

/-! ### PACK and UNPACK read a code up to its length -/

/-- Two codes of one length that agree below it are the same code. -/
theorem codeOf_eq_of_low_bits {s t : State} (hl : t.cbLen = s.cbLen)
    (hc : ∀ (b : Byte) (j : Nat), j < (s.cbLen.at b).toNat → (t.cbCode.at b).getLsbD j = (s.cbCode.at b).getLsbD j) :
    codeOf t = codeOf s := by
  funext b
  rw [codeOf, codeOf, hl]
  exact strOf_congr _ _ _ (hc b)

theorem codebookOf_eq_of_codes {s t : State} (hi : isCoded t = isCoded s) (hc : codeOf t = codeOf s) :
    codebookOf t = codebookOf s := by
  rw [codebookOf, codebookOf, codedSymbols, codedSymbols, hi, hc]

/-- PACK with another table of codes whose bits are the same does the same and leaves that table. -/
theorem execPack_with_cbCode {s t : State} {C : Table CodeBits} (hc : codeOf { s with cbCode := C } = codeOf s)
    (h : execPack s = .next t) : execPack { s with cbCode := C } = .next { t with cbCode := C } := by
  have hbits : packBits { s with cbCode := C } = packBits s :=
    packBits_congr s { s with cbCode := C } rfl rfl rfl rfl hc
  rw [execPack] at h ⊢
  rw [hbits]
  cases hp : packBits s <;> rw [hp] at h <;> cases h <;> rfl

/-- UNPACK with another table of codes whose bits are the same does the same and leaves that table. -/
theorem execUnpack_with_cbCode {s t : State} {C : Table CodeBits} (hc : codeOf { s with cbCode := C } = codeOf s)
    (h : execUnpack s = .next t) : execUnpack { s with cbCode := C } = .next { t with cbCode := C } := by
  have hbytes : unpackBytes { s with cbCode := C } = unpackBytes s :=
    unpackBytes_congr s { s with cbCode := C } rfl rfl rfl rfl (codebookOf_eq_of_codes rfl hc)
  rw [execUnpack] at h ⊢
  rw [hbytes]
  cases hu : unpackBytes s <;> rw [hu] at h <;> cases h <;> rfl

/-! ### GENCODE writes the bits above the length as 0 -/

/-- No code has a bit at or above its length. -/
def State.unusedBitsZero (s : State) : Prop :=
  ∀ (b : Byte) (j : Nat), (s.cbLen.at b).toNat ≤ j → (s.cbCode.at b).getLsbD j = false

theorem clearCodebook_unusedBitsZero (s : State) : (clearCodebook s).unusedBitsZero := by
  intro b j _
  rw [clearCodebook_cbCode, table_at_all]
  exact BitVec.getLsbD_zero

/-- A code is stored right-aligned with 0 above it (30_encoding.md rule R88). -/
theorem setCode_unusedBitsZero {s : State} (b : Byte) {c : BitString} (hc : c.length ≤ 255) (hs : s.unusedBitsZero) :
    (setCode b c s).unusedBitsZero := by
  intro x j hj
  rw [setCode_cbLen, table_at_put] at hj
  rw [setCode_cbCode, table_at_put]
  split at hj
  · next hx =>
    rw [BitVec.toNat_ofNat, Nat.mod_eq_of_lt (by omega)] at hj
    have hval : valOf c < 2 ^ j := (valOf_lt c).trans_le (Nat.pow_le_pow_right (by norm_num) hj)
    rw [if_pos hx, BitVec.getLsbD_ofNat, Nat.testBit_lt_two_pow hval, Bool.and_false]
  · next hx =>
    rw [if_neg hx]
    exact hs x j hj

theorem writeCodes_unusedBitsZero (codes : List (Byte × BitString)) :
    ∀ s : State, (∀ e ∈ codes, e.2.length ≤ 255) → s.unusedBitsZero → (writeCodes codes s).unusedBitsZero := by
  induction codes with
  | nil => exact fun s _ hs => hs
  | cons c cs ih =>
    intro s hlen hs
    exact ih _ (fun e he => hlen e (List.mem_cons_of_mem _ he))
      (setCode_unusedBitsZero c.1 (hlen c List.mem_cons_self) hs)

/-- The codes of a tree have at most 255 symbols, the degenerate tree's code among them (41_codebook.md rules R121,
R122). -/
theorem TreeShape.treeCodes_length {nodes : List Node} {n : Nat} (ht : TreeShape nodes n) :
    ∀ e ∈ treeCodes nodes (2 * n - 2), e.2.length ≤ 255 := by
  rintro ⟨b, c⟩ he
  obtain ⟨hpos, -⟩ := ht.leafCount
  by_cases h2 : 2 ≤ n
  · obtain ⟨j, hj, hf, -⟩ := (ht.mem_treeCodes h2 b c).1 he
    exact (ht.path_length h2 hj hf).2
  · obtain rfl : n = 1 := by omega
    rw [treeCodes, if_pos (ht.leavesFirst 0 (by omega)), List.mem_singleton] at he
    cases he
    exact Nat.le_add_right 1 254

/-- A GENCODE from a valid tree leaves no bit above a code's length. -/
theorem gencode_unusedBitsZero {s t : State} (hs : s.treeWf) (hv : s.treeValid = true)
    (h : exec .gencode s = .next t) : t.unusedBitsZero := by
  rcases execGencode_cases s with ⟨hf, -⟩ | ⟨-, he⟩
  · exact absurd (hf.symm.trans hv) Bool.false_ne_true
  · obtain ⟨hshape, -, hroot⟩ := hs.1 hv
    cases he.symm.trans h
    rw [hroot]
    exact writeCodes_unusedBitsZero _ _ hshape.treeCodes_length (clearCodebook_unusedBitsZero s)

/-- Settles O56: PACK and UNPACK see the codes alone, and what GENCODE writes has no other bits. -/
theorem unusedCodeBitsAreIgnored : Obligations.UnusedCodeBitsAreIgnored := by
  refine ⟨fun i s t C hi hbits h => ?_, fun s t b j hs hv h => gencode_unusedBitsZero hs hv h b j⟩
  have hc : codeOf { s with cbCode := C } = codeOf s := codeOf_eq_of_low_bits rfl hbits
  rcases hi with rfl | rfl
  · exact execPack_with_cbCode hc h
  · exact execUnpack_with_cbCode hc h

end Sys2Proof.Machine
end

section
/-! The canonical form of the two memories, which every move keeps (20_memory.md rule R61; 42_pack.md rule R143;
43_unpack.md rule R166). -/

namespace Sys2Proof.Machine

/-- Of all register writes only a soft reset touches a memory, and it leaves OUT_MEM or forgets every byte of it. -/
theorem writeReg_memoriesWf {s : State} (r : Reg) (v : Word) (hs : s.memoriesWf) : (writeReg r v s).memoriesWf := by
  cases r with
  | ctrl =>
    rw [writeReg, writeCtrl]
    cases v.getLsbD 1
    · exact hs
    · refine ⟨hs.1, ?_⟩
      simp only [softReset_outMem, softReset_params, if_true]
      split
      · exact scramble_wf _ _
      · exact hs.2
  | cmd =>
    rw [writeReg, writeCmd]
    cases s.busy <;> exact hs
  | _ => exact hs

/-- A host write goes to a byte or to an aligned word inside the memory of its window. -/
theorem hostAccess_memoriesWf {a : HostAccess} {s t : State} (hs : s.memoriesWf) (h : hostAccess a s = .next t) :
    t.memoriesWf := by
  obtain ⟨hin, hout⟩ := hs
  rcases hostAccess_next a s t h with ⟨-, v, rfl⟩ | ⟨-, -, b, v, hb, rfl⟩ | ⟨-, -, b, v, hb, rfl⟩ |
    ⟨-, -, b, v, hb, rfl⟩ | ⟨-, -, b, v, hb, rfl⟩ | ⟨off, v, -, -, rfl, -⟩
  · exact ⟨hin, hout⟩
  · exact ⟨write_keeps_wf _ _ _ _ hin hb, hout⟩
  · exact ⟨writeWord_keeps_wf _ _ _ _ hin hb, hout⟩
  · exact ⟨hin, write_keeps_wf _ _ _ _ hout hb⟩
  · exact ⟨hin, writeWord_keeps_wf _ _ _ _ hout hb⟩
  · exact writeReg_memoriesWf _ _ ⟨hin, hout⟩

/-- A command other than PACK and UNPACK leaves both memories (30_encoding.md rule R87). -/
theorem exec_memories {i : Instr} {s t : State} (hp : i ≠ .pack) (hu : i ≠ .unpack) (h : exec i s = .next t) :
    t.inMem = s.inMem ∧ t.outMem = s.outMem := by
  cases i with
  | freq => rcases execFreq_cases s with ⟨e, -, he⟩ | ⟨-, he⟩ <;> cases he.symm.trans h <;> exact ⟨rfl, rfl⟩
  | build => rcases execBuild_cases s with ⟨-, he⟩ | ⟨-, he⟩ <;> cases he.symm.trans h <;> exact ⟨rfl, rfl⟩
  | gencode =>
    rcases execGencode_cases s with ⟨-, he⟩ | ⟨-, he⟩ <;> cases he.symm.trans h
    · exact ⟨rfl, rfl⟩
    · rw [generated_fields]
      exact ⟨rfl, rfl⟩
  | pack => exact absurd rfl hp
  | unpack => exact absurd rfl hu
  | fclr => cases h; exact ⟨rfl, rfl⟩
  | cbclr => cases h; exact ⟨rfl, rfl⟩

/-- PACK writes no byte at OUT_SIZE or above, and forgets them all after an error (42_pack.md rules R143, R146). -/
theorem execPack_memoriesWf {s t : State} (hs : s.memoriesWf) (h : exec .pack s = .next t) : t.memoriesWf := by
  rcases execPack_cases s with ⟨e, -, he⟩ | ⟨bits, hbits, he⟩ <;> cases he.symm.trans h
  · exact ⟨hs.1, scramble_wf _ _⟩
  · obtain ⟨-, -, -, -, hle⟩ := packBits_ok s bits hbits
    exact ⟨hs.1, writeBytes_keeps_wf _ _ _ _ hs.2 (by rwa [length_bytesOf_padded, Nat.zero_add])⟩

/-- UNPACK writes no byte at OUT_SIZE or above, and forgets them all after an error (43_unpack.md rules R166, R169). -/
theorem execUnpack_memoriesWf {s t : State} (hs : s.memoriesWf) (h : exec .unpack s = .next t) : t.memoriesWf := by
  rcases execUnpack_cases s with ⟨e, -, he⟩ | ⟨bytes, hbytes, he⟩ <;> cases he.symm.trans h
  · exact ⟨hs.1, scramble_wf _ _⟩
  · have hle := unpackBytes_length s bytes hbytes
    exact ⟨hs.1, writeBytes_keeps_wf _ _ _ _ hs.2 (by rwa [Nat.zero_add])⟩

theorem exec_memoriesWf {i : Instr} {s t : State} (hs : s.memoriesWf) (h : exec i s = .next t) : t.memoriesWf := by
  by_cases hp : i = .pack
  · subst hp
    exact execPack_memoriesWf hs h
  · by_cases hu : i = .unpack
    · subst hu
      exact execUnpack_memoriesWf hs h
    · obtain ⟨hin, hout⟩ := exec_memories hp hu h
      rwa [State.memoriesWf, hin, hout, exec_params h]

theorem commandStep_memoriesWf {s t : State} (hs : s.memoriesWf) (h : commandStep s = .next t) : t.memoriesWf := by
  rcases commandStep_cases s with ⟨-, he⟩ | ⟨w, i, -, -, he⟩ | ⟨w, r, -, -, he⟩
  · cases he.symm.trans h
    exact hs
  · exact exec_memoriesWf hs (he.symm.trans h)
  · cases he.symm.trans h
    exact hs

theorem step_memoriesWf {s t : State} (hs : s.memoriesWf) (h : step s = .next t) : t.memoriesWf := by
  have hturn : (takeTurn s).memoriesWf := hs
  rcases step_cases h with ⟨-, -, rfl⟩ | ⟨-, -, hc⟩ | ⟨a, -, ha⟩ | ⟨-, rfl⟩
  · exact hs
  · exact commandStep_memoriesWf hturn hc
  · exact hostAccess_memoriesWf hturn ha
  · exact ⟨unwritten_wf _, unwritten_wf _⟩

/-- No step changes the configuration (10_state.md rule R19). -/
theorem step_params {s t : State} (h : step s = .next t) : t.params = s.params :=
  step_keeps (P := fun u => u.params = s.params) h rfl (fun _ hs => hs) (fun _ _ _ _ hs => hs)
    (fun r v u hs => (writeReg_params r v u).trans hs) (fun _ _ _ hs he => (exec_params he).trans hs)
    (fun _ _ hs => hs) (fun _ hs => hs)

/-- Settles O27: no move changes the parameters, and each kind of move keeps the memories canonical. -/
theorem stepKeepsTheMemoriesCanonical : Obligations.StepKeepsTheMemoriesCanonical :=
  fun _ _ _ hs h => ⟨step_params h, step_memoriesWf hs h⟩

end Sys2Proof.Machine
end

section
/-! The accesses that the bus allows and what they answer (20_memory.md rules R62 to R66, R68), and the little-endian lanes
of the two windows (20_memory.md rules R64, R67). -/

namespace Sys2Proof.Machine

/-! ### The accesses that the bus allows -/

/-- Where an 8-bit access may go (20_memory.md rule R66). -/
def Region.takesByte : Region → Prop
  | .page _ => False
  | .input _ => True
  | .output _ => True
  | .unmapped => False

/-- Where a 32-bit access may go (20_memory.md rules R64, R66). -/
def Region.takesWord (p : Params) : Region → Prop
  | .page o => o % 4 = 0
  | .input a => wordFits a p.inSize = true
  | .output a => wordFits a p.outSize = true
  | .unmapped => False

/-- The bytes of the two windows are those that `busAllows` lets an 8-bit access reach. -/
theorem busAllows_rd8_iff (p : Params) (off : Word) : busAllows p (.rd8 off) ↔ (regionOf p off).takesByte := by
  unfold busAllows inWindow
  rcases regionOf_cases p off with ⟨hr, hl⟩ | ⟨a, hr, ha, hl⟩ | ⟨a, hr, ha, hl⟩ | ⟨hr, hl, hin, hout⟩ <;>
    simp only [hr, Region.takesByte, iff_true, iff_false, inBase, outBase] at * <;> omega

theorem busAllows_wr8_iff (p : Params) (off : Word) (v : Byte) :
    busAllows p (.wr8 off v) ↔ (regionOf p off).takesByte := busAllows_rd8_iff p off

/-- The words of the page and of the two windows are those that `busAllows` lets a 32-bit access reach. The windows do not
overlap, since IN_SIZE is at most 2^24 (20_memory.md rule R60). -/
theorem busAllows_rd32_iff {p : Params} (hp : p.wf = true) (off : Word) :
    busAllows p (.rd32 off) ↔ (regionOf p off).takesWord p := by
  obtain ⟨-, hsize, -⟩ := (params_wf_iff p).1 hp
  unfold busAllows inWindow
  rcases regionOf_cases p off with ⟨hr, hl⟩ | ⟨a, hr, ha, hl⟩ | ⟨a, hr, ha, hl⟩ | ⟨hr, hl, hin, hout⟩ <;>
    simp only [hr, Region.takesWord, wordFits_iff, iff_false, inBase, outBase] at * <;> omega

theorem busAllows_wr32_iff {p : Params} (hp : p.wf = true) (off v : Word) :
    busAllows p (.wr32 off v) ↔ (regionOf p off).takesWord p := busAllows_rd32_iff hp off

/-- An allowed read returns a value and changes nothing else, in every state. -/
theorem hostRead8_allowed {off : Word} {s : State} (h : (regionOf s.params off).takesByte) :
    ∃ v, hostRead8 off s = .next { s with reply := some v } := by
  rw [hostRead8]
  cases hr : regionOf s.params off <;> rw [hr] at h
  · exact h.elim
  · exact ⟨_, rfl⟩
  · exact ⟨_, rfl⟩
  · exact h.elim

theorem hostRead32_allowed {off : Word} {s : State} (h : (regionOf s.params off).takesWord s.params) :
    ∃ v, hostRead32 off s = .next { s with reply := some v } := by
  rw [hostRead32]
  cases hr : regionOf s.params off <;> rw [hr] at h
  · exact ⟨_, if_pos h⟩
  · exact ⟨_, if_pos h⟩
  · exact ⟨_, if_pos h⟩
  · exact h.elim

/-- An allowed write gets no bus error: it is made, or it is refused while a command runs. -/
theorem hostWrite8_allowed {off : Word} {v : Byte} {s : State} (h : (regionOf s.params off).takesByte) (e : Fault) :
    hostWrite8 off v s ≠ .fault e := by
  rw [hostWrite8]
  cases hr : regionOf s.params off <;> rw [hr] at h
  · exact h.elim
  · exact whenIdle_fault _ _ _ _
  · exact whenIdle_fault _ _ _ _
  · exact h.elim

theorem hostWrite32_allowed {off v : Word} {s : State} (h : (regionOf s.params off).takesWord s.params) (e : Fault) :
    hostWrite32 off v s ≠ .fault e := by
  rw [hostWrite32]
  cases hr : regionOf s.params off <;> rw [hr] at h
  · simp only [if_pos (show _ % 4 = 0 from h)]
    split
    · exact fun he => by cases he
    · exact whenIdle_fault _ _ _ _
  · simp only [if_pos (show wordFits _ _ = true from h)]
    exact whenIdle_fault _ _ _ _
  · simp only [if_pos (show wordFits _ _ = true from h)]
    exact whenIdle_fault _ _ _ _
  · exact h.elim

/-- An 8-bit access anywhere else gets a bus error. -/
theorem byteAccess_refused {off : Word} {s : State} (h : ¬ (regionOf s.params off).takesByte) :
    hostRead8 off s = .fault (.busError off 8) ∧ ∀ v, hostWrite8 off v s = .fault (.busError off 8) := by
  simp only [hostRead8, hostWrite8]
  cases hr : regionOf s.params off <;> rw [hr] at h
  · exact ⟨rfl, fun _ => rfl⟩
  · exact absurd trivial h
  · exact absurd trivial h
  · exact ⟨rfl, fun _ => rfl⟩

/-- A 32-bit access anywhere else, or one that is misaligned or ends outside its memory, gets a bus error. -/
theorem wordAccess_refused {off : Word} {s : State} (h : ¬ (regionOf s.params off).takesWord s.params) :
    hostRead32 off s = .fault (.busError off 32) ∧ ∀ v, hostWrite32 off v s = .fault (.busError off 32) := by
  simp only [hostRead32, hostWrite32]
  cases hr : regionOf s.params off <;> rw [hr] at h
  · exact ⟨if_neg h, fun _ => if_neg h⟩
  · exact ⟨if_neg h, fun _ => if_neg h⟩
  · exact ⟨if_neg h, fun _ => if_neg h⟩
  · exact ⟨rfl, fun _ => rfl⟩

/-- Settles O15: an allowed access that is no write is a read that answers with a value. -/
theorem readsChangeNothing : Obligations.ReadsChangeNothing := by
  intro s a hp ha hw
  cases a with
  | rd8 off => exact hostRead8_allowed ((busAllows_rd8_iff s.params off).1 ha)
  | rd32 off => exact hostRead32_allowed ((busAllows_rd32_iff hp off).1 ha)
  | wr8 off v => cases hw
  | wr32 off v => cases hw
  | otherWidth off bits => exact ha.elim

/-- An access that answers with a state gets no bus error. -/
theorem ne_fault_of_next {o : Host.Outcome State Fault Refusal} {t : State} (h : o = .next t) (e : Fault) :
    o ≠ .fault e := by
  rw [h]
  exact fun he => by cases he

/-- Settles O13: each access by its width, refused or allowed by the region of its offset. -/
theorem busErrorsExactlyOnRefusedAccesses : Obligations.BusErrorsExactlyOnRefusedAccesses := by
  intro s a hp
  cases a with
  | rd8 off =>
    rw [busAllows_rd8_iff]
    exact ⟨fun h => (byteAccess_refused h).1, fun h => ne_fault_of_next (hostRead8_allowed h).choose_spec⟩
  | rd32 off =>
    rw [busAllows_rd32_iff hp]
    exact ⟨fun h => (wordAccess_refused h).1, fun h => ne_fault_of_next (hostRead32_allowed h).choose_spec⟩
  | wr8 off v =>
    rw [busAllows_wr8_iff]
    exact ⟨fun h => (byteAccess_refused h).2 v, hostWrite8_allowed⟩
  | wr32 off v =>
    rw [busAllows_wr32_iff hp]
    exact ⟨fun h => (wordAccess_refused h).2 v, hostWrite32_allowed⟩
  | otherWidth off bits => exact ⟨fun _ => rfl, fun h => h.elim⟩

/-! ### The lanes of the windows -/

/-- The offset of a byte of the IN_MEM window (20_memory.md rule R60). -/
theorem toNat_inOffset {a : Nat} (h : a < 2 ^ 24) : (BitVec.ofNat 32 (0x01000000 + a)).toNat = inBase + a := by
  rw [BitVec.toNat_ofNat, inBase]
  omega

/-- The offset of a byte of the OUT_MEM window (20_memory.md rule R60). -/
theorem toNat_outOffset {a : Nat} (h : a < 2 ^ 24) : (BitVec.ofNat 32 (0x02000000 + a)).toNat = outBase + a := by
  rw [BitVec.toNat_ofNat, outBase]
  omega

/-! A read of a window once its memory is `m`, by the value that `m` holds there. -/

theorem rd8_inMem {s : State} {off : Word} {a : Nat} {m : Memory} {x : Byte} (ha : off.toNat = inBase + a)
    (h : a < s.params.inSize) (hx : m.byteAt s.draws a = x) :
    hostAccess (.rd8 off) { s with inMem := m } = .next { s with inMem := m, reply := some (x.setWidth 32) } := by
  subst hx
  exact rd8_input { s with inMem := m } off a ha h

theorem rd32_inMem {s : State} {off v : Word} {a : Nat} {m : Memory} (ha : off.toNat = inBase + a) (h4 : a % 4 = 0)
    (h : a + 3 < s.params.inSize) (hv : m.wordAt s.draws a = v) :
    hostAccess (.rd32 off) { s with inMem := m } = .next { s with inMem := m, reply := some v } := by
  subst hv
  exact rd32_input { s with inMem := m } off a ha h4 h

theorem rd8_outMem {s : State} {off : Word} {a : Nat} {m : Memory} {x : Byte} (ha : off.toNat = outBase + a)
    (hp : s.params.inSize ≤ 2 ^ 24) (h : a < s.params.outSize) (hb : s.busy = false) (hx : m.byteAt s.draws a = x) :
    hostAccess (.rd8 off) { s with outMem := m } = .next { s with outMem := m, reply := some (x.setWidth 32) } := by
  subst hx
  exact rd8_output { s with outMem := m } off a ha hp h hb

theorem rd32_outMem {s : State} {off v : Word} {a : Nat} {m : Memory} (ha : off.toNat = outBase + a)
    (hp : s.params.inSize ≤ 2 ^ 24) (h4 : a % 4 = 0) (h : a + 3 < s.params.outSize) (hb : s.busy = false)
    (hv : m.wordAt s.draws a = v) :
    hostAccess (.rd32 off) { s with outMem := m } = .next { s with outMem := m, reply := some v } := by
  subst hv
  exact rd32_output { s with outMem := m } off a ha hp h4 h hb

/-- A byte that is written into a word is read in its lane. -/
theorem extract_wordAt_write (m : Memory) (n a i : Nat) (x : Byte) (h : i < 4) :
    ((m.write (a + i) x).wordAt n a).extractLsb' (8 * i) 8 = x := by
  rw [extract_wordAt _ _ _ _ h, byteAt_write_same]

/-- Settles O16: for each window a write of a word, a write of a byte of a word, and a write of any byte. -/
theorem mixedWidthAccessesUseLittleEndianLanes : Obligations.MixedWidthAccessesUseLittleEndianLanes := by
  refine ⟨fun s a v hp hb h4 ha => ?inWord, fun s a v hp hb h4 ha => ?outWord, fun s a i x hp hb h4 hi ha => ?inLane,
    fun s a i x hp hb h4 hi ha => ?outLane, fun s a x hp hb ha => ?inByte, fun s a x hp hb ha => ?outByte⟩ <;>
    obtain ⟨-, hin, -, hout, -⟩ := (params_wf_iff s.params).1 hp
  case inWord =>
    have hoff := toNat_inOffset (a := a) (by omega)
    refine ⟨_, wr32_input s _ v a hoff h4 ha hb, fun i hi => ?_, rd32_inMem hoff h4 ha (wordAt_writeWord _ _ _ _),
      fun b n hne => byteAt_writeWord_outside _ _ _ _ _ hne⟩
    rw [Nat.add_assoc]
    exact rd8_inMem (toNat_inOffset (by omega)) (by omega) (byteAt_writeWord_inside _ _ _ _ _ hi)
  case outWord =>
    have hoff := toNat_outOffset (a := a) (by omega)
    refine ⟨_, wr32_output s _ v a hoff hin h4 ha hb, fun i hi => ?_,
      rd32_outMem hoff hin h4 ha hb (wordAt_writeWord _ _ _ _), fun b n hne => byteAt_writeWord_outside _ _ _ _ _ hne⟩
    rw [Nat.add_assoc]
    exact rd8_outMem (toNat_outOffset (by omega)) hin (by omega) hb (byteAt_writeWord_inside _ _ _ _ _ hi)
  case inLane =>
    rw [Nat.add_assoc]
    exact ⟨_, wr8_input s _ x (a + i) (toNat_inOffset (by omega)) (by omega) hb,
      ⟨_, rd32_inMem (toNat_inOffset (by omega)) h4 ha rfl, extract_wordAt_write _ _ _ _ _ hi⟩,
      fun b n hne => byteAt_write_other _ _ _ _ _ hne⟩
  case outLane =>
    rw [Nat.add_assoc]
    exact ⟨_, wr8_output s _ x (a + i) (toNat_outOffset (by omega)) hin (by omega) hb,
      ⟨_, rd32_outMem (toNat_outOffset (by omega)) hin h4 ha hb rfl, extract_wordAt_write _ _ _ _ _ hi⟩,
      fun b n hne => byteAt_write_other _ _ _ _ _ hne⟩
  case inByte =>
    have hoff := toNat_inOffset (a := a) (by omega)
    exact ⟨_, wr8_input s _ x a hoff ha hb, rd8_inMem hoff ha (byteAt_write_same _ _ _ _),
      fun b n hne => byteAt_write_other _ _ _ _ _ hne⟩
  case outByte =>
    have hoff := toNat_outOffset (a := a) (by omega)
    exact ⟨_, wr8_output s _ x a hoff hin ha hb, rd8_outMem hoff hin ha hb (byteAt_write_same _ _ _ _),
      fun b n hne => byteAt_write_other _ _ _ _ _ hne⟩

end Sys2Proof.Machine
end

section
/-! No command reads OUT_MEM (20_memory.md rule R61; 60_exceptions.md rule R184). -/

namespace Sys2Proof.Machine

/-- Writing codes reads no memory. -/
theorem writeCodes_with_outMem (codes : List (Byte × BitString)) (m : Memory) :
    ∀ s : State, writeCodes codes { s with outMem := m } = { writeCodes codes s with outMem := m } := by
  induction codes with
  | nil => exact fun _ => rfl
  | cons c cs ih => exact fun s => ih (setCode c.1 c.2 s)

/-- A command other than PACK and UNPACK does the same with another OUT_MEM and leaves it. -/
theorem exec_with_outMem {i : Instr} {s t : State} (m : Memory) (hp : i ≠ .pack) (hu : i ≠ .unpack)
    (h : exec i s = .next t) : exec i { s with outMem := m } = .next { t with outMem := m } := by
  have hinput : inputError { s with outMem := m } = inputError s := rfl
  cases i with
  | freq =>
    rw [exec, execFreq] at h ⊢
    rw [hinput]
    cases he : inputError s <;> rw [he] at h <;> cases h <;> rfl
  | build =>
    rw [exec, execBuild] at h ⊢
    split at h
    · next hleaf => cases h; exact if_pos hleaf
    · next hleaf => cases h; exact if_neg hleaf
  | gencode =>
    have hcodes : writeCodes (treeCodes s.nodes s.root.toNat) (clearCodebook { s with outMem := m }) =
        { writeCodes (treeCodes s.nodes s.root.toNat) (clearCodebook s) with outMem := m } :=
      writeCodes_with_outMem _ m (clearCodebook s)
    rw [exec, execGencode] at h ⊢
    rw [hcodes]
    split at h
    · next hv => cases h; exact if_pos hv
    · next hv => cases h; exact if_neg hv
  | pack => exact absurd rfl hp
  | unpack => exact absurd rfl hu
  | fclr => cases h; rfl
  | cbclr => cases h; rfl

/-- Below OUT_LEN two memories read alike after the output has been written into both. -/
theorem byteAt_output_agree (m m' : Memory) {bytes : List Byte} {a d : Nat}
    (h : a < (BitVec.ofNat 32 bytes.length).toNat) :
    (m'.writeBytes 0 bytes).byteAt d a = (m.writeBytes 0 bytes).byteAt d a :=
  byteAt_writeBytes_agree bytes m' m a d (h.trans_le (BitVec.toNat_ofNat _ _ ▸ Nat.mod_le _ _))

/-- What a PACK or an UNPACK of `s` and one of the same state with another OUT_MEM have in common: the results differ in
OUT_MEM alone, and there not below OUT_LEN. -/
def sameOutput (i : Instr) (s t : State) (m : Memory) : Prop :=
  ∃ m', exec i { s with outMem := m } = .next { t with outMem := m' } ∧
    ∀ a d, a < t.outLen.toNat → m'.byteAt d a = t.outMem.byteAt d a

theorem execPack_sameOutput {s t : State} (m : Memory) (h : exec .pack s = .next t) : sameOutput .pack s t m := by
  have hbits : packBits { s with outMem := m } = packBits s := packBits_congr s _ rfl rfl rfl rfl rfl
  rcases execPack_cases s with ⟨e, hs, he⟩ | ⟨bits, hs, he⟩ <;> cases he.symm.trans h <;>
    rcases execPack_cases { s with outMem := m } with ⟨e', hm, he'⟩ | ⟨bits', hm, he'⟩ <;>
    cases hm.symm.trans (hbits.trans hs)
  · exact ⟨_, he', fun _ _ _ => rfl⟩
  · refine ⟨_, he', fun a d ha => byteAt_output_agree _ _ ?_⟩
    rwa [length_bytesOf_padded]

theorem execUnpack_sameOutput {s t : State} (m : Memory) (h : exec .unpack s = .next t) : sameOutput .unpack s t m := by
  have hbytes : unpackBytes { s with outMem := m } = unpackBytes s := unpackBytes_congr s _ rfl rfl rfl rfl rfl
  rcases execUnpack_cases s with ⟨e, hs, he⟩ | ⟨bytes, hs, he⟩ <;> cases he.symm.trans h <;>
    rcases execUnpack_cases { s with outMem := m } with ⟨e', hm, he'⟩ | ⟨bytes', hm, he'⟩ <;>
    cases hm.symm.trans (hbytes.trans hs)
  · exact ⟨_, he', fun _ _ _ => rfl⟩
  · exact ⟨_, he', fun _ _ ha => byteAt_output_agree _ _ ha⟩

/-- Settles O57: PACK and UNPACK write the same output into both memories, and the other commands leave each as it was. -/
theorem commandsDoNotReadOutMem : Obligations.CommandsDoNotReadOutMem := by
  intro i s t m h
  by_cases hi : i = .pack ∨ i = .unpack
  · obtain ⟨m', hm, hagree⟩ : sameOutput i s t m := by
      rcases hi with rfl | rfl
      · exact execPack_sameOutput m h
      · exact execUnpack_sameOutput m h
    exact ⟨m', hm, fun hp hu => (hi.elim hp hu).elim, fun _ _ => hagree⟩
  · obtain ⟨hp, hu⟩ := not_or.1 hi
    exact ⟨m, exec_with_outMem m hp hu h, fun _ _ => ⟨(exec_memories hp hu h).2, rfl⟩, fun h' => absurd h' hi⟩

end Sys2Proof.Machine
end

section
/-! The opcode map as equations and as ranges of words, and the CMD write (30_encoding.md rules R80 to R85). -/

namespace Sys2Proof.Machine

/-! ### Words that decode and words that do not -/

/-- A word decodes to a command exactly when it is the command's word. -/
theorem decodeInstr_eq_some_iff (w : Word) (i : Instr) : decodeInstr w = some i ↔ w = encode i := by
  rw [decodeInstr_iff, decode_iff, eq_comm]

theorem commandWordWf_iff_decode (w : Word) : commandWordWf w = true ↔ ∃ i, decode w = .command i := by
  simp only [commandWordWf_iff, decode_iff]

/-- The decoder rejects exactly the words that are not well formed. -/
theorem decodeInstr_eq_none_iff (w : Word) : decodeInstr w = none ↔ ¬ commandWordWf w = true := by
  simp only [commandWordWf_iff_decode, not_exists, ← decodeInstr_iff, Option.eq_none_iff_forall_ne_some]

/-- The words of the commands are the numbers 1 to 7. -/
theorem commandWordWf_iff_toNat (w : Word) : commandWordWf w = true ↔ 1 ≤ w.toNat ∧ w.toNat ≤ 7 := by
  rw [commandWordWf_iff]
  constructor
  · rintro ⟨i, rfl⟩
    cases i <;> decide
  · rintro ⟨hpos, hle⟩
    have hword : ∀ n < 8, 1 ≤ n → ∃ i, encode i = BitVec.ofNat 32 n := by
      intro n hn h1
      interval_cases n
      exacts [⟨.freq, rfl⟩, ⟨.build, rfl⟩, ⟨.gencode, rfl⟩, ⟨.pack, rfl⟩, ⟨.unpack, rfl⟩, ⟨.fclr, rfl⟩, ⟨.cbclr, rfl⟩]
    simpa using hword w.toNat (by omega) hpos

/-- A set bit of RSV, or an OP of 0 or of 8 and above, makes a word illegal (30_encoding.md rule R85). -/
theorem decodeInstr_of_illegal_field {w : Word}
    (h : w.extractLsb' 4 28 ≠ 0 ∨ w.extractLsb' 0 4 = 0 ∨ 8 ≤ (w.extractLsb' 0 4).toNat) : decodeInstr w = none := by
  rw [decodeInstr_eq_none_iff, commandWordWf]
  simp only [Bool.and_eq_true, decide_eq_true_eq]
  rintro ⟨⟨hrsv, hpos⟩, hle⟩
  rcases h with h | h | h
  · exact h hrsv
  · rw [h] at hpos
    exact absurd hpos (by decide)
  · omega

/-- Settles O2: `decode_iff` both ways, the well-formed words, and the table's words as words of 32 bits. -/
theorem decodeAndEncodeAgree : Obligations.DecodeAndEncodeAgree := by
  refine ⟨fun i => (decode_iff _ i).2 rfl, fun w i h => (decode_iff w i).1 h, commandWordWf_iff_decode,
    fun nbits w i h => ?tableWord⟩
  case tableWord =>
    have hw : tableWord nbits w = encode i := (decodeInstr_eq_some_iff _ i).1 h
    rw [← hw, tableWord, BitVec.toNat_ofNat]

/-- Settles O1: each command by its word, and no command outside the words 1 to 7. -/
theorem decodeFollowsOpcodeMap : Obligations.DecodeFollowsOpcodeMap := by
  intro w
  refine ⟨decodeInstr_eq_some_iff w .freq, decodeInstr_eq_some_iff w .build, decodeInstr_eq_some_iff w .gencode,
    decodeInstr_eq_some_iff w .pack, decodeInstr_eq_some_iff w .unpack, decodeInstr_eq_some_iff w .fclr,
    decodeInstr_eq_some_iff w .cbclr, ?none⟩
  case none =>
    have hzero : w = 0 ↔ w.toNat = 0 := BitVec.toNat_eq
    rw [decodeInstr_eq_none_iff, commandWordWf_iff_toNat, hzero]
    omega

/-! ### The pending word and the CMD write -/

/-- The command step runs the command whose word is pending. -/
theorem commandStep_of_encode {s : State} {w : Word} (i : Instr) (hp : s.pending = some w) (hw : w = encode i) :
    commandStep s = exec i s :=
  commandStep_of_command hp ((decode_iff w i).2 hw.symm)

/-- Settles O3: the seven words by `commandStep_of_encode`, the others by the field that makes them illegal. -/
theorem commandStepDecodesThePendingWord : Obligations.CommandStepDecodesThePendingWord := fun _ _ hp =>
  ⟨commandStep_of_encode .freq hp, commandStep_of_encode .build hp, commandStep_of_encode .gencode hp,
    commandStep_of_encode .pack hp, commandStep_of_encode .unpack hp, commandStep_of_encode .fclr hp,
    commandStep_of_encode .cbclr hp,
    fun h => commandStep_of_illegal hp (decodeInstr_of_illegal_field h)⟩

/-- CMD takes a write at any time. -/
theorem wr32_cmd (w : Word) (s : State) : hostAccess (.wr32 0x00C w) s = .next (writeCmd w s) :=
  wr32_page_always s 0x00C w (.inr (.inr rfl))

theorem writeCmd_of_idle {s : State} (w : Word) (h : s.busy = false) : writeCmd w s = accept w s := by
  simp [writeCmd, h]

theorem writeCmd_of_busy {s : State} (w : Word) (h : s.busy = true) : writeCmd w s = { s with ovr := true } := by
  simp [writeCmd, h]

/-- Settles O5: the two branches of the CMD write. -/
theorem commandWriteIsAcceptedOrDropped : Obligations.CommandWriteIsAcceptedOrDropped := by
  refine ⟨fun s w hb => ?idle, fun s w hb => ?busy⟩
  case idle =>
    rw [wr32_cmd, writeCmd_of_idle w hb]
    rfl
  case busy => rw [wr32_cmd, writeCmd_of_busy w hb]

end Sys2Proof.Machine
end

section
/-! What each command writes (30_encoding.md rule R87), and the wait for its completion (30_encoding.md rule R89). -/

namespace Sys2Proof.Machine

/-! ### The frame of a command -/

/-- `CommandFrame` holds of the state after the command too: a completion writes none of its fields. -/
theorem exec_commandFrame {i : Instr} {s t : State} (h : exec i s = .next t) : CommandFrame i s t := by
  obtain ⟨e, u, rfl, hu⟩ := exec_completes h
  exact ⟨hu.inLen, hu.ovr, hu.params, hu.treePart, hu.freq, hu.outLen⟩

/-- What no command and no completion writes, beside the fields of `CommandFrame`: the model's own fields, IN_MEM, the
selectors, CTRL.IE and LASTOP. -/
def State.sparedPart (s : State) :
    List Input × Nat × Option Word × Memory × Byte × Byte × NodeIndex × Bool × BitVec 4 :=
  (s.inputs, s.draws, s.reply, s.inMem, s.fSel, s.cbSel, s.nSel, s.ie, s.lastOp)

/-- The operands of 30_encoding.md rule R87 that `CommandFrame` does not speak of: every command leaves what none writes,
and only its own commands change the codebook and PAD. -/
structure OperandFrame (i : Instr) (s u : State) : Prop where
  spared   : u.sparedPart = s.sparedPart
  codebook : i ≠ .gencode → i ≠ .cbclr → u.cbLen = s.cbLen ∧ u.cbCode = s.cbCode
  pad      : i ≠ .pack → u.pad = s.pad

/-- ERRPOS and ERRAUX are 0 without an error (10_state.md rules R37, R38). -/
def CmdError.blankIfNone (e : CmdError) : Prop := e.code = .noError → e.pos = 0 ∧ e.aux = 0

theorem blankIfNone_of_mem {e : CmdError} {codes : List ErrorCode} (h : e.code ∈ codes) (hn : .noError ∉ codes) :
    e.blankIfNone := fun h0 => absurd (h0 ▸ h) hn

theorem blankIfNone_zero (c : ErrorCode) : CmdError.blankIfNone { code := c, pos := 0, aux := 0 } := fun _ => ⟨rfl, rfl⟩

/-- Every command completes a state that has its operand frame, from every state and with every outcome. -/
theorem exec_total (i : Instr) (s : State) :
    ∃ e u, exec i s = .next (complete e u) ∧ e.blankIfNone ∧ OperandFrame i s u := by
  cases i with
  | freq =>
    rcases execFreq_cases s with ⟨e, hin, he⟩ | ⟨-, he⟩
    · have hcode : e.code ∈ [.emptyInput, .badParameter] := by simpa using inputError_code s e hin
      exact ⟨_, _, he, blankIfNone_of_mem hcode (by decide), rfl, fun _ _ => ⟨rfl, rfl⟩, fun _ => rfl⟩
    · exact ⟨_, _, he, blankIfNone_zero _, rfl, fun _ _ => ⟨rfl, rfl⟩, fun _ => rfl⟩
  | build =>
    rcases execBuild_cases s with ⟨-, he⟩ | ⟨-, he⟩ <;>
      exact ⟨_, _, he, blankIfNone_zero _, rfl, fun _ _ => ⟨rfl, rfl⟩, fun _ => rfl⟩
  | gencode =>
    rcases execGencode_cases s with ⟨-, he⟩ | ⟨-, he⟩
    · exact ⟨_, _, he, blankIfNone_zero _, rfl, fun _ _ => ⟨rfl, rfl⟩, fun _ => rfl⟩
    · rw [generated_fields] at he
      exact ⟨_, _, he, blankIfNone_zero _, rfl, fun h _ => absurd rfl h, fun _ => rfl⟩
  | pack =>
    rcases execPack_cases s with ⟨e, hb, he⟩ | ⟨bits, -, he⟩
    · exact ⟨_, _, he, blankIfNone_of_mem (packBits_error s e hb) (by decide), rfl, fun _ _ => ⟨rfl, rfl⟩, fun _ => rfl⟩
    · exact ⟨_, _, he, blankIfNone_zero _, rfl, fun _ _ => ⟨rfl, rfl⟩, fun h => absurd rfl h⟩
  | unpack =>
    rcases execUnpack_cases s with ⟨e, hb, he⟩ | ⟨bytes, -, he⟩
    · exact ⟨_, _, he, blankIfNone_of_mem (unpackBytes_error s e hb) (by decide), rfl, fun _ _ => ⟨rfl, rfl⟩,
        fun _ => rfl⟩
    · exact ⟨_, _, he, blankIfNone_zero _, rfl, fun _ _ => ⟨rfl, rfl⟩, fun _ => rfl⟩
  | fclr => exact ⟨_, _, execFclr_eq s, blankIfNone_zero _, rfl, fun _ _ => ⟨rfl, rfl⟩, fun _ => rfl⟩
  | cbclr => exact ⟨_, _, execCbclr_eq s, blankIfNone_zero _, rfl, fun _ h => absurd rfl h, fun _ => rfl⟩

/-- Settles O6: the completion, then the two frames field by field. -/
theorem everyCommandCompletesAndWritesItsOperands : Obligations.EveryCommandCompletesAndWritesItsOperands := by
  intro i s
  obtain ⟨e, u, he, hblank, ⟨hspared, hcodebook, hpad⟩⟩ := exec_total i s
  obtain ⟨hinLen, hovr, hparams, htree, hfreq, houtLen⟩ := exec_commandFrame he
  simp only [State.sparedPart, Prod.mk.injEq] at hspared
  obtain ⟨hinputs, hdraws, hreply, hinMem, hfSel, hcbSel, hnSel, hie, hlastOp⟩ := hspared
  refine ⟨_, he, rfl, rfl, ?irq, hblank, hinMem, hinLen, hfSel, hcbSel, hnSel, hie, hovr, hlastOp, hparams, hreply,
    hdraws, hinputs, hfreq, fun hi => ?tree, hcodebook, hpad,
    fun hp hu => ⟨(exec_memories hp hu he).2, houtLen hp hu⟩⟩
  case irq => simp [State.irq, hie]
  case tree =>
    have hparts := htree hi
    simp only [State.treePart, Prod.mk.injEq] at hparts
    obtain ⟨hvalid, hleaf, hnode, hroot, harena⟩ := hparts
    exact ⟨hvalid, harena, hleaf, hnode, hroot⟩

/-! ### The wait -/

/-- The Core's turn completes a running command, whatever its word, and leaves the moves to come. -/
theorem commandStep_of_busy {s : State} (hb : s.busy = true) :
    ∃ e u, commandStep s = .next (complete e u) ∧ u.inputs = s.inputs := by
  rcases commandStep_cases s with ⟨hp, -⟩ | ⟨w, i, -, -, he⟩ | ⟨w, r, -, -, he⟩
  · exact absurd (((idle_iff_no_pending s).2 hp).symm.trans hb) Bool.false_ne_true
  · obtain ⟨e, u, hexec, -, hu⟩ := exec_total i s
    exact ⟨e, u, he.trans hexec, congrArg Prod.fst hu.spared⟩
  · exact ⟨_, s, he, rfl⟩

/-- The state after a poll: the host has the STATUS of the state in which it polled. -/
def polled (s : State) : State := { takeTurn s with reply := some (statusWord s) }

theorem step_of_poll {s : State} {rest : List Input} (hi : s.inputs = .host pollAccess :: rest) :
    step s = .next (polled s) := by
  rw [step_of_host hi]
  exact rd32_status (takeTurn s)

theorem polled_inputs {s : State} {m : Input} {rest : List Input} (hi : s.inputs = m :: rest) :
    (polled s).inputs = rest := congrArg List.tail hi

/-- A wait whose first move is the Core's turn ends with the poll after it. -/
theorem wait_from_coreTurn {s : State} {rest : List Input} (hb : s.busy = true) (hi : s.inputs = waitMoves 0 ++ rest) :
    ∃ t r, Host.Core.run Sys2Proof.core 2 s = .next t ∧ t.reply = some r ∧
      r.getLsbD 0 = false ∧ r.getLsbD 1 = true ∧ t.busy = false ∧ t.inputs = rest ∧
      ((∀ m ∈ rest, isHostMove m = false) → runEndsWith 2 s t) := by
  have hcore : s.inputs = .coreTurn :: .host pollAccess :: rest := hi
  obtain ⟨e, u, hturn, hu⟩ := commandStep_of_busy (s := takeTurn s) hb
  rw [← step_of_coreTurn hcore] at hturn
  have hpoll : (complete e u).inputs = .host pollAccess :: rest := hu.trans (congrArg List.tail hcore)
  have hread := step_of_poll hpoll
  have hrest := polled_inputs hpoll
  obtain ⟨hbusy, hdone, -⟩ := statusWord_fields (complete e u)
  refine ⟨_, _, (run_succ 1 _ _ hturn).trans (run_succ 0 _ _ hread), rfl, hbusy, hdone, rfl, hrest, fun hquiet => ?_⟩
  have hend : (polled (complete e u)).runEnded := ⟨fun m hm => hquiet m (hrest ▸ hm), rfl⟩
  have hhost : ¬ (complete e u).runEnded := not_runEnded_of_host (hpoll ▸ List.mem_cons_self)
  exact runEndsWith_succ hturn (not_runEnded_of_busy hb) (runEndsWith_succ hread hhost (runEndsWith_zero hend))

/-- Settles O12, by induction on the number of polls before the Core's turn: each finds the command running. -/
theorem waitEndsAfterTheCoresTurn : Obligations.WaitEndsAfterTheCoresTurn := by
  intro k
  induction k with
  | zero => exact fun s rest hb hi => ⟨fun j hj => absurd hj (Nat.not_lt_zero j), wait_from_coreTurn hb hi⟩
  | succ k ih =>
    intro s rest hb hi
    have hpoll : s.inputs = .host pollAccess :: (waitMoves k ++ rest) := hi
    have hstep := step_of_poll hpoll
    obtain ⟨hpolls, t, r, hrun, hreply, hbusy, hdone, hidle, hinputs, hend⟩ :=
      ih (polled s) rest hb (polled_inputs hpoll)
    refine ⟨fun j hj => ?poll, t, r, (run_succ _ _ _ hstep).trans hrun, hreply, hbusy, hdone, hidle, hinputs,
      fun hquiet => runEndsWith_succ hstep (not_runEnded_of_busy hb) (hend hquiet)⟩
    case poll =>
      cases j with
      | zero => exact ⟨_, _, run_succ 0 _ _ hstep, rfl, (statusWord_fields s).1.trans hb⟩
      | succ j =>
        obtain ⟨u, r, hu, hread⟩ := hpolls j (by omega)
        exact ⟨u, r, (run_succ _ _ _ hstep).trans hu, hread⟩

end Sys2Proof.Machine
end

section
/-! The loading of a code by LDCB, ten register writes (30_encoding.md rules R88, R89). -/

namespace Sys2Proof.Machine

/-! ### A put after a put -/

theorem table_put_at {α : Type} (t : Table α) (b : Byte) : t.put b (t.at b) = t := by
  apply table_ext
  intro x
  rw [table_at_put]
  split
  · next h => rw [h]
  · rfl

theorem table_put_put {α : Type} (t : Table α) (b : Byte) (v w : α) : (t.put b v).put b w = t.put b w := by
  apply table_ext
  intro x
  simp only [table_at_put]
  split <;> rfl

/-! ### The words of a code -/

/-- The code that `x` becomes when the words of `c` with the indices `ks` are written into its windows. -/
def loadWords (c : BitString) (ks : List Nat) (x : CodeBits) : CodeBits :=
  ks.foldl (fun y k => putCodeWord y k (codeWord c k)) x

/-- Word `k` of a code holds its bits from 32k on. -/
theorem codeWord_bit (c : BitString) (k : Nat) {j : Nat} (hj : j < 32) :
    (codeWord c k).getLsbD j = (valOf c).testBit (32 * k + j) := by
  rw [codeWord, BitVec.getLsbD_ofNat, decide_eq_true hj, Bool.true_and, Nat.testBit_shiftRight]

/-- A bit comes from the code when its word is among those written. -/
theorem loadWords_bit (c : BitString) {j : Nat} (hj : j < 255) (ks : List Nat) :
    ∀ x : CodeBits, (loadWords c ks x).getLsbD j = if j / 32 ∈ ks then (valOf c).testBit j else x.getLsbD j := by
  induction ks with
  | nil => exact fun x => rfl
  | cons k ks ih =>
    intro x
    have hcons : loadWords c (k :: ks) x = loadWords c ks (putCodeWord x k (codeWord c k)) := rfl
    rw [hcons, ih, putCodeWord_bit _ _ _ _ hj]
    by_cases hk : j / 32 = k
    · have hbit := codeWord_bit c k (j := j - 32 * k) (by omega)
      rw [Nat.add_sub_cancel' (by omega)] at hbit
      rw [if_pos (by omega : 32 * k ≤ j ∧ j < 32 * k + 32), hbit, ite_self, if_pos (hk ▸ List.mem_cons_self)]
    · rw [if_neg (by omega : ¬ (32 * k ≤ j ∧ j < 32 * k + 32))]
      simp only [List.mem_cons, hk, false_or]

/-- The eight words make the whole code, whatever was stored before. -/
theorem loadWords_all (c : BitString) (x : CodeBits) :
    loadWords c (List.range 8) x = BitVec.ofNat 255 (valOf c) := by
  apply BitVec.eq_of_getLsbD_eq
  intro j hj
  rw [loadWords_bit c hj, if_pos (List.mem_range.2 (by omega)), BitVec.getLsbD_ofNat, decide_eq_true hj, Bool.true_and]

/-! ### The ten writes -/

/-- A step in which an idle machine takes a write of the register `r`. -/
theorem step_of_wr32 {s : State} {off v : Word} {rest : List Input} (r : Reg)
    (hi : s.inputs = .host (.wr32 off v) :: rest) (hb : s.busy = false) (h : off.toNat < 0x1000)
    (h4 : off.toNat % 4 = 0) (hr : regAt off.toNat = r) : step s = .next (writeReg r v (takeTurn s)) :=
  (step_of_host hi).trans (wr32_register _ off v r hb h h4 hr)

/-- Writes of code windows one after the other load their words into the selected code and change nothing else. -/
theorem run_codeWords (c : BitString) {rest : List Input} (ks : List Nat) (hks : ∀ k ∈ ks, k < 8) :
    ∀ s : State, s.busy = false →
      s.inputs = moves (ks.map fun k => .wr32 (codeWordOffset k) (codeWord c k)) ++ rest →
      Host.Core.run Sys2Proof.core ks.length s = .next { s with
        cbCode := s.cbCode.put s.cbSel (loadWords c ks (s.cbCode.at s.cbSel))
        inputs := rest
        draws  := s.draws + ks.length } := by
  induction ks with
  | nil =>
    intro s _ hi
    obtain rfl : s.inputs = rest := hi
    simp only [loadWords, List.foldl_nil, table_put_at]
    rfl
  | cons k ks ih =>
    intro s hb hi
    have hk := hks k List.mem_cons_self
    have hoff : (codeWordOffset k).toNat = 0x040 + 4 * k := codeWindow_offset hk
    have hstep := step_of_wr32 (.cbCode ⟨k, hk⟩) hi hb (by omega) (by omega) (by rw [hoff, regAt_cbCode k hk])
    have hloop := ih (fun j hj => hks j (List.mem_cons_of_mem _ hj))
      (writeReg (.cbCode ⟨k, hk⟩) (codeWord c k) (takeTurn s)) hb (congrArg List.tail hi)
    refine (run_succ _ _ _ hstep).trans (hloop.trans ?_)
    simp only [writeReg, takeTurn, table_at_put_same, table_put_put, List.length_cons, Nat.add_assoc, Nat.add_comm 1]
    rfl

/-- LDCB does what `setCode` does and leaves the symbol selected. -/
theorem run_ldcb {s : State} (b : Byte) (c : BitString) {rest : List Input} (hb : s.busy = false)
    (hi : s.inputs = moves (ldcb b c) ++ rest) :
    Host.Core.run Sys2Proof.core 10 s = .next { setCode b c s with
      cbSel := b, inputs := rest, draws := s.draws + 10 } := by
  have hsym : (b.setWidth 32).setWidth 8 = b := by simp
  have hlen : (BitVec.ofNat 32 c.length).setWidth 8 = BitVec.ofNat 8 c.length :=
    BitVec.setWidth_ofNat_of_le (by decide) _
  have hselect := step_of_wr32 .cbSel hi hb (by decide) (by decide) rfl
  have hlength := step_of_wr32 (s := writeReg .cbSel (b.setWidth 32) (takeTurn s)) .cbLen
    (congrArg List.tail hi) hb (by decide) (by decide) rfl
  have hwords := run_codeWords c (List.range 8) (fun k hk => List.mem_range.1 hk)
    (writeReg .cbLen (BitVec.ofNat 32 c.length) (takeTurn (writeReg .cbSel (b.setWidth 32) (takeTurn s)))) hb
    (congrArg (fun l => l.tail.tail) hi)
  refine (run_succ 9 _ _ hselect).trans ((run_succ 8 _ _ hlength).trans (hwords.trans ?_))
  simp only [loadWords_all, writeReg, takeTurn, hsym, hlen]
  rfl

/-- Settles O23: the ten writes are a `setCode`, whose laws give each clause. -/
theorem ldcbLoadsTheCode : Obligations.LdcbLoadsTheCode := by
  intro s b c rest hb hc hi
  obtain ⟨-, hle⟩ : 1 ≤ c.length ∧ c.length ≤ 255 := by simpa [codeWf] using hc
  have hval : valOf c < 2 ^ 255 := (valOf_lt c).trans_le (Nat.pow_le_pow_right (by decide) hle)
  refine ⟨_, run_ldcb b c hb hi, rfl, hb, ?length, ?value, codeOf_setCode_same b c s hle,
    fun x hx => setCode_other b x c s hx, rfl⟩
  case length =>
    simp only [setCode_cbLen, table_at_put_same, BitVec.toNat_ofNat]
    exact Nat.mod_eq_of_lt (by omega)
  case value =>
    simp only [setCode_cbCode, table_at_put_same, BitVec.toNat_ofNat]
    exact Nat.mod_eq_of_lt hval

end Sys2Proof.Machine
end

section
/-! FREQ and FCLR (40_frequency_tree.md rules R101 to R103): the counts of the input, and the table without a count. -/

namespace Sys2Proof.Machine

/-! ### FREQ -/

/-- A FREQ that passes the check of IN_LEN completes with the counts of the input. -/
theorem execFreq_of_checked {s : State} (h : inputError s = none) :
    exec .freq s = .next (complete { code := .noError, pos := 0, aux := 0 }
      { s with freq := countBytes (inputBytes s) }) := by
  rcases execFreq_cases s with ⟨e, hin, -⟩ | ⟨-, he⟩
  · cases hin.symm.trans h
  · exact he

/-- A FREQ that fails the check of IN_LEN completes with its error and keeps the table. -/
theorem execFreq_of_inputError {s : State} {e : CmdError} (h : inputError s = some e) :
    exec .freq s = .next (complete e s) := by
  rcases execFreq_cases s with ⟨e', hin, he⟩ | ⟨hin, -⟩
  · cases hin.symm.trans h
    exact he
  · cases hin.symm.trans h

/-- The input is shorter than 2^32 bytes, so no count wraps. -/
theorem countBytes_inputBytes_at (s : State) (b : Byte) :
    ((countBytes (inputBytes s)).at b).toNat = (inputBytes s).count b :=
  countBytes_at _ b (by rw [length_inputBytes]; exact s.inLen.isLt)

theorem sum_countBytes_inputBytes (s : State) :
    (allSymbols.map fun b => ((countBytes (inputBytes s)).at b).toNat).sum = s.inLen.toNat := by
  simp only [countBytes_inputBytes_at]
  rw [sum_counts allSymbols allSymbols_nodup mem_allSymbols, length_inputBytes]

/-- A FREQ that reports no error had an input, and it left the input's counts. -/
theorem freq_noError {s t : State} (h : exec .freq s = .next t) (herr : t.err = .noError) :
    s.inLen ≠ 0 ∧ t.freq = countBytes (inputBytes s) := by
  rcases inputError_cases s with ⟨-, hin⟩ | ⟨-, -, hin⟩ | ⟨h0, -, hin⟩
  · cases (execFreq_of_inputError hin).symm.trans h
    cases herr
  · cases (execFreq_of_inputError hin).symm.trans h
    cases herr
  · cases (execFreq_of_checked hin).symm.trans h
    exact ⟨h0, rfl⟩

/-- Settles O31: the outcome of the check of IN_LEN decides between the counts and the two errors. -/
theorem freqCountsEveryByteValue : Obligations.FreqCountsEveryByteValue :=
  ⟨(decodeInstr_eq_some_iff _ .freq).2 rfl,
    fun s h0 h1 => ⟨countBytes (inputBytes s), execFreq_of_checked (inputError_none s h0 h1),
      countBytes_inputBytes_at s, sum_countBytes_inputBytes s⟩,
    fun s h0 => execFreq_of_inputError (inputError_zero s h0),
    fun s h1 => execFreq_of_inputError (inputError_large s h1)⟩

/-! ### A table without a count -/

/-- A table has a distinct symbol exactly when one of its counts is not 0. -/
theorem one_le_distinctCount_iff (freq : Table Count) : 1 ≤ distinctCount freq ↔ ∃ b, freq.at b ≠ 0 := by
  simp only [← mem_distinctSymbols]
  exact List.length_pos_iff_exists_mem

/-- A table has no leaf exactly when every count is 0. -/
theorem leavesOf_eq_nil_iff (freq : Table Count) : leavesOf freq = [] ↔ ∀ b, freq.at b = 0 := by
  have hpos := one_le_distinctCount_iff freq
  rw [← not_iff_not, not_forall, ← hpos, ← length_leavesOf]
  exact List.length_pos_iff.symm

/-- BUILD on an empty table drops the tree (40_frequency_tree.md rule R104). -/
theorem execBuild_of_empty {s : State} (h : ∀ b, s.freq.at b = 0) :
    exec .build s = .next (complete emptyInputError (dropTree s)) := by
  rcases execBuild_cases s with ⟨-, he⟩ | ⟨hne, -⟩
  · exact he
  · exact absurd ((leavesOf_eq_nil_iff s.freq).2 h) hne

/-- GENCODE without a tree completes with NO_TREE and changes nothing else (41_codebook.md rule R121). -/
theorem execGencode_of_no_tree {s : State} (h : s.treeValid = false) :
    exec .gencode s = .next (complete { code := .noTree, pos := 0, aux := 0 } s) := by
  rcases execGencode_cases s with ⟨-, he⟩ | ⟨hv, -⟩
  · exact he
  · rw [h] at hv
    cases hv

/-- Settles O32: the table of zeros, on which BUILD finds nothing. -/
theorem fclrClearsEveryCount : Obligations.FclrClearsEveryCount := by
  refine ⟨(decodeInstr_eq_some_iff _ .fclr).2 rfl, fun s => ⟨Table.all 0, execFclr_eq s, table_at_all 0, ?build⟩⟩
  case build =>
    intro u hu
    exact ⟨_, execBuild_of_empty fun b => by rw [hu, table_at_all], rfl, rfl, rfl⟩

/-- Settles O33: the two errors, each with its exact completion. -/
theorem emptyTableAndMissingTreeAreErrors : Obligations.EmptyTableAndMissingTreeAreErrors :=
  ⟨fun _ h => ⟨[], execBuild_of_empty h⟩, fun _ h => execGencode_of_no_tree h⟩

end Sys2Proof.Machine
end

section
/-! BUILD on a table with a distinct symbol (40_frequency_tree.md rules R104 to R110): its registers, its leaves, its
merges and the frequency of its root. -/

namespace Sys2Proof.Machine

/-! ### What a successful BUILD leaves -/

/-- BUILD on a table with distinct symbols leaves the tree builder's arena and sets the registers by their number. -/
theorem execBuild_of_symbols {s : State} (h : 1 ≤ distinctCount s.freq) :
    exec .build s = .next (complete { code := .noError, pos := 0, aux := 0 } { s with
      treeValid := true
      nodes     := (treeOf s.freq).1
      root      := BitVec.ofNat 9 (2 * distinctCount s.freq - 2)
      nLeaf     := BitVec.ofNat 9 (distinctCount s.freq)
      nNode     := BitVec.ofNat 10 (2 * distinctCount s.freq - 1) }) := by
  rcases execBuild_cases s with ⟨hnil, -⟩ | ⟨-, he⟩
  · rw [← length_leavesOf, hnil] at h
    cases h
  · rw [(rootOf_treeOf s.freq h).1, length_leavesOf, length_treeOf s.freq h] at he
    exact he

/-- A BUILD that reports no error found a distinct symbol, and it left the tree builder's arena with the last node as
the root. -/
theorem build_noError {s t : State} (h : exec .build s = .next t) (herr : t.err = .noError) :
    1 ≤ distinctCount s.freq ∧ t.nodes = (treeOf s.freq).1 ∧ t.root.toNat = 2 * distinctCount s.freq - 2 := by
  have hle := distinctCount_le s.freq
  rcases execBuild_cases s with ⟨-, he⟩ | ⟨hne, -⟩
  · cases he.symm.trans h
    cases herr
  · have hpos := one_le_distinctCount hne
    cases (execBuild_of_symbols hpos).symm.trans h
    refine ⟨hpos, rfl, ?_⟩
    rw [complete_root, BitVec.toNat_ofNat]
    exact Nat.mod_eq_of_lt (by omega)

/-! ### The merges -/

/-- Settles O36: the loop invariant says of every internal node of the arena that the greedy merge made it. -/
theorem buildMergesTheTwoLeastNodes : Obligations.BuildMergesTheTwoLeastNodes := by
  rintro s t n k rfl h herr hnk hk
  obtain ⟨hpos, hnodes, -⟩ := build_noError h herr
  obtain ⟨hinv, -, -⟩ := treeOf_spec s.freq hpos
  rw [← length_treeOf s.freq hpos] at hk
  obtain ⟨-, i, j, hleft, hright, hne, hi, hj, hleast, hnext, -⟩ := hinv.joins k hk hnk
  rw [hnodes]
  exact ⟨i, j, hleft, hright, hne, hi, hj, hleast, hnext⟩

/-! ### The leaves -/

/-- Settles O34: the registers by the number of symbols, and the leaves in front of the arena. -/
theorem buildInsertsTheLeavesInOrder : Obligations.BuildInsertsTheLeavesInOrder := by
  rintro s n rfl hn
  exact ⟨(treeOf s.freq).1, execBuild_of_symbols hn, length_treeOf s.freq hn, treeOf_leaf s.freq hn⟩

/-! ### The frequency of the root -/

/-- The node left in the queue holds the sum of all counts (40_frequency_tree.md rule R106). -/
theorem rootFreq_treeOf (freq : Table Count) (h : 1 ≤ distinctCount freq) :
    (nodeAt (treeOf freq).1 (2 * distinctCount freq - 2)).freq.toNat =
      (allSymbols.map fun b => (freq.at b).toNat).sum := by
  obtain ⟨hinv, -, -⟩ := treeOf_spec freq h
  obtain ⟨-, e, he, hidx⟩ := rootOf_treeOf freq h
  have hfreq := hinv.freqs e (by rw [he]; exact List.mem_singleton_self e)
  have hsum := hinv.sum
  rw [he, List.map_singleton, List.sum_singleton] at hsum
  rw [← hidx, hfreq, hsum]

theorem rootFreq_of_build {s t : State} (h : exec .build s = .next t) (herr : t.err = .noError) :
    (nodeAt t.nodes t.root.toNat).freq.toNat = (allSymbols.map fun b => (s.freq.at b).toNat).sum := by
  obtain ⟨hpos, hnodes, hroot⟩ := build_noError h herr
  rw [hnodes, hroot, rootFreq_treeOf s.freq hpos]

/-- The counts that FREQ leaves sum to IN_LEN, which is not 0, so one of them is not 0. -/
theorem one_le_distinctCount_of_freq {s t : State} (h : exec .freq s = .next t) (herr : t.err = .noError) :
    1 ≤ distinctCount t.freq := by
  obtain ⟨h0, hfreq⟩ := freq_noError h herr
  rw [one_le_distinctCount_iff]
  by_contra! hzero
  have hnone : (allSymbols.map fun b => (t.freq.at b).toNat).sum = 0 := by
    refine List.sum_eq_zero fun c hc => ?_
    obtain ⟨b, -, rfl⟩ := List.mem_map.1 hc
    rw [hzero]
    rfl
  rw [hfreq, sum_countBytes_inputBytes] at hnone
  exact h0 (BitVec.eq_of_toNat_eq hnone)

/-- Settles O37: the loop keeps the sum of the counts, and after FREQ that sum is IN_LEN. -/
theorem rootFrequencyIsTheTotalCount : Obligations.RootFrequencyIsTheTotalCount := by
  refine ⟨fun s t h herr => rootFreq_of_build h herr, fun s t u hf herr hb => ?afterFreq⟩
  case afterFreq =>
    have hok : u.err = .noError := by
      cases (execBuild_of_symbols (one_le_distinctCount_of_freq hf herr)).symm.trans hb
      rfl
    refine ⟨hok, ?_⟩
    rw [rootFreq_of_build hb hok, (freq_noError hf herr).2, sum_countBytes_inputBytes]

/-! ### One symbol, and equal tables -/

theorem distinctSymbols_of_sole {freq : Table Count} {b : Byte} (h : ∀ x, freq.at x ≠ 0 ↔ x = b) :
    distinctSymbols freq = [b] := by
  have hnodup : (distinctSymbols freq).Nodup := allSymbols_nodup.filter _
  refine List.perm_singleton.1 ((List.perm_ext_iff_of_nodup hnodup (List.nodup_singleton b)).2 fun x => ?_)
  rw [mem_distinctSymbols, h, List.mem_singleton]

/-- The arena of one symbol is its leaf (40_frequency_tree.md rule R109). -/
theorem treeOf_sole {freq : Table Count} {b : Byte} (h : distinctSymbols freq = [b]) :
    (treeOf freq).1 = [leafNode b (freq.at b)] := by
  have hone : distinctCount freq = 1 := by rw [distinctCount, h, List.length_singleton]
  have hpos : 1 ≤ distinctCount freq := by omega
  obtain ⟨x, hx⟩ : ∃ x, (treeOf freq).1 = [x] :=
    List.length_eq_one_iff.1 (by rw [length_treeOf freq hpos, hone])
  have hleaf := treeOf_leaf freq hpos 0 b (by rw [h]; rfl)
  rw [hx] at hleaf ⊢
  cases hleaf
  rfl

/-- Settles O38: one symbol makes one leaf, and the registers and the arena after BUILD are functions of the table. -/
theorem buildDegenerateTreeAndDeterminism : Obligations.BuildDegenerateTreeAndDeterminism := by
  refine ⟨fun s b h => ?oneLeaf, fun s s' h => ?equalTables⟩
  case oneLeaf =>
    have hsole := distinctSymbols_of_sole h
    have hone : distinctCount s.freq = 1 := by rw [distinctCount, hsole, List.length_singleton]
    have he := execBuild_of_symbols hone.ge
    rw [hone] at he
    exact ⟨_, he, rfl, rfl, rfl, rfl, rfl, treeOf_sole hsole⟩
  case equalTables =>
    by_cases hzero : ∀ b, s.freq.at b = 0
    · exact ⟨_, _, execBuild_of_empty hzero, execBuild_of_empty (h ▸ hzero), rfl, rfl, rfl, rfl, rfl, rfl⟩
    · have hpos := (one_le_distinctCount_iff s.freq).2 (not_forall.1 hzero)
      have he' := execBuild_of_symbols (s := s') (h ▸ hpos)
      rw [← h] at he'
      exact ⟨_, _, execBuild_of_symbols hpos, he', rfl, rfl, rfl, rfl, rfl, rfl⟩

end Sys2Proof.Machine
end

section
/-! GENCODE and CBCLR (41_codebook.md rules R121 to R126): the codebook that GENCODE leaves is the list of its tree's
codes, no code of which begins another, and which is complete; CBCLR leaves no code. -/

namespace Sys2Proof.Machine

/-! ### The codes of a tree -/

section
variable {nodes : List Node} {n : Nat}

theorem TreeShape.one_or_more (ht : TreeShape nodes n) : n = 1 ∨ 2 ≤ n := by
  obtain ⟨hpos, -⟩ := ht.leafCount
  omega

/-- The degenerate tree has the one code "0" (41_codebook.md rule R122). -/
theorem TreeShape.treeCodes_of_one (ht : TreeShape nodes n) (h1 : n = 1) :
    treeCodes nodes (2 * n - 2) = [((nodeAt nodes 0).sym, [false])] := by
  subst h1
  rw [treeCodes, if_pos (ht.leavesFirst 0 Nat.one_pos)]

theorem TreeShape.treeCodes_of_more (ht : TreeShape nodes n) (h2 : 2 ≤ n) :
    treeCodes nodes (2 * n - 2) = leafPaths nodes nodes.length (2 * n - 2) [] := by
  have hjoin := ht.joinsAfter (2 * n - 2) (by omega) (by omega)
  rw [treeCodes, if_neg (by rw [hjoin]; exact Bool.false_ne_true)]

theorem TreeShape.treeCodes_length_pos (ht : TreeShape nodes n) :
    ∀ e ∈ treeCodes nodes (2 * n - 2), 0 < e.2.length := by
  rintro ⟨b, c⟩ he
  rcases ht.one_or_more with h1 | h2
  · rw [ht.treeCodes_of_one h1, List.mem_singleton] at he
    cases he
    exact Nat.one_pos
  · obtain ⟨j, hj, hf, -⟩ := (ht.mem_treeCodes h2 b c).1 he
    exact (ht.path_length h2 hj hf).1

theorem TreeShape.treeCodes_symbols_nodup (ht : TreeShape nodes n) :
    ((treeCodes nodes (2 * n - 2)).map Prod.fst).Nodup := by
  rcases ht.one_or_more with h1 | h2
  · rw [ht.treeCodes_of_one h1]
    exact List.nodup_singleton _
  · rw [ht.treeCodes_of_more h2]
    exact ht.leafPaths_nodup _ _ [] [] (by rw [ht.nodeCount]; omega) (by omega) (follow_nil _ _)

/-- A code that begins another is the same symbol's: no path goes on from a leaf. -/
theorem TreeShape.treeCodes_prefixFree (ht : TreeShape nodes n) {a b : Byte} {c d : BitString}
    (ha : (a, c) ∈ treeCodes nodes (2 * n - 2)) (hb : (b, d) ∈ treeCodes nodes (2 * n - 2)) (hp : c <+: d) :
    a = b := by
  rcases ht.one_or_more with h1 | h2
  · rw [ht.treeCodes_of_one h1, List.mem_singleton] at ha hb
    cases ha
    cases hb
    rfl
  · obtain ⟨i, hi, hfi, rfl⟩ := (ht.mem_treeCodes h2 a c).1 ha
    obtain ⟨j, -, hfj, rfl⟩ := (ht.mem_treeCodes h2 b d).1 hb
    obtain ⟨r, rfl⟩ := hp
    rw [follow_append, hfi, Option.bind_some] at hfj
    obtain ⟨-, rfl⟩ := follow_leaf _ _ _ _ (ht.leavesFirst i hi) hfj
    rfl

theorem TreeShape.kraft_treeCodes (ht : TreeShape nodes n) (h2 : 2 ≤ n) :
    ((treeCodes nodes (2 * n - 2)).map fun e => 2 ^ (255 - e.2.length)).sum = 2 ^ 255 := by
  have hmax := ht.leafCount.2
  rw [ht.treeCodes_of_more h2]
  exact ht.kraft_leafPaths _ _ [] (by rw [ht.nodeCount]; omega) (by omega) (by rw [List.length_nil]; omega)

end

/-! ### The codebook after the codes are written -/

theorem isCoded_eq_false_iff (s : State) (b : Byte) : isCoded s b = false ↔ s.cbLen.at b = 0 := by
  rw [isCoded, decide_eq_false_iff_not, not_not]

section
variable {codes : List (Byte × BitString)} {s : State} {b : Byte} {c : BitString}

/-- Of codes for different symbols each is read back, if its length is legal. -/
theorem codeOf_writeCodes (hnodup : (codes.map Prod.fst).Nodup) (hlen : c.length ≤ 255) (hm : (b, c) ∈ codes) :
    codeOf (writeCodes codes s) b = c := by
  have hone : ∀ e ∈ codes, e.1 = b → e.2 = c := fun e he heq =>
    congrArg Prod.snd (List.inj_on_of_nodup_map hnodup he hm heq)
  obtain ⟨hl, hc⟩ := writeCodes_same codes s b c hm hone
  have hset := codeOf_setCode_same b c s hlen
  rw [codeOf, setCode_cbLen, setCode_cbCode, table_at_put_same, table_at_put_same] at hset
  rw [codeOf, hl, hc, hset]

/-- An empty codebook holds, after codes for different symbols are written, exactly these codes. -/
theorem mem_codebookOf_writeCodes (hnodup : (codes.map Prod.fst).Nodup)
    (hlen : ∀ e ∈ codes, 0 < e.2.length ∧ e.2.length ≤ 255) :
    (b, c) ∈ codebookOf (writeCodes codes (clearCodebook s)) ↔ (b, c) ∈ codes := by
  rw [mem_codebookOf]
  constructor
  · rintro ⟨hb, rfl⟩
    by_cases hm : ∃ e ∈ codes, e.1 = b
    · obtain ⟨⟨_, c⟩, he, rfl⟩ := hm
      rwa [codeOf_writeCodes hnodup (hlen _ he).2 he]
    · obtain ⟨hl, -⟩ := writeCodes_other codes (clearCodebook s) b fun e he heq => hm ⟨e, he, heq⟩
      rw [clearCodebook_cbLen, table_at_all] at hl
      rw [(isCoded_eq_false_iff _ b).2 hl] at hb
      cases hb
  · intro hm
    obtain ⟨hpos, hle⟩ := hlen _ hm
    have hcode := codeOf_writeCodes (s := clearCodebook s) hnodup hle hm
    exact ⟨(isCoded_iff _ b).2 (by rwa [hcode]), hcode.symm⟩

end

theorem codebookOf_nodup (s : State) : (codebookOf s).Nodup :=
  (codebookOf_ascend s).imp fun h e => absurd h (by rw [e]; exact lt_irrefl _)

theorem kraftSum_eq (s : State) : s.kraftSum = ((codebookOf s).map fun e => 2 ^ (255 - e.2.length)).sum := by
  rw [State.kraftSum, codebookOf, List.map_map]
  simp only [Function.comp_def, length_codeOf]

/-- Without a bit above its length a code is stored right-aligned (30_encoding.md rule R88). -/
theorem toNat_cbCode_of_unusedBitsZero {s : State} (hs : s.unusedBitsZero) (b : Byte) :
    (s.cbCode.at b).toNat = valOf (codeOf s b) := by
  have hlt : (s.cbCode.at b).toNat < 2 ^ (s.cbLen.at b).toNat :=
    Nat.lt_pow_two_of_testBit _ fun j hj => hs b j hj
  rw [codeOf, valOf_strOf, Nat.mod_eq_of_lt hlt]

theorem tables_zero_of_uncoded {s : State} {b : Byte} (hs : s.unusedBitsZero) (hb : isCoded s b = false) :
    s.cbLen.at b = 0 ∧ s.cbCode.at b = 0 := by
  have hl := (isCoded_eq_false_iff s b).1 hb
  refine ⟨hl, BitVec.eq_of_toNat_eq ?_⟩
  rw [toNat_cbCode_of_unusedBitsZero hs, codeOf, hl]
  rfl

/-! ### GENCODE -/

theorem execGencode_of_tree {s : State} (h : s.treeValid = true) :
    exec .gencode s = .next (complete { code := .noError, pos := 0, aux := 0 }
      (writeCodes (treeCodes s.nodes s.root.toNat) (clearCodebook s))) := by
  rcases execGencode_cases s with ⟨hf, -⟩ | ⟨-, he⟩
  · rw [h] at hf
    cases hf
  · exact he

/-- A tree of one leaf has the one code "0" of its symbol. -/
theorem treeCodes_of_nLeaf_one {s : State} (hs : s.treeWf) (hv : s.treeValid = true) (h1 : s.nLeaf = 1) :
    treeCodes s.nodes (2 * s.nLeaf.toNat - 2) = [((nodeAt s.nodes 0).sym, [false])] :=
  (hs.1 hv).1.treeCodes_of_one (by rw [h1]; rfl)

section
variable {s t : State} {b : Byte} {c : BitString} (hs : s.treeWf) (hv : s.treeValid = true)
  (h : exec .gencode s = .next t)
include hv h

/-- GENCODE writes the codebook tables and completes without an error. -/
theorem gencode_frame : t = { s with
    cbLen := t.cbLen, cbCode := t.cbCode, err := .noError, errPos := 0, errAux := 0, pending := none, done := true } := by
  cases (execGencode_of_tree hv).symm.trans h
  exact congrArg (complete _) (generated_fields s)

include hs

/-- The codebook that GENCODE leaves is the list of its tree's codes, whatever the codebook was before
(41_codebook.md rules R121 to R123). -/
theorem mem_codebookOf_gencode : (b, c) ∈ codebookOf t ↔ (b, c) ∈ treeCodes s.nodes (2 * s.nLeaf.toNat - 2) := by
  obtain ⟨ht, -, hroot⟩ := hs.1 hv
  cases (execGencode_of_tree hv).symm.trans h
  rw [hroot]
  exact mem_codebookOf_writeCodes ht.treeCodes_symbols_nodup fun e he =>
    ⟨ht.treeCodes_length_pos e he, ht.treeCodes_length e he⟩

theorem codebookOf_gencode_perm : (codebookOf t).Perm (treeCodes s.nodes (2 * s.nLeaf.toNat - 2)) := by
  obtain ⟨ht, -⟩ := hs.1 hv
  exact (List.perm_ext_iff_of_nodup (codebookOf_nodup t) ht.treeCodes_symbols_nodup.of_map).2 fun e =>
    mem_codebookOf_gencode hs hv h

theorem kraftSum_gencode :
    t.kraftSum = ((treeCodes s.nodes (2 * s.nLeaf.toNat - 2)).map fun e => 2 ^ (255 - e.2.length)).sum := by
  rw [kraftSum_eq]
  exact ((codebookOf_gencode_perm hs hv h).map _).sum_eq

theorem mem_treeCodes_of_isCoded (hb : isCoded t b = true) :
    (b, codeOf t b) ∈ treeCodes s.nodes (2 * s.nLeaf.toNat - 2) :=
  (mem_codebookOf_gencode hs hv h).1 ((mem_codebookOf t b _).2 ⟨hb, rfl⟩)

theorem isCoded_of_mem_treeCodes (hm : (b, c) ∈ treeCodes s.nodes (2 * s.nLeaf.toNat - 2)) :
    isCoded t b = true ∧ c = codeOf t b :=
  (mem_codebookOf t b c).1 ((mem_codebookOf_gencode hs hv h).2 hm)

theorem gencode_prefixFree : t.prefixFree := fun _ _ ha hb hab hp =>
  hab ((hs.1 hv).1.treeCodes_prefixFree (mem_treeCodes_of_isCoded hs hv h ha) (mem_treeCodes_of_isCoded hs hv h hb) hp)

/-- From a tree of two leaves or more each leaf's symbol is coded, by the leaf's path. -/
theorem follow_codeOf_leaf (h2 : 2 ≤ s.nLeaf.toNat) {k : Nat} (hk : k < s.nLeaf.toNat) :
    isCoded t (nodeAt s.nodes k).sym = true ∧
      follow s.nodes s.root.toNat (codeOf t (nodeAt s.nodes k).sym) = some k := by
  obtain ⟨ht, -, hroot⟩ := hs.1 hv
  obtain ⟨p, hp⟩ := ht.path_exists _ k rfl (by omega)
  obtain ⟨hcoded, rfl⟩ := isCoded_of_mem_treeCodes hs hv h ((ht.mem_treeCodes h2 _ p).2 ⟨k, hk, hp, rfl⟩)
  exact ⟨hcoded, by rwa [hroot]⟩

/-- Every bit string that no path can outlast begins with a code: it leads from the root to a leaf. -/
theorem codeOf_prefix_exists (h2 : 2 ≤ s.nLeaf.toNat) {bits : BitString} (hlen : bits.length = 255) :
    ∃ b, isCoded t b = true ∧ codeOf t b <+: bits := by
  obtain ⟨ht, -⟩ := hs.1 hv
  have hmax := ht.leafCount.2
  obtain ⟨r, j, hr, hf, hj⟩ := ht.path_prefix (2 * s.nLeaf.toNat - 2) bits (by omega) (by omega)
  obtain ⟨hcoded, rfl⟩ := isCoded_of_mem_treeCodes hs hv h ((ht.mem_treeCodes h2 _ r).2 ⟨j, hj, hf, rfl⟩)
  exact ⟨_, hcoded, hr⟩

/-- From a tree of one leaf the only code is "0", and it is the leaf's symbol's (41_codebook.md rule R122). -/
theorem isCoded_gencode_one (h1 : s.nLeaf = 1) (hb : isCoded t b = true) :
    b = (nodeAt s.nodes 0).sym ∧ codeOf t b = [false] := by
  have hm := mem_treeCodes_of_isCoded hs hv h hb
  rwa [treeCodes_of_nLeaf_one hs hv h1, List.mem_singleton, Prod.mk.injEq] at hm

end

/-- At most one code begins a bit string where no code begins another. -/
theorem State.prefixFree.eq_of_prefix {s : State} (hs : s.prefixFree) {a b : Byte} {bits : BitString}
    (ha : isCoded s a = true) (hb : isCoded s b = true) (hpa : codeOf s a <+: bits) (hpb : codeOf s b <+: bits) :
    a = b := by
  by_contra hab
  rcases List.prefix_or_prefix_of_prefix hpa hpb with hp | hp
  · exact hs a b ha hb hab hp
  · exact hs b a hb ha (Ne.symm hab) hp

/-- Codes without a 1 give no 1. -/
theorem true_not_mem_encoded {s : State} {bytes : List Byte} (h : ∀ b ∈ bytes, codeOf s b = [false]) :
    true ∉ encoded s bytes := by
  rw [encoded, List.mem_flatMap]
  rintro ⟨b, hb, hm⟩
  rw [h b hb, List.mem_singleton] at hm
  cases hm

/-- Settles O39: the codebook is the list of the leaves' paths, and no bit is stored above a code. -/
theorem gencodeAssignsEachLeafItsPath : Obligations.GencodeAssignsEachLeafItsPath := by
  intro s hs hv h2
  obtain ⟨t, h⟩ : ∃ t, exec .gencode s = .next t := ⟨_, execGencode_of_tree hv⟩
  have hunused := gencode_unusedBitsZero hs hv h
  refine ⟨t.cbLen, t.cbCode, t, gencode_frame hv h, h, fun k hk => ?leaf, fun b hb => ?other⟩
  case leaf =>
    obtain ⟨hcoded, hpath⟩ := follow_codeOf_leaf hs hv h h2 hk
    rw [isCoded_iff, length_codeOf] at hcoded
    exact ⟨hpath, hcoded, toNat_cbCode_of_unusedBitsZero hunused _⟩
  case other =>
    refine tables_zero_of_uncoded hunused (Bool.eq_false_iff.2 fun hcoded => ?_)
    obtain ⟨k, hk, -, hsym⟩ := ((hs.1 hv).1.mem_treeCodes h2 b _).1 (mem_treeCodes_of_isCoded hs hv h hcoded)
    exact hb k hk hsym

/-- Settles O41: a code that begins another would be a path that goes on from a leaf. -/
theorem generatedCodebookIsPrefixFree : Obligations.GeneratedCodebookIsPrefixFree := by
  intro s hs hv
  have h := execGencode_of_tree hv
  have hfree := gencode_prefixFree hs hv h
  exact ⟨_, h, rfl, hfree, (ambiguousPair_codebookOf _).2 hfree⟩

/-- Settles O42: the codes below a node share its part of the sum, and a long string leads from the root to a leaf. -/
theorem generatedCodebookIsComplete : Obligations.GeneratedCodebookIsComplete := by
  refine ⟨fun s t hs hv h2 h => ⟨?sum, fun bits hlen => ?one⟩, fun s t hs hv h1 h => ?degenerate⟩
  case sum =>
    rw [kraftSum_gencode hs hv h, (hs.1 hv).1.kraft_treeCodes h2]
  case one =>
    obtain ⟨b, hb, hpb⟩ := codeOf_prefix_exists hs hv h h2 hlen
    exact ⟨b, ⟨hb, hpb⟩, fun c hc hpc => (gencode_prefixFree hs hv h).eq_of_prefix hc hb hpc hpb⟩
  case degenerate =>
    refine ⟨?_, fun bytes hall => true_not_mem_encoded fun b hb => (isCoded_gencode_one hs hv h h1 (hall b hb)).2⟩
    rw [kraftSum_gencode hs hv h, treeCodes_of_nLeaf_one hs hv h1, List.map_singleton, List.sum_singleton,
      List.length_singleton]

/-- Settles O40: the codebook is the one code of the degenerate tree. -/
theorem gencodeGivesTheSingleLeafTheCodeZero : Obligations.GencodeGivesTheSingleLeafTheCodeZero := by
  intro s hs hv h1
  obtain ⟨t, h⟩ : ∃ t, exec .gencode s = .next t := ⟨_, execGencode_of_tree hv⟩
  have hunused := gencode_unusedBitsZero hs hv h
  obtain ⟨-, hcode⟩ := isCoded_of_mem_treeCodes hs hv h
    (treeCodes_of_nLeaf_one hs hv h1 ▸ List.mem_singleton_self _)
  refine ⟨t.cbLen, t.cbCode, h.trans (congrArg _ (gencode_frame hv h)), BitVec.eq_of_toNat_eq ?length,
    BitVec.eq_of_toNat_eq ?value, fun b hb => ?other⟩
  case length =>
    rw [← length_codeOf, ← hcode]
    rfl
  case value =>
    rw [toNat_cbCode_of_unusedBitsZero hunused, ← hcode]
    rfl
  case other =>
    exact tables_zero_of_uncoded hunused (Bool.eq_false_iff.2 fun hcoded =>
      hb (isCoded_gencode_one hs hv h h1 hcoded).1)

/-! ### CBCLR -/

/-- PACK with an input and without a code stops at the first byte (42_pack.md rule R141). -/
theorem execPack_of_uncoded {s : State} (h0 : s.inLen ≠ 0) (h1 : s.inLen.toNat ≤ s.params.inSize)
    (hcb : ∀ b, s.cbLen.at b = 0) :
    ∃ b rest, inputBytes s = b :: rest ∧
      exec .pack s = .next (raiseNoOutput { code := .codebookIncomplete, pos := 0, aux := b.setWidth 32 } s) := by
  have hne : inputBytes s ≠ [] := by
    rw [← List.length_pos_iff, length_inputBytes, Nat.pos_iff_ne_zero]
    exact fun e => h0 (BitVec.eq_of_toNat_eq e)
  obtain ⟨b, rest, hin⟩ := List.exists_cons_of_ne_nil hne
  have hun : isCoded s b = false := (isCoded_eq_false_iff s b).2 (hcb b)
  have hbits : packBits s = .error { code := .codebookIncomplete, pos := 0, aux := b.setWidth 32 } := by
    rw [packBits, inputError_none s h0 h1, hin]
    exact if_neg (by rw [hun]; exact Bool.false_ne_true)
  exact ⟨b, rest, hin, by rw [exec, execPack, hbits]⟩

/-- UNPACK with an input, a legal PAD and without a code (43_unpack.md rule R161). -/
theorem execUnpack_of_uncoded {s : State} (h0 : s.inLen ≠ 0) (h1 : s.inLen.toNat ≤ s.params.inSize)
    (hpad : s.pad.toNat ≤ 7) (hcb : ∀ b, s.cbLen.at b = 0) :
    exec .unpack s = .next (raiseNoOutput { code := .codebookIncomplete, pos := 0, aux := 0 } s) := by
  have hbytes : unpackBytes s = .error { code := .codebookIncomplete, pos := 0, aux := 0 } := by
    rw [unpackBytes, inputError_none s h0 h1]
    simp only [if_neg (Nat.not_lt.2 hpad), if_pos (codebookOf_nil hcb)]
  rw [exec, execUnpack, hbytes]

/-- Settles O43: the two tables of zeros, on which PACK and UNPACK find no code. -/
theorem cbclrEmptiesTheCodebook : Obligations.CbclrEmptiesTheCodebook := by
  refine ⟨(decodeInstr_eq_some_iff _ .cbclr).2 rfl, fun s => ⟨Table.all 0, Table.all 0, execCbclr_eq s,
    fun b => ⟨table_at_all 0 b, table_at_all 0 b⟩, fun u hu h0 h1 => ?after⟩⟩
  case after =>
    have hcb : ∀ b, u.cbLen.at b = 0 := by
      rw [hu]
      exact table_at_all 0
    obtain ⟨b, rest, hin, hpack⟩ := execPack_of_uncoded h0 h1 hcb
    exact ⟨⟨_, hpack, rfl, rfl, by rw [hin]; rfl⟩,
      fun hpad => ⟨_, execUnpack_of_uncoded h0 h1 hpad hcb, rfl, rfl, rfl⟩⟩

end Sys2Proof.Machine
end

section
/-! PACK (42_pack.md rules R141 to R147): the bits it writes and their padding, the byte at which it stops, and what a
failing PACK or UNPACK leaves. -/

namespace Sys2Proof.Machine

/-! ### What PACK answers -/

theorem execPack_of_error {s : State} {e : CmdError} (h : packBits s = .error e) :
    exec .pack s = .next (raiseNoOutput e s) := by
  rw [exec, execPack, h]

/-- PACK of bits that fit completes without an error and writes OUT_MEM, OUT_LEN and PAD (42_pack.md rule R141). -/
theorem execPack_of_bits {s : State} {bits : BitString} (h : packBits s = .ok bits) :
    exec .pack s = .next (complete { code := .noError, pos := 0, aux := 0 } { s with
      outMem := s.outMem.writeBytes 0 (bytesOfBits (padded bits))
      outLen := BitVec.ofNat 32 (bytesFor bits.length)
      pad    := BitVec.ofNat 32 (paddingOf bits.length) }) := by
  rcases execPack_cases s with ⟨e, hbits, -⟩ | ⟨bits', hbits, he⟩ <;> cases hbits.symm.trans h
  exact he

section
variable {s : State} (h0 : s.inLen ≠ 0) (h1 : s.inLen.toNat ≤ s.params.inSize)
include h0 h1

/-- Coded input bytes whose codes fit are packed to their codes. -/
theorem packBits_of_coded (hall : ∀ b ∈ inputBytes s, isCoded s b = true)
    (hfit : bytesFor (encoded s (inputBytes s)).length ≤ s.params.outSize) :
    packBits s = .ok (encoded s (inputBytes s)) := by
  rw [packBits, inputError_none s h0 h1]
  exact (encodeFrom_ok s _ 0 0 _).2 ⟨hall, rfl, fun _ => by rwa [Nat.zero_add]⟩

/-- PACK of coded input bytes succeeds, or the output is too small for it (42_pack.md rules R142, R143). -/
theorem execPack_of_coded (hall : ∀ b ∈ inputBytes s, isCoded s b = true) :
    ∃ t, exec .pack s = .next t ∧ (t.err = .noError ∨ t.err = .outputOverflow) := by
  cases hbits : packBits s with
  | ok bits => exact ⟨_, execPack_of_bits hbits, .inl rfl⟩
  | error e =>
    refine ⟨_, execPack_of_error hbits, .inr ?_⟩
    rw [packBits, inputError_none s h0 h1] at hbits
    exact encodeFrom_coded_error s _ 0 0 e hall hbits

/-- Behind coded bytes whose codes fit, PACK stops with the error that the encoding loop finds there. -/
theorem execPack_of_error_behind {before rest : List Byte} {e : CmdError} (hin : inputBytes s = before ++ rest)
    (hall : ∀ b ∈ before, isCoded s b = true) (hfit : bytesFor (encoded s before).length ≤ s.params.outSize)
    (he : encodeFrom s before.length (encoded s before).length rest = .error e) :
    exec .pack s = .next (raiseNoOutput e s) := by
  refine execPack_of_error ?_
  rw [packBits, inputError_none s h0 h1, hin]
  exact encodeFrom_skip s before 0 0 rest hall (by rwa [Nat.zero_add]) e (by rwa [Nat.zero_add, Nat.zero_add])

end

/-- The index of an input byte fits a register. -/
theorem toNat_inputIndex {s : State} {before rest : List Byte} {b : Byte} (hin : inputBytes s = before ++ b :: rest) :
    (BitVec.ofNat 32 before.length).toNat = before.length := by
  have hlen : s.inLen.toNat = before.length + (rest.length + 1) := by
    rw [← length_inputBytes, hin, List.length_append, List.length_cons]
  have hlt := s.inLen.isLt
  rw [BitVec.toNat_ofNat]
  exact Nat.mod_eq_of_lt (by omega)

/-- A length that OUT_MEM can hold fits a register (00_scope.md rule R7). -/
theorem toNat_ofNat_of_le_outSize {s : State} (hp : s.paramsLegal) {n : Nat} (h : n ≤ s.params.outSize) :
    (BitVec.ofNat 32 n).toNat = n := by
  obtain ⟨-, -, -, hout, -⟩ := (params_wf_iff s.params).1 hp
  rw [BitVec.toNat_ofNat]
  exact Nat.mod_eq_of_lt (by omega)

/-- A PACK that reports no error wrote the padded codes of the input, and they fit. -/
theorem pack_noError {s t : State} (hp : s.paramsLegal) (h : exec .pack s = .next t) (herr : t.err = .noError) :
    bytesFor (encoded s (inputBytes s)).length ≤ s.params.outSize ∧
    t.outMem = s.outMem.writeBytes 0 (bytesOfBits (padded (encoded s (inputBytes s)))) ∧
    t.outLen.toNat = bytesFor (encoded s (inputBytes s)).length ∧
    t.pad.toNat = paddingOf (encoded s (inputBytes s)).length := by
  cases hbits : packBits s with
  | error e =>
    cases (execPack_of_error hbits).symm.trans h
    have hcode := packBits_error s e hbits
    rw [show e.code = .noError from herr] at hcode
    exact absurd hcode (by decide)
  | ok bits =>
    obtain ⟨-, -, -, rfl, hfit⟩ := packBits_ok s bits hbits
    cases (execPack_of_bits hbits).symm.trans h
    have hpad := (paddingOf_spec (encoded s (inputBytes s)).length).1
    refine ⟨hfit, rfl, toNat_ofNat_of_le_outSize hp hfit, ?_⟩
    rw [complete_pad, BitVec.toNat_ofNat]
    exact Nat.mod_eq_of_lt (by omega)

/-! ### The bits in OUT_MEM -/

/-- The bytes written are read back, and their stream is the padded bit string (42_pack.md rule R145). -/
theorem streamBits_output (m : Memory) (bits : BitString) (d : Nat) :
    streamBits ((List.range (bytesFor bits.length)).map ((m.writeBytes 0 (bytesOfBits (padded bits))).byteAt d)) =
      padded bits := by
  have hread := read_writeBytes m (bytesOfBits (padded bits)) d
  rw [length_bytesOf_padded] at hread
  rw [hread, streamBits_bytesOf_padded]

/-- Settles O44: the encoding loop gives the codes of the input, and what is written at 0 is read back there alone. -/
theorem packWritesThePaddedCodes : Obligations.PackWritesThePaddedCodes := by
  rintro s len pad count - h0 h1 hall rfl rfl rfl hfit
  refine ⟨s.outMem.writeBytes 0 (bytesOfBits (padded (encoded s (inputBytes s)))),
    execPack_of_bits (packBits_of_coded h0 h1 hall hfit), streamBits_output s.outMem _, fun a d ha => ?behind⟩
  case behind =>
    refine byteAt_writeBytes_outside _ _ _ _ _ (.inr ?_)
    rwa [Nat.zero_add, length_bytesOf_padded]

/-- Settles O45: the arithmetic of the padding, and the padded string behind its bits. -/
theorem packPaddingIsMinimal : Obligations.PackPaddingIsMinimal := by
  rintro s t len hp h herr rfl
  obtain ⟨-, hmem, hlen, hpad⟩ := pack_noError hp h herr
  obtain ⟨hle, hmod, hdiv⟩ := paddingOf_spec (encoded s (inputBytes s)).length
  rw [hmem, hlen, hpad]
  refine ⟨rfl, hle, hmod, hdiv.symm, rfl, ?zero, fun d => ?bits⟩
  case zero => omega
  case bits => rw [streamBits_output, padded, List.drop_left]

/-! ### Where PACK stops -/

/-- Settles O46: the loop passes the bytes before, and the uncoded byte is an error of its own. -/
theorem packStopsAtTheFirstUncodedByte : Obligations.PackStopsAtTheFirstUncodedByte := by
  intro s before rest b h0 h1 hin hall hb hfit
  have hstop : encodeFrom s before.length (encoded s before).length (b :: rest) =
      .error { code := .codebookIncomplete, pos := BitVec.ofNat 32 before.length, aux := b.setWidth 32 } := by
    rw [encodeFrom, if_neg (by rw [hb]; exact Bool.false_ne_true)]
  exact ⟨_, execPack_of_error_behind h0 h1 hin hall hfit hstop, rfl, toNat_inputIndex hin, rfl⟩

/-- Settles O47: the loop passes the bytes before, and the next code is the first that does not fit; what a PACK without
an error wrote did fit. -/
theorem packStopsWhenTheOutputOverflows : Obligations.PackStopsWhenTheOutputOverflows := by
  refine ⟨fun s before rest b hp h0 h1 hin hall hb hfit hover => ?overflow, fun s t hp h herr => ?fits⟩
  case overflow =>
    rw [encoded_append, encoded_cons, encoded_nil, List.append_nil, List.length_append] at hover
    have hstop : encodeFrom s before.length (encoded s before).length (b :: rest) = .error
        { code := .outputOverflow, pos := BitVec.ofNat 32 before.length, aux := BitVec.ofNat 32 s.params.outSize } := by
      rw [encodeFrom, if_pos hb]
      exact if_pos hover
    exact ⟨_, execPack_of_error_behind h0 h1 hin hall hfit hstop, rfl, toNat_inputIndex hin,
      toNat_ofNat_of_le_outSize hp le_rfl⟩
  case fits =>
    obtain ⟨hfit, -, hlen, -⟩ := pack_noError hp h herr
    rwa [hlen]

/-- Settles O48: the two commands have one way to end with an error. -/
theorem failingPackAndUnpackLeaveNoResult : Obligations.FailingPackAndUnpackLeaveNoResult := by
  rintro i s t (rfl | rfl) h herr
  · rcases execPack_cases s with ⟨e, -, he⟩ | ⟨bits, -, he⟩ <;> cases he.symm.trans h
    · exact ⟨rfl, rfl, rfl⟩
    · exact absurd rfl herr
  · rcases execUnpack_cases s with ⟨e, -, he⟩ | ⟨bytes, -, he⟩ <;> cases he.symm.trans h
    · exact ⟨rfl, rfl, rfl⟩
    · exact absurd rfl herr

/-! ### One repeated byte -/

/-- Each copy of a symbol with the code "0" is one zero bit. -/
theorem encoded_of_zero_codes {s : State} {bytes : List Byte} (h : ∀ b ∈ bytes, codeOf s b = [false]) :
    encoded s bytes = List.replicate bytes.length false := by
  induction bytes with
  | nil => rfl
  | cons b bytes ih =>
    rw [encoded_cons, h b List.mem_cons_self, ih fun x hx => h x (List.mem_cons_of_mem b hx)]
    rfl

theorem bytesOfBits_zeros (n : Nat) : bytesOfBits (List.replicate (8 * n) false) = List.replicate n 0 := by
  induction n with
  | zero => rfl
  | succ n ih =>
    calc bytesOfBits (List.replicate (8 * (n + 1)) false)
      _ = 0 :: bytesOfBits (List.replicate (8 * n) false) := rfl
      _ = List.replicate (n + 1) 0 := by rw [ih, List.replicate_succ]

/-- Zero bits are padded to zero bytes. -/
theorem bytesOfBits_padded_zeros (n : Nat) :
    bytesOfBits (padded (List.replicate n false)) = List.replicate (bytesFor n) 0 := by
  obtain ⟨-, hmod, hdiv⟩ := paddingOf_spec n
  rw [padded, List.length_replicate, List.replicate_append_replicate,
    show n + paddingOf n = 8 * bytesFor n by omega, bytesOfBits_zeros]

/-- Settles O49: the input's codes are zero bits, as many as there are input bytes. -/
theorem packOfOneRepeatedByte : Obligations.PackOfOneRepeatedByte := by
  intro s b hp h0 h1 hcode hsame hfit
  have hcodes : ∀ x ∈ inputBytes s, codeOf s x = [false] := fun x hx => by rw [hsame x hx, hcode]
  have hall : ∀ x ∈ inputBytes s, isCoded s x = true := fun x hx =>
    (isCoded_iff s x).2 (by rw [hcodes x hx]; exact Nat.one_pos)
  have hbits : encoded s (inputBytes s) = List.replicate s.inLen.toNat false := by
    rw [encoded_of_zero_codes hcodes, length_inputBytes]
  have hlen : (encoded s (inputBytes s)).length = s.inLen.toNat := by rw [hbits, List.length_replicate]
  have hpack := execPack_of_bits (packBits_of_coded h0 h1 hall (by rwa [hlen]))
  obtain ⟨-, hmem, hout, hpad⟩ := pack_noError hp hpack rfl
  refine ⟨_, hpack, rfl, by rw [hout, hlen]; rfl, by rw [hpad, hlen]; rfl, fun a d ha => ?zero⟩
  case zero =>
    rw [hout, hlen] at ha
    rw [hmem, hbits, bytesOfBits_padded_zeros, ← Nat.zero_add a,
      byteAt_writeBytes_inside _ _ _ _ _ (by rwa [List.length_replicate]), List.getElem_replicate]

end Sys2Proof.Machine
end

section
/-! Compression (42_pack.md rule R141, corner case): the codebook that FREQ, BUILD and GENCODE leave has a code for every
byte of the input. -/

namespace Sys2Proof.Machine

/-- FREQ leaves a count for each byte of the input (40_frequency_tree.md rule R101). -/
theorem freq_ne_zero_of_mem {s t : State} {b : Byte} (h : exec .freq s = .next t) (herr : t.err = .noError)
    (hb : b ∈ inputBytes s) : t.freq.at b ≠ 0 := by
  obtain ⟨-, hfreq⟩ := freq_noError h herr
  intro hzero
  have hcount := countBytes_inputBytes_at s b
  rw [← hfreq, hzero] at hcount
  exact (List.count_pos_iff.2 hb).ne hcount

/-- BUILD makes a leaf for each symbol with a count (40_frequency_tree.md rule R104). -/
theorem build_leaf_exists {s t : State} {b : Byte} (h : exec .build s = .next t) (hb : s.freq.at b ≠ 0) :
    ∃ k < t.nLeaf.toNat, (nodeAt t.nodes k).sym = b := by
  have hpos := (one_le_distinctCount_iff s.freq).2 ⟨b, hb⟩
  have hle := distinctCount_le s.freq
  obtain ⟨k, hk, rfl⟩ := List.getElem_of_mem ((mem_distinctSymbols s.freq b).2 hb)
  cases (execBuild_of_symbols hpos).symm.trans h
  refine ⟨k, ?_, ?_⟩
  · rw [complete_nLeaf, BitVec.toNat_ofNat, Nat.mod_eq_of_lt (by omega)]
    exact hk
  · rw [complete_nodes, nodeAt_of_getElem? _ _ _ (treeOf_leaf s.freq hpos k _ (List.getElem?_eq_getElem hk))]
    rfl

/-- GENCODE codes the symbol of each leaf, in the degenerate tree too (41_codebook.md rules R121, R122). -/
theorem isCoded_leaf {s t : State} (hs : s.treeWf) (hv : s.treeValid = true) (h : exec .gencode s = .next t) {k : Nat}
    (hk : k < s.nLeaf.toNat) : isCoded t (nodeAt s.nodes k).sym = true := by
  obtain ⟨ht, -⟩ := hs.1 hv
  rcases ht.one_or_more with h1 | h2
  · obtain rfl : k = 0 := by omega
    have hcodes := treeCodes_of_nLeaf_one hs hv (BitVec.eq_of_toNat_eq h1)
    exact (isCoded_of_mem_treeCodes hs hv h (hcodes ▸ List.mem_singleton_self _)).1
  · exact (follow_codeOf_leaf hs hv h h2 hk).1

/-- Settles O60: an input byte has a count, so a leaf, so a code, and PACK of coded bytes can only overflow. -/
theorem compressionCodesEveryInputByte : Obligations.CompressionCodesEveryInputByte := by
  intro s h0 h1
  obtain ⟨s1, hfreq, herr1⟩ : ∃ s1, exec .freq s = .next s1 ∧ s1.err = .noError :=
    ⟨_, execFreq_of_checked (inputError_none s h0 h1), rfl⟩
  obtain ⟨s2, hbuild, herr2, hv⟩ : ∃ s2, exec .build s1 = .next s2 ∧ s2.err = .noError ∧ s2.treeValid = true :=
    ⟨_, execBuild_of_symbols (one_le_distinctCount_of_freq hfreq herr1), rfl, rfl⟩
  obtain ⟨s3, hgen, herr3⟩ : ∃ s3, exec .gencode s2 = .next s3 ∧ s3.err = .noError :=
    ⟨_, execGencode_of_tree hv, rfl⟩
  have hwf := build_treeWf hbuild
  refine ⟨s1, s2, s3, hfreq, hbuild, hgen, herr1, herr2, herr3, gencode_prefixFree hwf hv hgen,
    fun u hparams hlen hin hcb _ => ?pack⟩
  case pack =>
    refine execPack_of_coded (by rwa [hlen]) (by rwa [hlen, hparams]) fun b hb => ?_
    rw [hin] at hb
    obtain ⟨k, hk, rfl⟩ := build_leaf_exists hbuild (freq_ne_zero_of_mem hfreq herr1 hb)
    rw [isCoded_congr s3 u hcb]
    exact isCoded_leaf hwf hv hgen hk

end Sys2Proof.Machine
end

section
/-! UNPACK (43_unpack.md rules R161 to R171): its checks in their order, the streams it decodes and the streams it
refuses, and the payload of a PACK, whole and cut. -/

namespace Sys2Proof.Machine

/-! ### What UNPACK answers -/

theorem execUnpack_of_error {s : State} {e : CmdError} (h : unpackBytes s = .error e) :
    exec .unpack s = .next (raiseNoOutput e s) := by
  rw [exec, execUnpack, h]

/-- UNPACK that decodes the stream completes without an error and writes OUT_MEM and OUT_LEN (43_unpack.md rule
R161). -/
theorem execUnpack_of_bytes {s : State} {bytes : List Byte} (h : unpackBytes s = .ok bytes) :
    exec .unpack s = .next (complete { code := .noError, pos := 0, aux := 0 } { s with
      outMem := s.outMem.writeBytes 0 bytes
      outLen := BitVec.ofNat 32 bytes.length }) := by
  rw [exec, execUnpack, h]
  rfl

/-- An UNPACK that reports no error decoded some bytes and wrote them. -/
theorem unpack_noError {s t : State} (h : exec .unpack s = .next t) (herr : t.err = .noError) :
    ∃ bytes, unpackBytes s = .ok bytes ∧ t.outLen = BitVec.ofNat 32 bytes.length := by
  cases hbytes : unpackBytes s with
  | error e =>
    cases (execUnpack_of_error hbytes).symm.trans h
    have hcode := unpackBytes_error s e hbytes
    rw [show e.code = .noError from herr] at hcode
    exact absurd hcode (by decide)
  | ok bytes =>
    cases (execUnpack_of_bytes hbytes).symm.trans h
    exact ⟨bytes, rfl, rfl⟩

/-- UNPACK of another IN_MEM that holds the same unpadded stream does the same and leaves that memory. -/
theorem execUnpack_with_inMem {s t : State} {m : Memory}
    (hm : unpaddedStream { s with inMem := m } = unpaddedStream s) (h : exec .unpack s = .next t) :
    exec .unpack { s with inMem := m } = .next { t with inMem := m } := by
  have hbytes : unpackBytes { s with inMem := m } = unpackBytes s := unpackBytes_congr s _ rfl rfl rfl hm rfl
  cases hs : unpackBytes s with
  | error e =>
    cases (execUnpack_of_error hs).symm.trans h
    exact execUnpack_of_error (hbytes.trans hs)
  | ok bytes =>
    cases (execUnpack_of_bytes hs).symm.trans h
    exact execUnpack_of_bytes (hbytes.trans hs)

/-- Settles O54: the unpadded stream is all that UNPACK reads of IN_MEM. -/
theorem unpackIgnoresThePaddingBits : Obligations.UnpackIgnoresThePaddingBits :=
  fun _ _ _ hm h => execUnpack_with_inMem hm h

/-! ### The checks before the stream is read -/

section
variable {s : State} (h0 : s.inLen ≠ 0) (h1 : s.inLen.toNat ≤ s.params.inSize)
include h0 h1

/-- PAD above 7 comes first of all that UNPACK checks behind IN_LEN (10_state.md rule R36). -/
theorem execUnpack_of_large_pad (hpad : 7 < s.pad.toNat) :
    exec .unpack s = .next (raiseNoOutput { code := .badParameter, pos := 0x018, aux := s.pad } s) := by
  refine execUnpack_of_error ?_
  rw [unpackBytes, inputError_none s h0 h1]
  exact if_pos hpad

/-- An ambiguous codebook is reported with the pair that the check finds (43_unpack.md rule R162). -/
theorem execUnpack_of_ambiguousPair (hpad : s.pad.toNat ≤ 7) {a b : Byte}
    (hpair : ambiguousPair (codebookOf s) = some (a, b)) :
    exec .unpack s = .next
      (raiseNoOutput { code := .ambiguousCodebook, pos := a.setWidth 32, aux := b.setWidth 32 } s) := by
  have hne : codebookOf s ≠ [] := fun hnil => by
    rw [hnil, ambiguousPair] at hpair
    cases hpair
  refine execUnpack_of_error ?_
  rw [unpackBytes, inputError_none s h0 h1]
  simp only [if_neg (Nat.not_lt.2 hpad), if_neg hne, hpair]

/-- A codebook whose codes do not clash is not reported as ambiguous, the empty one included. -/
theorem execUnpack_of_prefixFree (hpad : s.pad.toNat ≤ 7) (hfree : s.prefixFree) :
    ∃ t, exec .unpack s = .next t ∧ t.err ≠ .ambiguousCodebook := by
  by_cases hcb : ∀ b, s.cbLen.at b = 0
  · exact ⟨_, execUnpack_of_uncoded h0 h1 hpad hcb, ErrorCode.noConfusion⟩
  · obtain ⟨b, hb⟩ := not_forall.1 hcb
    have hloop := unpackBytes_loop h0 h1 hpad (codebookOf_ne_nil b (decide_eq_true hb)) hfree
    cases hbytes : unpackBytes s with
    | error e =>
      refine ⟨_, execUnpack_of_error hbytes, ?_⟩
      rcases decodeFrom_error _ _ _ _ _ _ _ e (hloop.symm.trans hbytes) with hcode | hcode <;>
        exact fun h => ErrorCode.noConfusion (hcode.symm.trans h)
    | ok bytes => exact ⟨_, execUnpack_of_bytes hbytes, ErrorCode.noConfusion⟩

end

/-- Settles O50: the two checks that come before the stream, in their order. -/
theorem unpackChecksPaddingThenCodebook : Obligations.UnpackChecksPaddingThenCodebook :=
  ⟨fun _ h0 h1 hpad => ⟨_, execUnpack_of_large_pad h0 h1 hpad, rfl, rfl, rfl⟩,
    fun _ h0 h1 hpad hcb => ⟨_, execUnpack_of_uncoded h0 h1 hpad hcb, rfl, rfl, rfl⟩⟩

/-- The check of the codebook finds the least clash, if there is a clash (43_unpack.md rule R162). -/
theorem ambiguousPair_eq_least_clash {s : State} {a b : Byte} (hab : clash s a b)
    (hleast : ∀ c d : Byte, clash s c d → a.toNat < c.toNat ∨ (a = c ∧ b.toNat ≤ d.toNat)) :
    ambiguousPair (codebookOf s) = some (a, b) := by
  obtain ⟨ha, hb, hlt, hpre⟩ := hab
  have hne : a ≠ b := fun e => hlt.ne (congrArg BitVec.toNat e)
  cases hpair : ambiguousPair (codebookOf s) with
  | none =>
    have hfree := (ambiguousPair_codebookOf s).1 hpair
    exact (hpre.elim (hfree a b ha hb hne) (hfree b a hb ha hne.symm)).elim
  | some found =>
    obtain ⟨c, d⟩ := found
    obtain ⟨cc, cd, hmc, hmd, hcd, hcl, hmin⟩ := ambiguousPair_some _ (codebookOf_ascend s) c d hpair
    obtain ⟨hc, rfl⟩ := (mem_codebookOf s c cc).1 hmc
    obtain ⟨hd, rfl⟩ := (mem_codebookOf s d cd).1 hmd
    have hle := hleast c d ⟨hc, hd, hcd, hcl⟩
    have hge : c.toNat < a.toNat ∨ (c = a ∧ d.toNat ≤ b.toNat) := hmin (a, codeOf s a)
      ((mem_codebookOf s a _).2 ⟨ha, rfl⟩) (b, codeOf s b) ((mem_codebookOf s b _).2 ⟨hb, rfl⟩) hlt hpre
    rcases hle with hle | ⟨rfl, hbd⟩
    · rcases hge with hge | ⟨rfl, -⟩ <;> omega
    · rcases hge with hge | ⟨-, hdb⟩
      · omega
      · rw [BitVec.eq_of_toNat_eq (le_antisymm hdb hbd)]

/-- Settles O51: what the check finds is the least clash, and a codebook without one passes it. -/
theorem unpackReportsTheLeastAmbiguousPair : Obligations.UnpackReportsTheLeastAmbiguousPair :=
  fun _ h0 h1 hpad =>
    ⟨fun _ _ hab hleast =>
      ⟨_, execUnpack_of_ambiguousPair h0 h1 hpad (ambiguousPair_eq_least_clash hab hleast), rfl, rfl, rfl⟩,
      execUnpack_of_prefixFree h0 h1 hpad⟩

/-! ### The unpadded stream -/

theorem length_unpaddedStream (s : State) :
    (unpaddedStream s).length = 8 * s.inLen.toNat - s.pad.toNat := by
  rw [unpaddedStream, List.length_take, length_streamBits, length_inputBytes]
  exact Nat.min_eq_left (Nat.sub_le _ _)

/-- Each coded byte adds at least one bit to the stream. -/
theorem length_le_encoded {s : State} {bytes : List Byte} (hall : ∀ b ∈ bytes, isCoded s b = true) :
    bytes.length ≤ (encoded s bytes).length := by
  induction bytes with
  | nil => exact Nat.zero_le _
  | cons b bytes ih =>
    have hb := (isCoded_iff s b).1 (hall b List.mem_cons_self)
    have hrest := ih fun x hx => hall x (List.mem_cons_of_mem b hx)
    rw [encoded_cons, List.length_append, List.length_cons]
    omega

/-- The index of a stream bit fits a register (00_scope.md rule R7). -/
theorem toNat_streamIndex {s : State} (hp : s.paramsLegal) (h1 : s.inLen.toNat ≤ s.params.inSize)
    {bits tail : BitString} (hstream : unpaddedStream s = bits ++ tail) :
    (BitVec.ofNat 32 bits.length).toNat = bits.length := by
  obtain ⟨-, hin, -⟩ := (params_wf_iff s.params).1 hp
  have hlen := length_unpaddedStream s
  rw [hstream, List.length_append] at hlen
  rw [BitVec.toNat_ofNat]
  exact Nat.mod_eq_of_lt (by omega)

section
variable {s : State} (h0 : s.inLen ≠ 0) (h1 : s.inLen.toNat ≤ s.params.inSize) (hpad : s.pad.toNat ≤ 7)
  (hfree : s.prefixFree) {bytes : List Byte} (hall : ∀ b ∈ bytes, isCoded s b = true)
include h0 h1 hpad hfree hall

/-- UNPACK of a stream that begins with codes decodes them and goes on behind them (43_unpack.md rule R164). -/
theorem unpackBytes_behind_codes (hcoded : ∃ b, isCoded s b = true) (hfit : bytes.length ≤ s.params.outSize)
    {tail : BitString} (hstream : unpaddedStream s = encoded s bytes ++ tail) :
    unpackBytes s = (decodeFrom (codebookOf s) s.params.outSize (encoded s bytes).length []
      (encoded s bytes).length bytes.length tail).map (bytes ++ ·) := by
  obtain ⟨b, hb⟩ := hcoded
  rw [unpackBytes_loop h0 h1 hpad (codebookOf_ne_nil b hb) hfree, hstream,
    decodeFrom_codes hfree s.params.outSize bytes 0 0 tail hall (by rwa [Nat.zero_add]), Nat.zero_add, Nat.zero_add]
  cases decodeFrom (codebookOf s) s.params.outSize (encoded s bytes).length [] (encoded s bytes).length
    bytes.length tail <;> rfl

/-- Behind codes that the output holds, UNPACK stops with the error that the decoding loop finds there. -/
theorem execUnpack_of_error_behind (hcoded : ∃ b, isCoded s b = true) (hfit : bytes.length ≤ s.params.outSize)
    {tail : BitString} {e : CmdError} (hstream : unpaddedStream s = encoded s bytes ++ tail)
    (he : decodeFrom (codebookOf s) s.params.outSize (encoded s bytes).length [] (encoded s bytes).length
      bytes.length tail = .error e) :
    exec .unpack s = .next (raiseNoOutput e s) := by
  refine execUnpack_of_error ?_
  rw [unpackBytes_behind_codes h0 h1 hpad hfree hall hcoded hfit hstream, he]
  rfl

/-- A stream of codes that the output holds is decoded to its bytes (43_unpack.md rules R161, R164). -/
theorem execUnpack_of_codes (hfit : bytes.length ≤ s.params.outSize)
    (hstream : unpaddedStream s = encoded s bytes) :
    exec .unpack s = .next (complete { code := .noError, pos := 0, aux := 0 } { s with
      outMem := s.outMem.writeBytes 0 bytes
      outLen := BitVec.ofNat 32 bytes.length }) := by
  have hne : bytes ≠ [] := by
    rintro rfl
    have hlen := length_unpaddedStream s
    rw [hstream, encoded_nil, List.length_nil] at hlen
    exact h0 (BitVec.eq_of_toNat_eq (show s.inLen.toNat = 0 by omega))
  obtain ⟨b, rest, rfl⟩ := List.exists_cons_of_ne_nil hne
  refine execUnpack_of_bytes ?_
  rw [unpackBytes_behind_codes h0 h1 hpad hfree hall ⟨b, hall b List.mem_cons_self⟩ hfit
    (tail := []) (by rw [hstream, List.append_nil]), decodeFrom, if_pos rfl]
  exact congrArg Except.ok (List.append_nil _)

end

/-- Settles O52: the loop emits the symbols of the codes, and what is written at 0 is read back there alone. -/
theorem unpackDecodesAStreamOfCodes : Obligations.UnpackDecodesAStreamOfCodes := by
  intro s bytes _ h0 h1 hpad hfree hall hfit hstream
  refine ⟨s.outMem.writeBytes 0 bytes, execUnpack_of_codes h0 h1 hpad hfree hall hfit hstream,
    read_writeBytes s.outMem bytes, fun a d ha => ?behind⟩
  case behind => exact byteAt_writeBytes_outside _ _ _ _ _ (.inr (by rwa [Nat.zero_add]))

/-- Settles O53: the code behind OUT_SIZE decoded bytes is the error; a success wrote what the loop's bound allows. -/
theorem unpackStopsWhenTheOutputOverflows : Obligations.UnpackStopsWhenTheOutputOverflows := by
  refine ⟨fun s bytes b tail hp h0 h1 hpad hfree hall hb hfull hstream => ?overflow, fun s t hp h herr => ?fits⟩
  case overflow =>
    rw [encoded_append, encoded_cons, encoded_nil, List.append_nil, List.append_assoc] at hstream
    have hstop := decodeFrom_code hfree s.params.outSize b hb (encoded s bytes).length (encoded s bytes).length
      bytes.length tail
    rw [if_pos hfull] at hstop
    exact ⟨_, execUnpack_of_error_behind h0 h1 hpad hfree hall ⟨b, hb⟩ hfull.le hstream hstop, rfl,
      toNat_streamIndex hp h1 hstream, toNat_ofNat_of_le_outSize hp le_rfl⟩
  case fits =>
    obtain ⟨bytes, hbytes, hlen⟩ := unpack_noError h herr
    have hle := unpackBytes_length s bytes hbytes
    rwa [hlen, toNat_ofNat_of_le_outSize hp hle]

/-! ### Corrupt streams -/

/-- A candidate that no further bit completes to a code stays unmatched to the end of the stream. -/
theorem decodeAtEnd_of_no_code (cb : List (Byte × BitString)) (outSize : Nat) (bits : BitString) :
    ∀ (t : Nat) (cand : BitString) (start count : Nat), cand ++ bits ≠ [] →
      (∀ e ∈ cb, cand.length < e.2.length → ¬ e.2 <+: cand ++ bits) →
      decodeAtEnd cb outSize t cand start count bits = .error (corruptError start count) := by
  induction bits with
  | nil =>
    intro t cand start count hne _
    rw [List.append_nil] at hne
    rw [decodeAtEnd, if_neg hne]
  | cons x bits ih =>
    intro t cand start count _ hno
    have hshift : cand ++ x :: bits = (cand ++ [x]) ++ bits := List.append_cons cand x bits
    have hnone : matchCode cb (cand ++ [x]) = none := by
      refine (matchCode_none _ _).2 fun e he heq => hno e he ?_ ?_
      · rw [heq, List.length_append]
        exact Nat.lt_succ_self _
      · rw [heq, hshift]
        exact List.prefix_append _ _
    rw [decodeAtEnd, hnone]
    refine ih (t + 1) (cand ++ [x]) start count (by simp) fun e he hlt => ?_
    rw [List.length_append] at hlt
    exact hshift ▸ hno e he (Nat.lt_of_succ_lt hlt)

/-- The early check reports what the end of the stream would: a candidate as long as the longest code is no part of a
longer one (43_unpack.md rule R165). -/
theorem decodeFrom_eq_decodeAtEnd (cb : List (Byte × BitString)) (outSize : Nat) (bits : BitString) :
    ∀ (t : Nat) (cand : BitString) (start count : Nat),
      decodeFrom cb outSize t cand start count bits = decodeAtEnd cb outSize t cand start count bits := by
  induction bits with
  | nil => exact fun _ _ _ _ => rfl
  | cons x bits ih =>
    intro t cand start count
    rw [decodeFrom, decodeAtEnd]
    cases matchCode cb (cand ++ [x]) with
    | some sym =>
      cases hrest : decodeAtEnd cb outSize (t + 1) [] (t + 1) (count + 1) bits <;> simp only [ih, hrest]
    | none =>
      by_cases hlong : (cand ++ [x]).length = longestCode cb
      · have hdead := decodeAtEnd_of_no_code cb outSize bits (t + 1) (cand ++ [x]) start count (by simp)
          fun e he hlt => absurd (length_le_longestCode cb e he) (Nat.not_le.2 (hlong ▸ hlt))
        simp only [if_pos hlong, hdead]
      · simp only [if_neg hlong, ih]

/-- A rest of the stream that begins with no code is corrupt, whether it is a part of a code or not. -/
theorem decodeFrom_of_no_code {s : State} {tail : BitString} (hne : tail ≠ [])
    (hno : ∀ b, isCoded s b = true → ¬ (codeOf s b <+: tail)) (outSize t count : Nat) :
    decodeFrom (codebookOf s) outSize t [] t count tail = .error (corruptError t count) := by
  rw [decodeFrom_eq_decodeAtEnd]
  refine decodeAtEnd_of_no_code _ _ _ _ _ _ _ (by rwa [List.nil_append]) fun e he _ => ?_
  obtain ⟨b, c⟩ := e
  obtain ⟨hb, rfl⟩ := (mem_codebookOf s b c).1 he
  exact hno b hb

/-- Settles O55: behind the decoded codes the loop finds no other, and its early check equals the check at the end. -/
theorem corruptStreamIsReported : Obligations.CorruptStreamIsReported := by
  refine ⟨fun s bytes tail hp h0 h1 hpad hfree hcoded hall hfit hstream hne hno => ?corrupt,
    fun cb outSize t count bits => decodeFrom_eq_decodeAtEnd cb outSize bits t [] t count⟩
  case corrupt =>
    have hstop := decodeFrom_of_no_code hne hno s.params.outSize (encoded s bytes).length bytes.length
    exact ⟨_, execUnpack_of_error_behind h0 h1 hpad hfree hall hcoded hfit hstream hstop, rfl,
      toNat_streamIndex hp h1 hstream, toNat_ofNat_of_le_outSize hp hfit⟩

/-! ### The payload of a PACK -/

/-- A PACK that reports no error had input, all of it coded, and left the codebook. -/
theorem pack_noError_operands {s t : State} (h : exec .pack s = .next t) (herr : t.err = .noError) :
    s.inLen ≠ 0 ∧ (∀ b ∈ inputBytes s, isCoded s b = true) ∧ t.cbLen = s.cbLen ∧ t.cbCode = s.cbCode := by
  cases hbits : packBits s with
  | error e =>
    cases (execPack_of_error hbits).symm.trans h
    have hcode := packBits_error s e hbits
    rw [show e.code = .noError from herr] at hcode
    exact absurd hcode (by decide)
  | ok bits =>
    obtain ⟨h0, -, hall, -⟩ := packBits_ok s bits hbits
    cases (execPack_of_bits hbits).symm.trans h
    exact ⟨h0, hall, rfl, rfl⟩

theorem streamBits_take (bytes : List Byte) (n : Nat) :
    streamBits (bytes.take n) = (streamBits bytes).take (8 * n) := by
  induction bytes generalizing n with
  | nil => rw [List.take_nil, streamBits_nil, List.take_nil]
  | cons b bytes ih =>
    cases n with
    | zero => rfl
    | succ n =>
      rw [List.take_succ_cons, streamBits_cons, streamBits_cons, ih, List.take_append, length_bitsOf,
        List.take_of_length_le (l := bitsOf b) (by rw [length_bitsOf]; omega),
        show 8 * (n + 1) - 8 = 8 * n by omega]

/-- Reading back the start of a list written at 0. -/
theorem read_writeBytes_take (m : Memory) (bytes : List Byte) (d : Nat) {n : Nat} (hn : n ≤ bytes.length) :
    (List.range n).map ((m.writeBytes 0 bytes).byteAt d) = bytes.take n := by
  conv_rhs => rw [← read_writeBytes m bytes d]
  rw [← List.map_take, List.take_range, Nat.min_eq_left hn]

/-- A cut through a concatenation of codes falls on a code boundary or inside a code. -/
theorem encoded_take_cases (s : State) (bytes : List Byte) :
    ∀ k ≤ (encoded s bytes).length,
      (∃ j ≤ bytes.length, (encoded s (bytes.take j)).length = k) ∨
      (∃ before b rest part, bytes = before ++ b :: rest ∧ part ≠ [] ∧ part <+: codeOf s b ∧ part ≠ codeOf s b ∧
        (encoded s bytes).take k = encoded s before ++ part) := by
  induction bytes with
  | nil => exact fun k hk => .inl ⟨0, le_rfl, (Nat.le_zero.1 hk).symm⟩
  | cons b bytes ih =>
    intro k hk
    rw [encoded_cons, List.length_append] at hk
    rcases Nat.eq_zero_or_pos k with rfl | hpos
    · exact .inl ⟨0, Nat.zero_le _, rfl⟩
    rcases Nat.lt_or_ge k (codeOf s b).length with hlt | hge
    · have hpart : ((codeOf s b).take k).length = k := List.length_take_of_le hlt.le
      refine .inr ⟨[], b, bytes, (codeOf s b).take k, rfl, List.ne_nil_of_length_pos (by omega),
        List.take_prefix _ _, fun e => ?_, ?_⟩
      · rw [e] at hpart
        omega
      · rw [encoded_cons, List.take_append_of_le_length hlt.le, encoded_nil, List.nil_append]
    · rcases ih (k - (codeOf s b).length) (by omega) with
        ⟨j, hj, hlen⟩ | ⟨before, x, rest, part, rfl, hne, hpre, hstrict, htake⟩
      · refine .inl ⟨j + 1, Nat.succ_le_succ hj, ?_⟩
        rw [List.take_succ_cons, encoded_cons, List.length_append, hlen]
        omega
      · refine .inr ⟨b :: before, x, rest, part, rfl, hne, hpre, hstrict, ?_⟩
        rw [encoded_cons, List.take_append, List.take_of_length_le hge, htake, encoded_cons,
          List.append_assoc]

/-- IN_MEM of `u` holds the payload that a successful PACK of `s` left in `t`, or the start of it, beside the padding and
the codebook of that PACK (43_unpack.md rules R170, R171). -/
structure HoldsPayload (s t u : State) : Prop where
  legal   : s.paramsLegal
  packed  : exec .pack s = .next t
  noError : t.err = .noError
  params  : u.params = s.params
  cbLen   : u.cbLen = t.cbLen
  cbCode  : u.cbCode = t.cbCode
  pad     : u.pad = t.pad
  inLen   : u.inLen.toNat ≤ t.outLen.toNat
  input   : ∀ d, inputBytes u = (List.range u.inLen.toNat).map (t.outMem.byteAt d)

section
variable {s t u : State} (h : HoldsPayload s t u)
include h

theorem HoldsPayload.isCoded_eq : isCoded u = isCoded s := by
  obtain ⟨-, -, hlen, -⟩ := pack_noError_operands h.packed h.noError
  exact isCoded_congr s u (h.cbLen.trans hlen)

theorem HoldsPayload.codeOf_eq : codeOf u = codeOf s := by
  obtain ⟨-, -, hlen, hcode⟩ := pack_noError_operands h.packed h.noError
  exact codeOf_congr s u (h.cbLen.trans hlen) (h.cbCode.trans hcode)

theorem HoldsPayload.encoded_eq : encoded u = encoded s := by
  funext bytes
  rw [encoded, encoded, h.codeOf_eq]

theorem HoldsPayload.prefixFree (hfree : s.prefixFree) : u.prefixFree := by
  rw [State.prefixFree, h.isCoded_eq, h.codeOf_eq]
  exact hfree

/-- The bytes of the payload hold the codes of the input and the padding (42_pack.md rule R144). -/
theorem HoldsPayload.payload_bits :
    8 * t.outLen.toNat = (encoded s (inputBytes s)).length + u.pad.toNat ∧ u.pad.toNat ≤ 7 := by
  obtain ⟨-, -, hlen, hpad⟩ := pack_noError h.legal h.packed h.noError
  obtain ⟨hle, hmod, hdiv⟩ := paddingOf_spec (encoded s (inputBytes s)).length
  rw [h.pad, hpad, hlen]
  omega

/-- The unpadded stream is the start of the input's codes (43_unpack.md rules R163, R170, R171). -/
theorem HoldsPayload.unpaddedStream_eq :
    unpaddedStream u = (encoded s (inputBytes s)).take (8 * u.inLen.toNat - u.pad.toNat) := by
  obtain ⟨-, hmem, hlen, -⟩ := pack_noError h.legal h.packed h.noError
  obtain ⟨hbits, -⟩ := h.payload_bits
  have hshort := h.inLen
  rw [unpaddedStream, h.input 0, hmem, read_writeBytes_take _ _ _ (by rwa [length_bytesOf_padded, ← hlen]),
    streamBits_take, streamBits_bytesOf_padded, List.take_take, Nat.min_eq_left (Nat.sub_le _ _), padded,
    List.take_append_of_le_length (by omega)]

variable (hfree : s.prefixFree) (h0 : u.inLen ≠ 0) (h1 : u.inLen.toNat ≤ s.params.inSize)
  (hout : s.inLen.toNat ≤ s.params.outSize)
include hfree h0 h1 hout

/-- A payload that ends on a code boundary decodes to the bytes before it (43_unpack.md rules R170, R171). -/
theorem HoldsPayload.unpack_at_boundary {j : Nat} (hj : j ≤ s.inLen.toNat)
    (hcut : (encoded s ((inputBytes s).take j)).length = 8 * u.inLen.toNat - u.pad.toNat) :
    ∃ v, exec .unpack u = .next v ∧ v.err = .noError ∧ v.outLen.toNat = j ∧
      ∀ d, (List.range j).map (v.outMem.byteAt d) = (inputBytes s).take j := by
  obtain ⟨-, hall, -⟩ := pack_noError_operands h.packed h.noError
  have hlen : ((inputBytes s).take j).length = j := List.length_take_of_le (by rwa [length_inputBytes])
  have hstream : unpaddedStream u = encoded u ((inputBytes s).take j) := by
    rw [h.unpaddedStream_eq, h.encoded_eq, ← hcut]
    exact (List.prefix_iff_eq_take.1 ((List.take_prefix j (inputBytes s)).flatMap (codeOf s))).symm
  have hfit : ((inputBytes s).take j).length ≤ u.params.outSize := by
    rw [hlen, h.params]
    exact hj.trans hout
  have hrun := execUnpack_of_codes h0 (h.params ▸ h1) h.payload_bits.2 (h.prefixFree hfree)
    (fun b hb => h.isCoded_eq ▸ hall b (List.mem_of_mem_take hb)) hfit hstream
  refine ⟨_, hrun, rfl, ?length, fun d => ?bytes⟩
  case length =>
    rw [complete_outLen, hlen]
    exact toNat_ofNat_of_le_outSize h.legal (hj.trans hout)
  case bytes =>
    have hread := read_writeBytes u.outMem ((inputBytes s).take j) d
    rwa [hlen] at hread

/-- A payload that ends inside a code is corrupt (43_unpack.md rule R171). -/
theorem HoldsPayload.unpack_inside_code
    (hcut : ∀ j ≤ s.inLen.toNat, (encoded s ((inputBytes s).take j)).length ≠ 8 * u.inLen.toNat - u.pad.toNat) :
    ∃ v, exec .unpack u = .next v ∧ v.err = .corruptBitstream := by
  obtain ⟨-, hall, -⟩ := pack_noError_operands h.packed h.noError
  obtain ⟨hbits, -⟩ := h.payload_bits
  have hshort := h.inLen
  rcases encoded_take_cases s (inputBytes s) (8 * u.inLen.toNat - u.pad.toNat) (by omega) with
    ⟨j, hj, hlen⟩ | ⟨before, b, rest, part, hin, hne, hpre, hstrict, htake⟩
  · exact absurd hlen (hcut j (by rwa [length_inputBytes] at hj))
  · have hmem : ∀ x ∈ before ++ b :: rest, isCoded u x = true := fun x hx => h.isCoded_eq ▸ hall x (hin ▸ hx)
    have hb : isCoded u b = true := hmem b (by simp)
    have hlen := congrArg List.length hin
    rw [length_inputBytes, List.length_append] at hlen
    rw [← h.unpaddedStream_eq, ← h.encoded_eq] at htake
    rw [← h.codeOf_eq] at hpre hstrict
    have hstop := decodeFrom_tail (h.prefixFree hfree) u.params.outSize b hb (encoded u before).length before.length
      part hne hpre hstrict
    exact ⟨_, execUnpack_of_error_behind h0 (h.params ▸ h1) h.payload_bits.2 (h.prefixFree hfree)
      (fun x hx => hmem x (List.mem_append_left _ hx)) ⟨b, hb⟩ (by rw [h.params]; omega) htake hstop, rfl⟩

end

/-- Settles O58: the whole payload ends on the boundary behind the last code. -/
theorem unpackInvertsPack : Obligations.UnpackInvertsPack := by
  intro s t u hp hfree h herr hparams hcbLen hcbCode hpad hinLen h1 hout hin
  have hold : HoldsPayload s t u := ⟨hp, h, herr, hparams, hcbLen, hcbCode, hpad, hinLen ▸ le_rfl, hinLen ▸ hin⟩
  obtain ⟨hs0, hall, -⟩ := pack_noError_operands h herr
  obtain ⟨hbits, hle⟩ := hold.payload_bits
  have hwhole : (inputBytes s).take s.inLen.toNat = inputBytes s :=
    List.take_of_length_le (length_inputBytes s).le
  have hcut : (encoded s ((inputBytes s).take s.inLen.toNat)).length = 8 * u.inLen.toNat - u.pad.toNat := by
    rw [hwhole, hinLen]
    omega
  have h0 : u.inLen ≠ 0 := by
    intro e
    have hcodes := length_le_encoded hall
    rw [length_inputBytes] at hcodes
    have hzero : t.outLen.toNat = 0 := by rw [← hinLen, e]; rfl
    exact hs0 (BitVec.eq_of_toNat_eq (show s.inLen.toNat = 0 by omega))
  obtain ⟨v, hv, hverr, hvlen, hvbytes⟩ := hold.unpack_at_boundary hfree h0 h1 hout le_rfl hcut
  refine ⟨v, hv, hverr, BitVec.eq_of_toNat_eq hvlen, fun d => ?_⟩
  rw [hvlen, hvbytes d, hwhole]

/-- Settles O59: the cut stream ends on a code boundary or inside a code; without a byte there is no input. -/
theorem truncatedPayload : Obligations.TruncatedPayload := by
  refine ⟨fun s t u hp hfree h herr hparams hcbLen hcbCode hpad h2 hinLen h1 hout hin => ?cut,
    fun s t u h herr hone hinLen => ?none⟩
  case cut =>
    have hold : HoldsPayload s t u :=
      ⟨hp, h, herr, hparams, hcbLen, hcbCode, hpad, by omega, hinLen ▸ hin⟩
    obtain ⟨-, hall, -⟩ := pack_noError_operands h herr
    obtain ⟨hbits, hle⟩ := hold.payload_bits
    have h0 : u.inLen ≠ 0 := fun e => by
      rw [e] at hinLen
      have hzero : (0 : Word).toNat = 0 := rfl
      omega
    rw [← hpad, ← hinLen]
    refine ⟨fun j hcut hj => ⟨?strict, hold.unpack_at_boundary hfree h0 h1 hout hj hcut⟩,
      hold.unpack_inside_code hfree h0 h1 hout, fun hzero => ?degenerate⟩
    case strict =>
      refine lt_of_le_of_ne hj fun e => ?_
      rw [e, List.take_of_length_le (length_inputBytes s).le] at hcut
      omega
    case degenerate =>
      have hlen : ∀ bytes : List Byte, (∀ b ∈ bytes, isCoded s b = true) → (encoded s bytes).length = bytes.length :=
        fun bytes hb => by rw [encoded_of_zero_codes fun b hm => hzero b (hb b hm), List.length_replicate]
      have hin' := hlen _ hall
      rw [length_inputBytes] at hin'
      refine ⟨8 * u.inLen.toNat - u.pad.toNat, by omega, ?_⟩
      rw [hlen _ fun b hb => hall b (List.mem_of_mem_take hb)]
      exact List.length_take_of_le (by rw [length_inputBytes]; omega)
  case none =>
    rw [hone] at hinLen
    have he := inputError_zero u (BitVec.eq_of_toNat_eq hinLen)
    obtain ⟨v, hv, hcode, -⟩ := exec_inputError (.inr (.inr rfl)) he
    exact ⟨v, hv, hcode⟩

/-! ### A cut payload -/

/-- The host can copy any start of a payload to IN_MEM: the premises of a round trip and of a truncation can be met. -/
theorem holdsPayload_of_copy {s t : State} (hp : s.paramsLegal) (h : exec .pack s = .next t) (herr : t.err = .noError)
    {n : Word} (hn : n.toNat ≤ t.outLen.toNat) : HoldsPayload s t { t with inMem := t.outMem, inLen := n } := by
  obtain ⟨-, hmem, hlen, -⟩ := pack_noError hp h herr
  have hparams : t.params = s.params := by
    obtain ⟨e, u, rfl, hu⟩ := exec_completes h
    exact hu.params
  have hread : ∀ d, (List.range n.toNat).map (t.outMem.byteAt d) =
      (bytesOfBits (padded (encoded s (inputBytes s)))).take n.toNat := fun d => by
    rw [hmem, read_writeBytes_take _ _ _ (by rwa [length_bytesOf_padded, ← hlen])]
  exact ⟨hp, h, herr, hparams, rfl, rfl, rfl, hn, fun d => (hread t.draws).trans (hread d).symm⟩

/-- "A" with the code "0" and "B" with the code "10", and an input. -/
def twoCodes (input : List Byte) : State :=
  writeCodes [(0x41, [false]), (0x42, [true, false])]
    { State.reset with inMem := Memory.unwritten.writeBytes 0 input, inLen := BitVec.ofNat 32 input.length }

/-- "ABBBB" and "BBBBA": nine bits each. Behind the first of them, where the payload ends without its last byte, "ABBBB"
has a code boundary and "BBBBA" has none. -/
def nineBitInputs : List (List Byte) := [[0x41, 0x42, 0x42, 0x42, 0x42], [0x42, 0x42, 0x42, 0x42, 0x41]]

theorem twoCodes_facts : ∀ input ∈ nineBitInputs,
    ambiguousPair (codebookOf (twoCodes input)) = none ∧ (twoCodes input).params.wf = true ∧
    (twoCodes input).inLen = 5 ∧ 5 ≤ (twoCodes input).params.inSize ∧ 5 ≤ (twoCodes input).params.outSize ∧
    (∀ b ∈ inputBytes (twoCodes input), isCoded (twoCodes input) b = true) ∧
    (encoded (twoCodes input) (inputBytes (twoCodes input))).length = 9 ∧
    ∀ j ≤ 5, (encoded (twoCodes input) ((inputBytes (twoCodes input)).take j)).length = 1 ↔
      j = 1 ∧ input.head? = some 0x41 := by
  decide +kernel

/-- The premises of a truncation can be met, by a cut on a code boundary and by one inside a code (43_unpack.md rule
R171). -/
theorem truncation_cases_occur : ∀ input ∈ nineBitInputs, ∃ t u, HoldsPayload (twoCodes input) t u ∧
    (twoCodes input).prefixFree ∧ t.outLen.toNat = 2 ∧ u.inLen.toNat = t.outLen.toNat - 1 ∧
    u.inLen.toNat ≤ (twoCodes input).params.inSize ∧ (twoCodes input).inLen.toNat ≤ (twoCodes input).params.outSize ∧
    ∀ j ≤ (twoCodes input).inLen.toNat, (encoded (twoCodes input) ((inputBytes (twoCodes input)).take j)).length =
      8 * u.inLen.toNat - u.pad.toNat ↔ j = 1 ∧ input.head? = some 0x41 := by
  intro input hin
  obtain ⟨hcheck, hlegal, hinLen, hinSize, houtSize, hall, hbits, hcut⟩ := twoCodes_facts input hin
  have hfive : (twoCodes input).inLen.toNat = 5 := congrArg BitVec.toNat hinLen
  have hnine : bytesFor 9 = 2 ∧ paddingOf 9 = 7 := ⟨rfl, rfl⟩
  obtain ⟨t, hpack, herr⟩ : ∃ t, exec .pack (twoCodes input) = .next t ∧ t.err = .noError :=
    ⟨_, execPack_of_bits (packBits_of_coded (by rw [hinLen]; decide) (by rwa [hfive]) hall
      (by rw [hbits, hnine.1]; omega)), rfl⟩
  obtain ⟨-, -, hlen, hpad⟩ := pack_noError hlegal hpack herr
  rw [hbits] at hlen hpad
  rw [hnine.1] at hlen
  rw [hnine.2] at hpad
  have hone : (1 : Word).toNat = 1 := rfl
  refine ⟨t, _, holdsPayload_of_copy hlegal hpack herr (n := 1) (by omega), (ambiguousPair_codebookOf _).1 hcheck,
    hlen, by rw [hlen]; rfl, (by omega : 1 ≤ _), by rwa [hfive], ?_⟩
  rw [hfive, hpad]
  exact hcut

end Sys2Proof.Machine
end

section
/-! The errors of each command (60_exceptions.md rule R180), the interrupt (rule R188), and the two orders of a host
access and a completion (rule R191). -/

namespace Sys2Proof.Machine

/-! ### The errors -/

/-- The table of 60_exceptions.md rule R180 read by command: the errors with which a command can fail. -/
def failuresOf : Instr → List ErrorCode
  | .freq => [.emptyInput, .badParameter]
  | .build => [.emptyInput]
  | .gencode => [.noTree]
  | .pack => [.emptyInput, .badParameter, .codebookIncomplete, .outputOverflow]
  | .unpack =>
    [.emptyInput, .badParameter, .codebookIncomplete, .ambiguousCodebook, .corruptBitstream, .outputOverflow]
  | .fclr => []
  | .cbclr => []

/-- A command succeeds or fails with an error of its own list. -/
theorem exec_err {i : Instr} {s t : State} (h : exec i s = .next t) : t.err = .noError ∨ t.err ∈ failuresOf i := by
  cases i with
  | freq =>
    rcases execFreq_cases s with ⟨e, hin, he⟩ | ⟨-, he⟩ <;> cases he.symm.trans h
    · exact .inr (by simpa [failuresOf] using inputError_code s e hin)
    · exact .inl rfl
  | build =>
    rcases execBuild_cases s with ⟨-, he⟩ | ⟨-, he⟩ <;> cases he.symm.trans h
    · exact .inr List.mem_cons_self
    · exact .inl rfl
  | gencode =>
    rcases execGencode_cases s with ⟨-, he⟩ | ⟨-, he⟩ <;> cases he.symm.trans h
    · exact .inr List.mem_cons_self
    · exact .inl rfl
  | pack =>
    rcases execPack_cases s with ⟨e, hbits, he⟩ | ⟨bits, -, he⟩ <;> cases he.symm.trans h
    · exact .inr (packBits_error s e hbits)
    · exact .inl rfl
  | unpack =>
    rcases execUnpack_cases s with ⟨e, hbytes, he⟩ | ⟨bytes, -, he⟩ <;> cases he.symm.trans h
    · exact .inr (unpackBytes_error s e hbytes)
    · exact .inl rfl
  | fclr =>
    cases (execFclr_eq s).symm.trans h
    exact .inl rfl
  | cbclr =>
    cases (execCbclr_eq s).symm.trans h
    exact .inl rfl

/-- Settles O7: success or an error of the command's list; FCLR and CBCLR have none. -/
theorem errorsEachCommandCanReport : Obligations.ErrorsEachCommandCanReport := fun _ _ =>
  ⟨fun h => List.mem_cons.2 (exec_err h), fun h => List.mem_cons.2 (exec_err h),
    fun h => List.mem_cons.2 (exec_err h), fun h => List.mem_cons.2 (exec_err h),
    fun h => List.mem_cons.2 (exec_err h),
    fun h => (exec_err h).resolve_right List.not_mem_nil, fun h => (exec_err h).resolve_right List.not_mem_nil⟩

/-! ### The completion of a running command -/

/-- The Core's turn completes a running command, whatever its word, and leaves OVR, CTRL.IE, LASTOP and the moves to
come. -/
theorem commandStep_of_busy_keeps {s : State} (hb : s.busy = true) :
    ∃ t, commandStep s = .next t ∧ t.busy = false ∧ t.done = true ∧ t.ovr = s.ovr ∧ t.ie = s.ie ∧
      t.lastOp = s.lastOp ∧ t.inputs = s.inputs := by
  rcases commandStep_cases s with ⟨hp, -⟩ | ⟨w, i, -, -, he⟩ | ⟨w, r, -, -, he⟩
  · exact absurd (((idle_iff_no_pending s).2 hp).symm.trans hb) Bool.false_ne_true
  · obtain ⟨e, u, hexec, -, hu⟩ := exec_total i s
    have hspared := hu.spared
    simp only [State.sparedPart, Prod.mk.injEq] at hspared
    obtain ⟨hinputs, -, -, -, -, -, -, hie, hlastOp⟩ := hspared
    exact ⟨_, he.trans hexec, rfl, rfl, (exec_commandFrame hexec).ovr, hie, hlastOp, hinputs⟩
  · exact ⟨_, he, rfl, rfl, rfl, rfl, rfl, rfl⟩

/-! ### The writes of CTRL and STATUS -/

/-- CTRL takes a write at any time. -/
theorem wr32_ctrl (v : Word) (s : State) : hostAccess (.wr32 0x004 v) s = .next (writeCtrl v s) :=
  wr32_page_always s 0x004 v (.inl rfl)

theorem writeCtrl_of_reset {v : Word} (s : State) (hv : v.getLsbD 1 = true) : writeCtrl v s = softReset s := by
  rw [writeCtrl, hv]
  rfl

/-- STATUS takes a write at any time. -/
theorem wr32_status (v : Word) (s : State) : hostAccess (.wr32 0x008 v) s = .next (writeStatus v s) :=
  wr32_page_always s 0x008 v (.inr (.inl rfl))

/-! ### The interrupt -/

theorem irq_eq_ie {s : State} (h : s.done = true) : s.irq = s.ie := by rw [State.irq, h, Bool.true_and]

theorem irq_of_not_done {s : State} (h : s.done = false) : s.irq = false := by rw [State.irq, h, Bool.false_and]

theorem irq_of_disabled {s : State} (h : s.ie = false) : s.irq = false := by rw [State.irq, h, Bool.and_false]

/-- A write to CTRL with SRST = 1 or IE = 0 leaves the interrupt disabled. -/
theorem writeCtrl_disables {v : Word} (s : State) (hv : v.getLsbD 1 = true ∨ v.getLsbD 0 = false) :
    (writeCtrl v s).ie = false := by
  cases hsrst : v.getLsbD 1 with
  | true => rw [writeCtrl_of_reset s hsrst, softReset_ie]
  | false =>
    rw [writeCtrl_of_no_reset s hsrst]
    exact hv.resolve_left (by rw [hsrst]; decide)

/-- Settles O8: DONE after a completion makes the level IE; each event of rule R188 that lowers it clears DONE or IE. -/
theorem interruptLevelFollowsDoneAndEnable : Obligations.InterruptLevelFollowsDoneAndEnable := by
  refine ⟨fun s => rfl, fun s t w hp h => ?completion, fun s hd => ⟨_, wr32_ctrl 1 s, ?enable⟩,
    fun s v hv => ⟨_, wr32_status v s, ?clear⟩, fun s w hb => ⟨_, wr32_cmd w s, ?accept⟩,
    fun s v hv => ⟨_, wr32_ctrl v s, irq_of_disabled (writeCtrl_disables s hv)⟩, fun s => rfl,
    fun s w hb => ⟨_, wr32_cmd w s, ?drop⟩⟩
  case completion =>
    obtain ⟨u, hu, -, hdone, -, hie, -, -⟩ := commandStep_of_busy_keeps ((busy_iff_pending s).2 ⟨w, hp⟩)
    cases hu.symm.trans h
    rw [irq_eq_ie hdone, hie]
  case enable =>
    rw [writeCtrl_of_no_reset s (by decide)]
    exact irq_eq_ie hd
  case clear =>
    apply irq_of_not_done
    rw [writeStatus_eq]
    exact if_pos hv
  case accept =>
    rw [writeCmd_of_idle w hb]
    exact irq_of_not_done rfl
  case drop =>
    rw [writeCmd_of_busy w hb]
    rfl

/-! ### The two orders -/

/-- A run of two steps. -/
theorem run_two {s u t : State} (h : step s = .next u) (h' : step u = .next t) :
    Host.Core.run Sys2Proof.core 2 s = .next t :=
  (run_succ 1 s u h).trans (run_succ 0 u t h')

/-- Settles O11: behind a dropped CMD write the command completes, behind the completion the write meets an idle
machine, and behind a soft reset the Core's turn finds no command. -/
theorem bothOrdersOfAccessAndCompletion : Obligations.BothOrdersOfAccessAndCompletion := by
  refine ⟨fun s w v rest hp hi => ?dropped, fun s w v rest hp hi => ?accepted, fun s w v rest hp hv hi => ?aborted⟩
  case dropped =>
    have hb : (takeTurn s).busy = true := (busy_iff_pending s).2 ⟨w, hp⟩
    have hwrite := (step_of_host hi).trans (wr32_cmd v (takeTurn s))
    rw [writeCmd_of_busy v hb] at hwrite
    obtain ⟨t, hturn, hidle, hdone, hovr, -, hlastOp, -⟩ :=
      commandStep_of_busy_keeps (s := takeTurn { takeTurn s with ovr := true }) hb
    exact ⟨t, run_two hwrite ((step_of_coreTurn (congrArg List.tail hi)).trans hturn), hidle, hdone, hovr, hlastOp⟩
  case accepted =>
    obtain ⟨t, hturn, hidle, -, hovr, -, -, hinputs⟩ :=
      commandStep_of_busy_keeps (s := takeTurn s) ((busy_iff_pending s).2 ⟨w, hp⟩)
    have hwrite := (step_of_host (hinputs.trans (congrArg List.tail hi))).trans (wr32_cmd v (takeTurn t))
    rw [writeCmd_of_idle (s := takeTurn t) v hidle] at hwrite
    exact ⟨_, run_two ((step_of_coreTurn hi).trans hturn) hwrite, rfl, rfl, hovr, rfl⟩
  case aborted =>
    have hreset := (step_of_host hi).trans (wr32_ctrl v (takeTurn s))
    rw [writeCtrl_of_reset (takeTurn s) hv] at hreset
    have hturn :=
      (step_of_coreTurn (s := softReset (takeTurn s)) (congrArg List.tail hi)).trans (commandStep_of_idle rfl)
    exact ⟨_, run_two hreset hturn, rfl, rfl, rfl⟩

end Sys2Proof.Machine
end

section
/-! What a running command excludes: the writes that break the host's duty (70_reset_and_hazards.md rule R216), and what a
soft reset keeps when it aborts the command (rule R212). -/

namespace Sys2Proof.Machine

/-! ### The host's duty while a command runs -/

theorem writableWhileBusy_iff (off : Word) :
    writableWhileBusy off ↔ off.toNat = 0x004 ∨ off.toNat = 0x008 ∨ off.toNat = 0x00C := by
  simp only [writableWhileBusy, ← BitVec.toNat_inj]
  rfl

/-- An allowed 8-bit write goes to a memory window, and is made only while idle. -/
theorem hostWrite8_eq_whenIdle {off : Word} {v : Byte} {s : State} (h : (regionOf s.params off).takesByte) :
    ∃ t, hostWrite8 off v s = whenIdle off s t := by
  rw [hostWrite8]
  cases hr : regionOf s.params off <;> rw [hr] at h
  · exact h.elim
  · exact ⟨_, rfl⟩
  · exact ⟨_, rfl⟩
  · exact h.elim

/-- An allowed 32-bit write to anything but CMD, CTRL and STATUS is made only while idle. -/
theorem hostWrite32_eq_whenIdle {off v : Word} {s : State} (h : (regionOf s.params off).takesWord s.params)
    (hd : ¬ writableWhileBusy off) : ∃ t, hostWrite32 off v s = whenIdle off s t := by
  rw [hostWrite32]
  rcases regionOf_cases s.params off with ⟨hr, -⟩ | ⟨a, hr, -⟩ | ⟨a, hr, -⟩ | ⟨hr, -⟩ <;> rw [hr] at h ⊢
  · rw [writableWhileBusy_iff, ← writableBusy_iff] at hd
    exact ⟨_, (if_pos h).trans (if_neg hd)⟩
  · exact ⟨_, if_pos h⟩
  · exact ⟨_, if_pos h⟩
  · exact h.elim

/-- An allowed write to anything but CMD, CTRL and STATUS is made only while idle. -/
theorem hostAccess_eq_whenIdle {s : State} {a : HostAccess} (hp : s.paramsLegal) (ha : busAllows s.params a)
    (hw : isWrite a = true) (hd : ¬ writableWhileBusy (offsetOfAccess a)) :
    ∃ t, hostAccess a s = whenIdle (offsetOfAccess a) s t := by
  cases a with
  | rd8 off => cases hw
  | rd32 off => cases hw
  | wr8 off v => exact hostWrite8_eq_whenIdle ((busAllows_wr8_iff s.params off v).1 ha)
  | wr32 off v => exact hostWrite32_eq_whenIdle ((busAllows_wr32_iff hp off v).1 ha) hd
  | otherWidth off bits => cases hw

/-- An allowed write to CMD, CTRL or STATUS is made at any time: it is 32 bits wide, since the bus allows an 8-bit access
in the windows alone. -/
theorem hostAccess_writableWhileBusy {s : State} {a : HostAccess} (ha : busAllows s.params a) (hw : isWrite a = true)
    (hd : writableWhileBusy (offsetOfAccess a)) : ∃ t, hostAccess a s = .next t := by
  rw [writableWhileBusy_iff] at hd
  cases a with
  | rd8 off => cases hw
  | rd32 off => cases hw
  | wr8 off v =>
    simp only [busAllows, inWindow, offsetOfAccess] at ha hd
    omega
  | wr32 off v => exact ⟨_, wr32_page_always s off v hd⟩
  | otherWidth off bits => cases hw

/-- Settles O14: a read is made, a write to CMD, CTRL or STATUS is made, and every other write is made only while idle. -/
theorem hostWritesRefusedExactlyOnBreachOfDuty : Obligations.HostWritesRefusedExactlyOnBreachOfDuty := by
  intro s a hp ha
  cases hw : isWrite a with
  | false =>
    obtain ⟨v, hread⟩ := readsChangeNothing s a hp ha hw
    exact ⟨fun ⟨_, hwrite, _⟩ => absurd hwrite Bool.false_ne_true, fun _ => ⟨_, hread⟩⟩
  | true =>
    by_cases hd : writableWhileBusy (offsetOfAccess a)
    · exact ⟨fun ⟨_, _, hbreach⟩ => absurd hd hbreach, fun _ => hostAccess_writableWhileBusy ha hw hd⟩
    · obtain ⟨t, ht⟩ := hostAccess_eq_whenIdle hp ha hw hd
      rw [ht]
      refine ⟨fun ⟨hbusy, _⟩ => whenIdle_busy _ s t hbusy, fun hduty => ⟨t, whenIdle_idle _ s t ?_⟩⟩
      exact Bool.eq_false_iff.2 fun hbusy => hduty ⟨hbusy, rfl, hd⟩

/-! ### Soft reset -/

/-- What runs is a PACK or an UNPACK exactly when its word is pending. -/
theorem runsOutput_iff (s : State) :
    s.runsOutput = true ↔ s.pending = some (encode .pack) ∨ s.pending = some (encode .unpack) := by
  have hdecode : ∀ w i, decodeInstr w = some i ↔ encode i = w := fun w i =>
    (decodeInstr_iff w i).trans (decode_iff w i)
  constructor
  · intro h
    unfold State.runsOutput at h
    split at h
    · next w hw =>
      split at h
      · next i hi =>
        rw [hw, ← (hdecode w i).1 hi]
        cases i with
        | pack => exact .inl rfl
        | unpack => exact .inr rfl
        | freq | build | gencode | fclr | cbclr => cases h
      · cases h
    · cases h
  · rintro (h | h) <;> simp only [State.runsOutput, h, (hdecode _ _).2 rfl, writesOutMem]

/-- A soft reset keeps OUT_MEM unless it aborts a PACK or an UNPACK. -/
theorem softReset_outMem_kept {s : State} (hpack : s.pending ≠ some (encode .pack))
    (hunpack : s.pending ≠ some (encode .unpack)) : (softReset s).outMem = s.outMem := by
  rw [softReset_outMem, if_neg (mt (runsOutput_iff s).1 (not_or_intro hpack hunpack))]

/-- Settles O25: the write is the soft reset, whose registers, tables and flags are those of the reset state. -/
theorem softResetKeepsTheMemories : Obligations.SoftResetKeepsTheMemories := by
  intro s v hv
  refine ⟨softReset s, ?_, rfl, rfl, rfl, rfl, rfl, rfl, rfl, rfl, rfl, rfl, rfl, rfl, rfl, rfl, rfl, rfl, rfl, rfl, rfl,
    fun b => ?_, rfl, rfl, softReset_outMem_kept⟩
  · rw [wr32_ctrl, writeCtrl_of_reset s hv]
  · simp only [softReset_freq, softReset_cbLen, softReset_cbCode, table_at_all, and_self]

end Sys2Proof.Machine
end
